-- ==== Sys2Proof/Word.lean ====
section
/-! DEFINITION. The unit of every transfer on the bus and the level of a wire. -/

namespace Sys2Proof

/-- The unit of every bus transfer is one 8-bit byte (R46); bit 0 is the least significant bit (R8). -/
abbrev Byte := BitVec 8

/-- The level of a wire: `false` is low (`0`), `true` is high (`1`) (R13). -/
abbrev Level := Bool

end Sys2Proof
end

