-- ==== Sys2Proof/Config.lean ====
section
/-! DEFINITION. What one implementation fixes (the parameters of R4 to R7) and the free values (`⊥` as a draw, R9). -/

namespace Sys2Proof

/-- The three wires of the bus (R2). -/
inductive Pin where
  | clk
  | dio
  | stb
  deriving DecidableEq, Repr

/-- `P_DATA_LAYOUT`: which bits of a class-01 command byte carry its fields (R6). -/
inductive DataLayout where
  /-- The layout the source states; the default. -/
  | doc
  /-- The layout commonly published for TM1638-class chips. -/
  | datasheet
  deriving DecidableEq, Repr

/-- The implementation parameters of 00_scope.md section 4, fixed when an engine is created.
They stand in the state so that one model covers every value of them; no step changes them. -/
structure Params where
  /-- `P_PIN_CLK`, `P_PIN_DIO`, `P_PIN_STB`: opaque pin identifiers (R7). -/
  pinClk : Nat
  pinDio : Nat
  pinStb : Nat
  /-- `P_T_HALF`: the duration of every `DELAY` (R4); in nanoseconds. -/
  tHalf  : Nat
  /-- `P_STRICT`: whether a dropped or completed request returns a status (R5). -/
  strict : Bool
  /-- `P_DATA_LAYOUT` (R6), the same on the engine's and on the peer's side. -/
  layout : DataLayout
  deriving DecidableEq, Repr

/-- The three pin identifiers are distinct (R7). -/
abbrev Params.wf (c : Params) : Prop :=
  c.pinClk ≠ c.pinDio ∧ c.pinClk ≠ c.pinStb ∧ c.pinDio ≠ c.pinStb

/-- The parameters a model starts from: `P_STRICT = false` (R5) and `P_DATA_LAYOUT = DOC` (R6) are the spec's
defaults; the identifiers and the half-cycle of 1000 ns are a DESIGN CHOICE (log entry 1). -/
def Params.default : Params :=
  { pinClk := 0, pinDio := 1, pinStb := 2, tHalf := 1000, strict := false, layout := .doc }

/-- `N_DISP`: the number of display registers of the peer (R32). -/
def Config.nDisp : Nat := 16

/-- `N_KEYB`: the number of key-scan bytes of the peer (R33). -/
def Config.nKeyb : Nat := 4

/-- The bit that `RD` answers on a wire whose level is `⊥` (R26, R98): a draw under no law, numbered by the
state's draw counter (log entry 6). -/
opaque Config.freeBit : Nat → Bool

/-- The keypad the peer sees at a key-bit clock for which the environment has presented nothing (R33, R66):
a draw under no law, numbered by the state's draw counter, for each of the four key-scan bytes (log entry 7). -/
opaque Config.freeKey : Nat → Nat → Byte

/-- The byte that display register `a` holds at the peer's power-on and until it is written (R32, R157, R160): any
value, under no law (log entry 22). -/
opaque Config.freeDisp : Nat → Byte

/-- The values of `E.tx`, `E.i`, `E.acc`, `E.kacc` and `E.k` between requests (R30; 93_implementation_defined.md item
10): any values in their ranges, under no law, numbered by the state's draw counter (log entry 28). -/
opaque Config.freeTx : Nat → Byte
opaque Config.freeI : Nat → Fin 9
opaque Config.freeAcc : Nat → Byte
opaque Config.freeKacc : Nat → BitVec 32
opaque Config.freeK : Nat → Fin 5

end Sys2Proof
end

