-- ==== Sys2Proof/Syntax.lean ====
section
/-! DEFINITION. The instructions: one constructor for each of the 31 rows of spec/opcode_table.json. -/

namespace Sys2Proof

/-- One constructor per row of the opcode table, in the table's order. The operands of host requests are
unbounded naturals, so that a request whose operand does not fit its width (R88) can be presented and is
refused by the machine (R139; log entry 15). -/
inductive Instr where
  -- command bytes, decoded by the peer (30_encoding.md sections 1 and 2)
  /-- `CMD_WRITE_AUTO` (R113): write display data, auto-increment. -/
  | cmdWriteAuto
  /-- `CMD_READ_KEYS` (R114): read key data. -/
  | cmdReadKeys
  /-- `CMD_WRITE_FIXED` (R115): write display data, fixed address. -/
  | cmdWriteFixed
  /-- `CTRL(e, b)` (R78, R111): display control. -/
  | ctrl (e : Bool) (b : BitVec 3)
  /-- `ADDR(a)` (R79, R112): set the write pointer. -/
  | addr (a : BitVec 4)
  /-- A command byte of class 00 (R63, R86), with its bits 5:0. -/
  | reservedClass00 (x : BitVec 6)
  /-- A class-01 byte with no meaning (R60, R86): its bits 5:3, bit 2 and bits 1:0. -/
  | reservedData (z : BitVec 3) (r : Bool) (m : BitVec 2)
  /-- A class-10 or class-11 byte with bits 5:4 not 00 (R61, R62, R86): bit 6, bits 5:4 and bits 3:0. -/
  | reservedCtrlAddr (x : Bool) (z : BitVec 2) (low : BitVec 4)
  /-- A byte after the command byte of a window (R83). -/
  | payload (d : Byte)
  -- bus actions (30_encoding.md section 6)
  | cfgOut (p : Pin)
  | cfgIn (p : Pin)
  | wr (p : Pin) (l : Level)
  | rd (p : Pin)
  | delay
  -- procedures (40_bit_transceiver.md section 2, 41_command_framing.md)
  | writeByte (v : Byte)
  | readByte
  | strobeLow
  | strobeHigh
  | writeCommand (c : Byte)
  | writeOp (a : Byte) (d : List Byte)
  | readWindow
  | sendCtrl
  -- host requests (30_encoding.md section 5)
  | init (on : Bool) (b : Nat)
  | shutdown
  | displayOn
  | displayOff
  | setBrightness (b : Nat)
  | clear
  | writeReg (a v : Nat)
  | writeBuf (a n : Nat) (bytes : List Nat)
  | readKeys
  deriving DecidableEq, Repr

/-- The source's alias `writeData(a, bytes, n)` of WRITE_BUF (R16, R94). -/
abbrev Instr.writeData (a : Nat) (bytes : List Nat) (n : Nat) : Instr := .writeBuf a n bytes

/-- The source's alias `writeDisplayBuffer(a, bytes, n)` of WRITE_BUF (R94). -/
abbrev Instr.writeDisplayBuffer (a : Nat) (bytes : List Nat) (n : Nat) : Instr := .writeBuf a n bytes

/-- The source's alias `writeDisplayRegister(a, v)` of WRITE_REG (R94). -/
abbrev Instr.writeDisplayRegister (a v : Nat) : Instr := .writeReg a v

/-- The source's alias `getKeys()` of READ_KEYS (R16, R94). -/
abbrev Instr.getKeys : Instr := .readKeys

/-- The source's alias `initialize(on, b)` of INIT (R94). -/
abbrev Instr.initialise (on : Bool) (b : Nat) : Instr := .init on b

/-- `WRITE_BUF a, [d0, d1, ...]` with `n` left out means `n = length(bytes)` (R92). -/
abbrev Instr.writeBufAll (a : Nat) (bytes : List Nat) : Instr := .writeBuf a bytes.length bytes

end Sys2Proof
end

