-- ==== Sys2Proof/Machine/State.lean ====
section
/-! DEFINITION. The state of the machine as plain data, the reasons it stops, and the state after reset. -/

namespace Sys2Proof.Machine

/-! ## Pins, bus actions and the sequencer -/

/-- The direction of a pin (R17, R24). -/
inductive PinMode where
  /-- `Unconf`: never configured. -/
  | unconf
  /-- `Out`: the engine drives the wire with the latch. -/
  | out
  /-- `In`: the engine does not drive the wire. -/
  | inp
  deriving DecidableEq, Repr

/-- `E.pin[p]`: direction (R24) and output level (R25). `none` is the spec's own third level `⊥`. -/
structure PinState where
  mode  : PinMode
  latch : Option Level
  deriving DecidableEq, Repr

/-- The five kinds of bus action (R91). -/
inductive BusAction where
  | cfgOut (p : Pin)
  | cfgIn (p : Pin)
  | wr (p : Pin) (l : Level)
  | rd (p : Pin)
  | delay
  deriving DecidableEq, Repr

/-- The instruction that a bus action is. -/
def BusAction.toInstr : BusAction → Instr
  | .cfgOut p => .cfgOut p
  | .cfgIn p => .cfgIn p
  | .wr p l => .wr p l
  | .rd p => .rd p
  | .delay => .delay

/-- The assignments to the transient datapath that stand between the `emit` lines of the pseudocode of R100, R101,
R117 and R129. -/
inductive Assign where
  /-- `E.tx <- v` and `i <- 0`: WRITE_BYTE(v) begins (R100). -/
  | loadTx (v : Byte)
  /-- `i <- i + 1`: the next turn of `for i in 0 .. 7` (R100, R101). -/
  | nextBit
  /-- `acc <- 0x00` and `i <- 0`: READ_BYTE begins (R101). -/
  | clearAcc
  /-- `acc <- acc | (zext_8(b) << i)` (R101). -/
  | sample
  /-- `kacc <- 0x00000000` and `k <- 0` (R117). -/
  | clearKeys
  /-- `kacc <- kacc | (zext_32(byte) << (8*k))` and `k <- k + 1` (R117). -/
  | foldKey
  /-- `E.rsp_keys <- keys` (R129). -/
  | returnKeys
  deriving DecidableEq, Repr

/-- One entry of `E.seq`: a bus action (R27) with the assignments the pseudocode makes with it (R30; log entry 9). -/
structure Micro where
  act : BusAction
  asg : List Assign
  deriving DecidableEq, Repr

/-! ## Host requests, outcomes and the recorded trace -/

/-- The nine host requests (R87). -/
inductive Request where
  | init (on : Bool) (b : Nat)
  | shutdown
  | displayOn
  | displayOff
  | setBrightness (b : Nat)
  | clear
  | writeReg (a v : Nat)
  | writeBuf (a n : Nat) (bytes : List Nat)
  | readKeys
  deriving DecidableEq, Repr

/-- The instruction that a request is. -/
def Request.toInstr : Request → Instr
  | .init on b => .init on b
  | .shutdown => .shutdown
  | .displayOn => .displayOn
  | .displayOff => .displayOff
  | .setBrightness b => .setBrightness b
  | .clear => .clear
  | .writeReg a v => .writeReg a v
  | .writeBuf a n bytes => .writeBuf a n bytes
  | .readKeys => .readKeys

/-- The strict status (R31, R137). -/
inductive Status where
  | ok
  | invalidAddress
  | invalidBrightness
  deriving DecidableEq, Repr

/-- The two reasons for a drop (R135). -/
inductive DropReason where
  | invalidAddress
  | invalidBrightness
  deriving DecidableEq, Repr

/-- The two reasons for a refusal of a request (R138, R139). -/
inductive RefuseReason where
  | malformed
  | notInitialized
  deriving DecidableEq, Repr

/-- One entry of the record of outcomes and responses (R134, R153). A held request has none until it is processed
(log entry 12). -/
inductive Report where
  /-- The request was accepted (R119). -/
  | accepted (q : Request)
  /-- The request was dropped; under `P_STRICT` with its status (R136). -/
  | dropped (q : Request) (r : DropReason) (status : Option Status)
  /-- The request was refused; reported out of band (R138, R139). -/
  | refused (q : Request) (r : RefuseReason)
  /-- The accepted request completed: its key mask, if it is READ_KEYS, and under `P_STRICT` its status (R90). -/
  | completed (keys : Option (BitVec 32)) (status : Option Status)
  deriving DecidableEq, Repr

/-- One entry of the recorded bus-action trace, with the answer for `RD` (R151, R153). -/
inductive BusEvent where
  | cfgOut (p : Pin)
  | cfgIn (p : Pin)
  | wr (p : Pin) (l : Level)
  | rd (p : Pin) (answer : Level)
  | delay
  deriving DecidableEq, Repr

/-! ## The engine -/

/-- The engine state `E` (R20). -/
structure Engine where
  /-- `E.cfg` (R21). -/
  cfg  : Bool
  /-- `E.en`, displayEnabled: the only flag (R22). -/
  en   : Bool
  /-- `E.bri` (R23). -/
  bri  : BitVec 3
  /-- `E.pin[CLK]`, `E.pin[DIO]`, `E.pin[STB]` (R24, R25). -/
  clk  : PinState
  dio  : PinState
  stb  : PinState
  /-- `E.busy` and `E.seq` (R27). -/
  busy : Bool
  seq  : List Micro
  /-- `E.tx`, `E.i`, `E.acc`, `E.kacc`, `E.k`: the transient datapath (R30); between requests, free values (log entry
  28). -/
  tx   : Byte
  i    : Nat
  acc  : Byte
  kacc : BitVec 32
  k    : Nat
  /-- `E.rsp_keys` and `E.rsp_status` (R31). `none`: a status exists only under `P_STRICT`. -/
  rspKeys   : BitVec 32
  rspStatus : Option Status
  deriving DecidableEq, Repr

/-! ## The reference peer -/

/-- The peer's display registers DSP (R44): the cells that have been written, by rising address. A register with no
cell holds its power-on byte, `Config.freeDisp` (R32, R160; log entry 22). -/
abbrev Memory := List Host.Cell

/-- The canonical form: strictly rising addresses, all of them addresses of DSP, 0x0 to 0xF (R44). -/
abbrev Memory.wf (m : Memory) : Prop :=
  m.Pairwise (fun x y => x.1 < y.1) ∧ ∀ c ∈ m, c.1 < Config.nDisp

/-- `T.key[0..3]`: the four key-scan bytes KEY (R33, R45). -/
structure KeyBytes where
  k0 : Byte
  k1 : Byte
  k2 : Byte
  k3 : Byte
  deriving DecidableEq, Repr

/-- `T.rw` (R34). -/
inductive RwMode where
  | write
  | read
  deriving DecidableEq, Repr

/-- `T.am` (R34). -/
inductive AddrMode where
  | auto
  | fixed
  deriving DecidableEq, Repr

/-- `T.cmd`: the class of the window's command byte (R37). -/
inductive WinCmd where
  | none
  | dataW
  | dataR
  | ctrl
  | addr
  deriving DecidableEq, Repr

/-- The reference peer state `T` (R32 to R39). `T.rw`, `T.am` and `T.ptr` are options because the peer's rules test
for their `⊥` (R64, R65). -/
structure Peer where
  disp   : Memory
  key    : KeyBytes
  rw     : Option RwMode
  am     : Option AddrMode
  ptr    : Option Nat
  on     : Bool
  bri    : BitVec 3
  win    : Bool
  nbytes : Nat
  nbits  : Nat
  sh     : Byte
  cmd    : WinCmd
  tx     : Bool
  kidx   : Nat
  kbit   : Nat
  /-- `T.drive` ∈ {none, 0, 1} (R38). -/
  drive  : Option Level
  /-- `T.undef`: sticky; the reference peer no longer knows what the chip does (R39). -/
  undef  : Bool
  deriving DecidableEq, Repr

/-! ## The machine -/

/-- The three agents (R19) and the record of a run (R153). -/
structure State where
  /-- The parameters, fixed at creation (00_scope.md section 4). -/
  par     : Params
  /-- The engine (R20). -/
  eng     : Engine
  /-- The reference peer (R32 to R39). -/
  peer    : Peer
  /-- The host's requests that have arrived and are not processed yet, oldest first (R140). -/
  pending : List Request
  /-- The outcomes and responses so far, oldest first (R153). -/
  reports : List Report
  /-- The bus actions performed so far, oldest first, with the answers to `RD` (R153). -/
  trace   : List BusEvent
  /-- The environment's input to the peer: the keypad at the next key-bit clocks, oldest first (R33, R66). -/
  keypad  : List KeyBytes
  /-- The model's own: how many free values have been drawn. -/
  drawn   : Nat
  deriving DecidableEq, Repr

/-- The reasons the machine stops with a fault. -/
inductive Fault where
  /-- Raised by `step` alone, in a state with `E.busy = 1` and an empty `E.seq`: there R29's requirement
  `E.seq = A :: rest` fails and R27 says the state cannot arise. Safe: the machine stops. -/
  | sequencerEmpty
  deriving DecidableEq, Repr

/-- The reasons the machine has no meaning for an instruction. -/
inductive Refusal where
  /-- Raised by `exec` alone, for an instruction that has no meaning yet. Safe. No instruction is so refused. -/
  | notModelled (mnemonic : String)
  deriving DecidableEq, Repr

/-! ## Reset -/

/-- The engine when it is created (R155, R156). The spec's values: `E.cfg = 0`, `Unconf` pins with latch `⊥`,
`E.busy = 0`, `E.seq = []`. For the fields it leaves `⊥` the values are a DESIGN CHOICE (log entry 2). -/
def Engine.reset : Engine where
  cfg := false
  en := false
  bri := 0
  clk := ⟨.unconf, none⟩
  dio := ⟨.unconf, none⟩
  stb := ⟨.unconf, none⟩
  busy := false
  seq := []
  tx := 0
  i := 0
  acc := 0
  kacc := 0
  k := 0
  rspKeys := 0
  rspStatus := none

/-- The reference peer at its power-on (R157). The spec's values: `T.disp` any value (no cell: every register reads as
its power-on byte, log entry 22), `T.rw`, `T.am`, `T.ptr` = `⊥`, `T.win = T.tx = 0`, `T.drive = none`, `T.undef = 0`.
For the other fields it leaves `⊥`, the values are a DESIGN CHOICE (log entry 3). -/
def Peer.powerOn : Peer where
  disp := []
  key := ⟨0, 0, 0, 0⟩
  rw := none
  am := none
  ptr := none
  on := false
  bri := 0
  win := false
  nbytes := 0
  nbits := 0
  sh := 0
  cmd := .none
  tx := false
  kidx := 0
  kbit := 0
  drive := none
  undef := false

/-- The machine right after reset: the engine created, the peer powered on (log entry 4: the order of the two), no
request presented, nothing recorded. -/
def State.reset : State where
  par := Params.default
  eng := Engine.reset
  peer := Peer.powerOn
  pending := []
  reports := []
  trace := []
  keypad := []
  drawn := 0

end Sys2Proof.Machine
end

