-- ==== Sys2Proof/Machine/Flags.lean ====
section
/-! DEFINITION. The flags: `E.en`, the engine's only flag; `T.undef`, the peer's sticky flag; the strict status and its codes. -/

namespace Sys2Proof.Machine

/-- `E.en` after a request is accepted (R22): INIT writes its operand, DISPLAY_ON sets it, DISPLAY_OFF clears it, and
no other request writes it. -/
def Request.nextEn (q : Request) (en : Bool) : Bool :=
  match q with
  | .init on _ => on
  | .displayOn => true
  | .displayOff => false
  | _ => en

/-- `T.undef <- 1` (R39): nothing clears it. -/
def Peer.setUndef (t : Peer) : Peer := { t with undef := true }

/-- The strict status of a dropped request (R135, R137). -/
def DropReason.status : DropReason → Status
  | .invalidAddress => .invalidAddress
  | .invalidBrightness => .invalidBrightness

/-- The code of a status (R90): `OK` = 0, `InvalidAddress` = 1, `InvalidBrightness` = 2. -/
def Status.code : Status → Nat
  | .ok => 0
  | .invalidAddress => 1
  | .invalidBrightness => 2

/-- A status exists only when `P_STRICT` is true (R137). -/
def statusIf (par : Params) (st : Status) : Option Status := if par.strict then some st else none

/-- `E.rsp_status` after a response is delivered: the status under `P_STRICT`; otherwise unchanged (R31, R137). -/
def nextStatus (par : Params) (st : Status) (old : Option Status) : Option Status :=
  if par.strict then some st else old

end Sys2Proof.Machine
end

