-- ==== Sys2Proof/WellFormed.lean ====
section
/-! DEFINITION. Which instructions are well-formed: operands inside the widths and domains the spec gives them. -/

namespace Sys2Proof

/-- The class-01 bytes that have a meaning (R60, R81), by their bits 5:3, bit 2 and bits 1:0. -/
def dataByteDefined (lay : DataLayout) (z : BitVec 3) (r : Bool) (m : BitVec 2) : Bool :=
  match lay with
  -- 0x40, 0x41 and 0x44
  | .doc => z == 0 && ((!r && (m == 0 || m == 1)) || (r && m == 0))
  -- 0x40, 0x44 and 0x42
  | .datasheet => z == 0 && ((r && m == 0) || (!r && (m == 0 || m == 2)))

/-- Whether an instruction's operands lie in their domains.
* A reserved row holds only bytes that no other row holds (R86).
* `RD` is of DIO (R98).
* `WRITE_OP` has `1 <= n` and `a + n <= 16` (R116).
* A request's operands fit their widths, and WRITE_BUF has at least `n` bytes (R87, R88). -/
def Instr.wf (lay : DataLayout) : Instr → Bool
  | .cmdWriteAuto => true
  | .cmdReadKeys => true
  | .cmdWriteFixed => true
  | .ctrl _ _ => true
  | .addr _ => true
  | .reservedClass00 _ => true
  | .reservedData z r m => !dataByteDefined lay z r m
  | .reservedCtrlAddr _ z _ => z != 0
  | .payload _ => true
  | .cfgOut _ => true
  | .cfgIn _ => true
  | .wr _ _ => true
  | .rd p => decide (p = .dio)
  | .delay => true
  | .writeByte _ => true
  | .readByte => true
  | .strobeLow => true
  | .strobeHigh => true
  | .writeCommand _ => true
  | .writeOp a d => decide (1 ≤ d.length) && decide (a.toNat + d.length ≤ 16)
  | .readWindow => true
  | .sendCtrl => true
  | .init _ b => decide (b < 8)
  | .shutdown => true
  | .displayOn => true
  | .displayOff => true
  | .setBrightness b => decide (b < 256)
  | .clear => true
  | .writeReg a v => decide (a < 256) && decide (v < 256)
  | .writeBuf a n bytes =>
      decide (a < 256) && decide (n < 256) && bytes.all (fun d => decide (d < 256)) && decide (n ≤ bytes.length)
  | .readKeys => true

end Sys2Proof
end

