-- ==== Sys2Proof/Decode.lean ====
section
/-! DEFINITION. The command bytes: their builders, the decoder (by position in the window) and the encoder. -/

namespace Sys2Proof

/-- Where a byte stands in its window; its meaning comes from its position (R75, R85). -/
inductive BytePos where
  /-- The first byte of a window. -/
  | command
  /-- Any later byte of a window. -/
  | payload
  deriving DecidableEq, Repr

/-- Why the decoder answers no instruction. -/
inductive DecodeError where
  /-- There is no byte to decode: the window is empty (R75: it starts with exactly one command byte). -/
  | noByte
  deriving DecidableEq, Repr

/-! ## Builders -/

/-- `CMD_WRITE_AUTO` (R81): `0x40` under both layouts. -/
def cmdWriteAutoByte : DataLayout → Byte
  | .doc => 0x40#8
  | .datasheet => 0x40#8

/-- `CMD_WRITE_FIXED` (R81). -/
def cmdWriteFixedByte : DataLayout → Byte
  | .doc => 0x41#8
  | .datasheet => 0x44#8

/-- `CMD_READ_KEYS` (R81). -/
def cmdReadKeysByte : DataLayout → Byte
  | .doc => 0x44#8
  | .datasheet => 0x42#8

/-- `CTRL(e, b) = 0x80 | (zext_8(e) << 3) | zext_8(b)` (R111). -/
def ctrlByte (e : Bool) (b : BitVec 3) : Byte :=
  0x80#8 ||| ((BitVec.ofBool e).setWidth 8 <<< 3) ||| b.setWidth 8

/-- `ADDR(a) = 0xC0 | a[3:0]` (R112). -/
def addrByte (a : BitVec 4) : Byte := 0xC0#8 ||| a.setWidth 8

/-! ## Decoder -/

/-- A class-01 byte from its bits 5:3, bit 2 and bits 1:0, under each layout (R60, R77). -/
def decodeData (lay : DataLayout) (z : BitVec 3) (r : Bool) (m : BitVec 2) : Instr :=
  match lay with
  | .doc =>
    if z = 0 ∧ r = false ∧ m = 0 then .cmdWriteAuto
    else if z = 0 ∧ r = false ∧ m = 1 then .cmdWriteFixed
    else if z = 0 ∧ r = true ∧ m = 0 then .cmdReadKeys
    else .reservedData z r m
  | .datasheet =>
    if z = 0 ∧ r = false ∧ m = 0 then .cmdWriteAuto
    else if z = 0 ∧ r = true ∧ m = 0 then .cmdWriteFixed
    else if z = 0 ∧ r = false ∧ m = 2 then .cmdReadKeys
    else .reservedData z r m

/-- A command byte by its class, bits 7:6 (R59, R76). Every byte has a row: bytes with no meaning are the
reserved rows (R86). -/
def decodeCommand (lay : DataLayout) (c : Byte) : Instr :=
  match c.getLsbD 7, c.getLsbD 6 with
  | false, false => .reservedClass00 (c.extractLsb' 0 6)
  | false, true => decodeData lay (c.extractLsb' 3 3) (c.getLsbD 2) (c.extractLsb' 0 2)
  | true, x =>
    if c.extractLsb' 4 2 = 0 then
      if x then .addr (c.extractLsb' 0 4) else .ctrl (c.getLsbD 3) (c.extractLsb' 0 3)
    else .reservedCtrlAddr x (c.extractLsb' 4 2) (c.extractLsb' 0 4)

/-- A byte by its position (R75, R83, R85). -/
def decodeByte (lay : DataLayout) : BytePos → Byte → Instr
  | .command, c => decodeCommand lay c
  | .payload, d => .payload d

/-- The next instruction of a stream of bytes at a position, and the rest of the stream. -/
def decode (lay : DataLayout) (pos : BytePos) : List Byte → Except DecodeError (Instr × List Byte)
  | [] => .error .noByte
  | b :: bs => .ok (decodeByte lay pos b, bs)

/-- The bytes of one write window: a command byte, then payload bytes (R75, R84). -/
def decodeWindow (lay : DataLayout) : List Byte → Except DecodeError (List Instr)
  | [] => .error .noByte
  | c :: ds => .ok (decodeCommand lay c :: ds.map Instr.payload)

/-! ## Encoder -/

/-- The position at which an instruction's byte stands; `none` for the rows that are not bytes (D2: bus actions,
procedures and requests are typed records with no bit pattern). -/
def Instr.pos : Instr → Option BytePos
  | .cmdWriteAuto | .cmdReadKeys | .cmdWriteFixed | .ctrl _ _ | .addr _ => some .command
  | .reservedClass00 _ | .reservedData _ _ _ | .reservedCtrlAddr _ _ _ => some .command
  | .payload _ => some .payload
  | _ => none

/-- The byte of an instruction that has one (R76 to R81, R83, R86). -/
def encode (lay : DataLayout) : Instr → Option Byte
  | .cmdWriteAuto => some (cmdWriteAutoByte lay)
  | .cmdReadKeys => some (cmdReadKeysByte lay)
  | .cmdWriteFixed => some (cmdWriteFixedByte lay)
  | .ctrl e b => some (ctrlByte e b)
  | .addr a => some (addrByte a)
  | .reservedClass00 x => some ((0#2 ++ x).cast (by decide))
  | .reservedData z r m => some ((1#2 ++ z ++ BitVec.ofBool r ++ m).cast (by decide))
  | .reservedCtrlAddr x z low => some ((1#1 ++ BitVec.ofBool x ++ z ++ low).cast (by decide))
  | .payload d => some d
  | _ => none

/-- What the decoder reads from a word of the opcode table (`DOC`, the table's own layout). Every row with bits is
one byte, read at the command position: a payload byte cannot be told from a command byte by its bits (R85; log
entry 21). -/
def decodeTableWord (nbits w : Nat) : Option Instr :=
  if nbits = 8 then
    match decode .doc .command [BitVec.ofNat 8 w] with
    | .ok (i, _) => some i
    | .error _ => none
  else none

end Sys2Proof
end

