-- ==== Sys2Proof/Machine/Operands.lean ====
section
/-! DEFINITION. Operand forms: the bits of a byte, the key bytes and the key mask, and the checks on a request's operands. -/

namespace Sys2Proof.Machine

/-- `zext_8(b) << i` (R101): the bit `b` at place `i` of a byte. -/
def bitAt (b : Level) (i : Nat) : Byte := (BitVec.ofBool b).setWidth 8 <<< i

/-- `zext_32(byte) << (8*k)` (R117): the byte at place `k` of the key mask. -/
def byteAt (v : Byte) (k : Nat) : BitVec 32 := v.setWidth 32 <<< (8 * k)

/-- `MemRead(KEY:k, 1)` (R10, R45): key-scan byte `k`. Only `k` = 0..3 are addresses of KEY; the peer checks `k`
before it reads (R66). -/
def KeyBytes.get (ks : KeyBytes) : Nat → Byte
  | 0 => ks.k0
  | 1 => ks.k1
  | 2 => ks.k2
  | _ => ks.k3

/-- The key mask of four bytes (R45): little-endian, byte 0 in bits 7:0. -/
def keyMask (b0 b1 b2 b3 : Byte) : BitVec 32 :=
  b0.setWidth 32 ||| (b1.setWidth 32 <<< 8) ||| (b2.setWidth 32 <<< 16) ||| (b3.setWidth 32 <<< 24)

/-- A single-register write is valid exactly when `a <= 15` (R50). -/
def regAddrValid (a : Nat) : Bool := decide (a ≤ 15)

/-- A buffer write is valid exactly when `n >= 1` and `a + n <= 16`, in the naturals (R51). -/
def bufRangeValid (a n : Nat) : Bool := decide (1 ≤ n) && decide (a + n ≤ 16)

/-- A brightness is valid exactly when it is at most 7 (R125). -/
def brightnessValid (b : Nat) : Bool := decide (b ≤ 7)

/-- A request is well-formed (R88): every operand fits its width (R87, R89), and WRITE_BUF has at least `n` bytes. -/
def Request.wellFormed : Request → Bool
  | .init _ b => decide (b < 8)
  | .shutdown => true
  | .displayOn => true
  | .displayOff => true
  | .setBrightness b => decide (b < 256)
  | .clear => true
  | .writeReg a v => decide (a < 256) && decide (v < 256)
  | .writeBuf a n bytes =>
    decide (a < 256) && decide (n < 256) && bytes.all (fun d => decide (d < 256)) && decide (n ≤ bytes.length)
  | .readKeys => true

/-- The requests that are processed while `E.cfg = 0` (R119, R138). -/
def Request.needsNoInit : Request → Bool
  | .init _ _ => true
  | .shutdown => true
  | _ => false

/-- The drop condition of a request and its reason (R135). -/
def Request.dropReason : Request → Option DropReason
  | .setBrightness b => if brightnessValid b then none else some .invalidBrightness
  | .writeReg a _ => if regAddrValid a then none else some .invalidAddress
  | .writeBuf a n _ => if bufRangeValid a n then none else some .invalidAddress
  | _ => none

/-- `bytes[0..n-1]` of WRITE_BUF as bytes; any further elements are ignored (R128). -/
def bufBytes (n : Nat) (bytes : List Nat) : List Byte := (bytes.take n).map (BitVec.ofNat 8)

end Sys2Proof.Machine
end

