-- ==== Sys2Proof/Machine/Peer.lean ====
section
/-! DEFINITION. The reference peer (20_memory.md section 4): the display registers, the effect of each byte, and the reactions to edges. -/

namespace Sys2Proof.Machine

/-! ## The display registers DSP -/

/-- The byte of a display register: what was last written to it, or its power-on byte (R32, R157, R160). -/
def Memory.read : Memory → Nat → Byte
  | [], a => Config.freeDisp a
  | (x, w) :: rest, a => if x = a then w else Memory.read rest a

/-- `MemWrite(DSP:a, 1, v)` (R10): write one byte, keeping the cells in rising order. -/
def Memory.write : Memory → Nat → Byte → Memory
  | [], a, v => [(a, v)]
  | (x, w) :: rest, a, v =>
    if a < x then (a, v) :: (x, w) :: rest
    else if a = x then (a, v) :: rest
    else (x, w) :: Memory.write rest a v

/-! ## The effect of a command byte (R59 to R63) -/

/-- The data command that writes display data (R60): `T.rw <- Write`, `T.am`, `T.cmd <- DATA_W`. -/
def Peer.setWrite (am : AddrMode) (t : Peer) : Peer :=
  { t with rw := some .write, am := some am, cmd := .dataW }

/-- The data command that reads key data (R60): the peer transmits for the rest of the window. -/
def Peer.setReadKeys (t : Peer) : Peer :=
  { t with rw := some .read, am := some .auto, cmd := .dataR, tx := true, kidx := 0, kbit := 0 }

/-- The display-control command (R61). -/
def Peer.setCtrl (e : Bool) (b : BitVec 3) (t : Peer) : Peer :=
  { t with on := e, bri := b, cmd := .ctrl }

/-- The address command (R62). -/
def Peer.setAddr (a : BitVec 4) (t : Peer) : Peer :=
  { t with ptr := some a.toNat, cmd := .addr }

/-! ## The effect of a payload byte (R64, R65) -/

/-- The display register a payload byte is stored to (R64): the pointer, when the window's command was an address
command, the peer is in write mode, the addressing mode is known and the pointer is in range. -/
def Peer.storeAddr (t : Peer) : Option Nat :=
  match t.cmd, t.rw, t.am, t.ptr with
  | .addr, some .write, some _, some p => if p ≤ 15 then some p else none
  | _, _, _, _ => none

/-- The pointer after a payload byte stored at `p` (R64): it advances in `Auto` mode only. -/
def Peer.nextPtr (t : Peer) (p : Nat) : Option Nat :=
  if t.am = some .auto then some (p + 1) else t.ptr

/-- A payload byte is written at its address (R64); in any other case it sets `T.undef` (R65). -/
def Peer.payload (d : Byte) (t : Peer) : Peer :=
  match t.storeAddr with
  | some p => { t with disp := t.disp.write p d, ptr := t.nextPtr p }
  | none => t.setUndef

/-- The effect on the peer of a complete byte, by the instruction the decoder reads in it (R59, R64). The reserved rows
set `T.undef` (R60 to R63); so would an instruction that is no byte, which the decoder never reads (R70). -/
def Peer.runByte (i : Instr) (t : Peer) : Peer :=
  match i with
  | .cmdWriteAuto => t.setWrite .auto
  | .cmdWriteFixed => t.setWrite .fixed
  | .cmdReadKeys => t.setReadKeys
  | .ctrl e b => t.setCtrl e b
  | .addr a => t.setAddr a
  | .payload d => t.payload d
  | _ => t.setUndef

/-- The first complete byte of a window is its command byte (R59, R75). -/
def Peer.bytePos (t : Peer) : BytePos := if t.nbytes = 0 then .command else .payload

/-- The byte in `T.sh` is complete (R58): it is decoded and has its effect, and the next byte begins, also after a
byte with no meaning (log entry 10). -/
def Peer.byteDone (lay : DataLayout) (t : Peer) : Peer :=
  let t1 := t.runByte (decodeByte lay t.bytePos t.sh)
  { t1 with nbytes := t.nbytes + 1, nbits := 0, sh := 0 }

/-! ## The reactions to edges (R56 to R58, R66, R67) -/

/-- A change of a wire as the peer sees it (R56). -/
inductive WireChange where
  /-- No change of level. -/
  | none
  /-- From 0 to 1. -/
  | rise
  /-- From 1 to 0. -/
  | fall
  /-- From or to `⊥`: not an edge. -/
  | blur
  deriving DecidableEq, Repr

/-- The change between two levels (R56). -/
def wireChange : Option Level → Option Level → WireChange
  | .some false, .some true => .rise
  | .some true, .some false => .fall
  | .some false, .some false => .none
  | .some true, .some true => .none
  | .none, .none => .none
  | .none, .some _ => .blur
  | .some _, .none => .blur

/-- A fall of STB opens a window (R57) and overwrites every window field (R37); R57 gives `T.kidx` and `T.kbit` no
value, and 0 is the model's (log entry 26). -/
def Peer.openWindow (t : Peer) : Peer :=
  { t with
    win := true, nbytes := 0, nbits := 0, sh := 0, cmd := .none, tx := false, kidx := 0, kbit := 0, drive := none }

/-- A rise of STB closes the window; a partial byte sets `T.undef` (R67). -/
def Peer.closeWindow (t : Peer) : Peer :=
  { t with win := false, tx := false, drive := none, undef := t.undef || t.nbits != 0 }

/-- The peer's reaction to STB (R56, R57, R67): a fall inside a window sets `T.undef`, a rise outside one has no
effect, and a change from or to `⊥` inside a window sets `T.undef`. -/
def Peer.onStb (c : WireChange) (t : Peer) : Peer :=
  match c with
  | .fall => if t.win then t.setUndef else t.openWindow
  | .rise => if t.win then t.closeWindow else t
  | .blur => if t.win then t.setUndef else t
  | .none => t

/-- A rise of CLK while receiving shifts in one bit, least significant first (R58). -/
def Peer.shiftIn (lay : DataLayout) (dio : Option Level) (t : Peer) : Peer :=
  match dio with
  | none => t.setUndef
  | some d =>
    let t1 := { t with sh := t.sh ||| bitAt d t.nbits, nbits := t.nbits + 1 }
    if t1.nbits = 8 then t1.byteDone lay else t1

/-- A rise of CLK while transmitting releases DIO and moves to the next key bit (R66). -/
def Peer.releaseKey (t : Peer) : Peer :=
  if t.kbit + 1 = 8 then { t with drive := none, kbit := 0, kidx := t.kidx + 1 }
  else { t with drive := none, kbit := t.kbit + 1 }

/-- A fall of CLK while transmitting drives one bit of the keypad `ks` as it is now (R33, R66). -/
def Peer.driveKey (ks : KeyBytes) (t : Peer) : Peer :=
  { t with key := ks, drive := some ((ks.get t.kidx).getLsbD t.kbit) }

end Sys2Proof.Machine
end

