-- ==== Sys2Proof/Machine/Ops.lean ====
section
/-! DEFINITION. The named operations: the parts of the state, the wires, draws, one bus action with the peer's reaction to it, and the outcomes of a request. -/

namespace Sys2Proof.Machine

/-! ## The parts of the state -/

def State.setEng (s : State) (e : Engine) : State := { s with eng := e }
def State.setPeer (s : State) (t : Peer) : State := { s with peer := t }
def State.setPending (s : State) (qs : List Request) : State := { s with pending := qs }

/-- Record an outcome or a response (R153). -/
def State.report (s : State) (r : Report) : State := { s with reports := s.reports ++ [r] }

/-- Record a bus action (R151, R153). -/
def State.record (s : State) (e : BusEvent) : State := { s with trace := s.trace ++ [e] }

/-- `E.pin[p]` (R20). -/
def Engine.pin (e : Engine) : Pin → PinState
  | .clk => e.clk
  | .dio => e.dio
  | .stb => e.stb

/-- Write `E.pin[p]`. -/
def Engine.setPin (e : Engine) (p : Pin) (q : PinState) : Engine :=
  match p with
  | .clk => { e with clk := q }
  | .dio => { e with dio := q }
  | .stb => { e with stb := q }

/-! ## Draws -/

/-- A draw of the level of a wire at `⊥` (R26, R98). -/
def State.drawBit (s : State) : Level × State :=
  (Config.freeBit s.drawn, { s with drawn := s.drawn + 1 })

/-- The keypad at a key-bit clock: what the environment presents next, or, when it has presented nothing, a draw
(R33, R66). -/
def State.drawKeys (s : State) : KeyBytes × State :=
  match s.keypad with
  | ks :: rest => (ks, { s with keypad := rest })
  | [] =>
    (⟨Config.freeKey s.drawn 0, Config.freeKey s.drawn 1, Config.freeKey s.drawn 2, Config.freeKey s.drawn 3⟩,
      { s with drawn := s.drawn + 1 })

/-- The transient datapath at `⊥` (R30): the `n`-th free values. -/
def Engine.freeDatapath (e : Engine) (n : Nat) : Engine :=
  { e with
    tx := Config.freeTx n
    i := (Config.freeI n).val
    acc := Config.freeAcc n
    kacc := Config.freeKacc n
    k := (Config.freeK n).val }

/-- The request in progress ends: the transient datapath exists no more, and each of its registers is a draw (R9, R30;
log entry 28). -/
def State.endDatapath (s : State) : State := { s with eng := s.eng.freeDatapath s.drawn, drawn := s.drawn + 1 }

/-! ## Wires -/

/-- `peer_drives(p)`: only DIO can be driven by the peer (R26). -/
def peerDrives (t : Peer) : Pin → Bool
  | .dio => t.drive.isSome
  | .clk => false
  | .stb => false

/-- `level(p)` (R26); `none` is `⊥`. -/
def level (s : State) (p : Pin) : Option Level :=
  if (s.eng.pin p).mode = .out then
    if peerDrives s.peer p then none else (s.eng.pin p).latch
  else
    if peerDrives s.peer p then s.peer.drive else none

/-- Contention on DIO (R68): the engine and the peer both drive it. -/
def contention (s : State) : Bool := decide (s.eng.dio.mode = .out) && s.peer.drive.isSome

/-! ## The peer between engine micro-steps -/

/-- The peer's reaction to CLK (R56, R58, R66, R70). An edge while no window is open sets `T.undef`; so does a change
from or to `⊥` inside a window, and the clock of a fifth key byte. -/
def reactClk (c : WireChange) (s : State) : State :=
  match c with
  | .none => s
  | .blur => if s.peer.win then s.setPeer s.peer.setUndef else s
  | .rise =>
    if s.peer.win then
      if s.peer.tx then s.setPeer s.peer.releaseKey
      else s.setPeer (s.peer.shiftIn s.par.layout (level s .dio))
    else s.setPeer s.peer.setUndef
  | .fall =>
    if s.peer.win then
      if s.peer.tx then
        if 4 ≤ s.peer.kidx then s.setPeer s.peer.setUndef
        else s.drawKeys.2.setPeer (s.peer.driveKey s.drawKeys.1)
      else s
    else s.setPeer s.peer.setUndef

/-- The peer's reaction to STB. -/
def reactStb (c : WireChange) (s : State) : State := s.setPeer (s.peer.onStb c)

/-- Contention sets `T.undef` (R68); noticed after every action on a pin (log entry 11). -/
def flagContention (s : State) : State := if contention s then s.setPeer s.peer.setUndef else s

/-- The peer's reaction to an engine micro-step that took the wires from their levels in `old` to those in `new`
(R56, R68), in the same step (log entry 8). -/
def react (old new : State) : State :=
  flagContention
    (reactClk (wireChange (level old .clk) (level new .clk))
      (reactStb (wireChange (level old .stb) (level new .stb)) new))

/-! ## Bus actions (R95 to R99) -/

/-- Set pin `p` to `q`, record the action, and let the peer react. -/
def actOnPin (p : Pin) (q : PinState) (ev : BusEvent) (s : State) : State :=
  react s ((s.setEng (s.eng.setPin p q)).record ev)

/-- `CFG_OUT(p)` (R95): `E.pin[p].mode <- Out`; the latch keeps its value. -/
def doCfgOut (p : Pin) (s : State) : State :=
  actOnPin p { mode := .out, latch := (s.eng.pin p).latch } (.cfgOut p) s

/-- `CFG_IN(p)` (R96): `E.pin[p].mode <- In` and `E.pin[p].latch <- ⊥`. -/
def doCfgIn (p : Pin) (s : State) : State :=
  actOnPin p { mode := .inp, latch := none } (.cfgIn p) s

/-- `WR(p, l)` (R97): `E.pin[p].latch <- l`, in every mode. -/
def doWr (p : Pin) (l : Level) (s : State) : State :=
  actOnPin p { mode := (s.eng.pin p).mode, latch := some l } (.wr p l) s

/-- The answer of `RD(p)` (R98): the level of the wire, or a draw when it is `⊥`; and the state after the draw. -/
def sampleWire (p : Pin) (s : State) : Level × State :=
  match level s p with
  | some b => (b, s)
  | none => s.drawBit

/-- `RD(p)` (R98): the answer is recorded with the action (R153). -/
def doRd (p : Pin) (s : State) : State := (sampleWire p s).2.record (.rd p (sampleWire p s).1)

/-- `DELAY` (R99): no state change; the action is still in the trace. -/
def doDelay (s : State) : State := s.record .delay

/-- Perform one bus action (R148). -/
def performAct : BusAction → State → State
  | .cfgOut p => doCfgOut p
  | .cfgIn p => doCfgIn p
  | .wr p l => doWr p l
  | .rd p => doRd p
  | .delay => doDelay

/-! ## The sequencer's entries (R27, R29, R30) -/

/-- `b` of `b <- RD(DIO)` (R10, R101): the answer of the bus action just performed, the last of the trace; `none` when
that action is no `RD` (log entry 27). -/
def lastAnswer (tr : List BusEvent) : Option Level :=
  match tr.getLast? with
  | some (.rd _ b) => some b
  | _ => none

/-- One assignment of the pseudocode to the transient datapath and the response, where `b` is the answer of the bus
action it goes with (R100, R101, R117, R129). -/
def Assign.apply (b : Option Level) (e : Engine) : Assign → Engine
  | .loadTx v => { e with tx := v, i := 0 }
  | .nextBit => { e with i := e.i + 1 }
  | .clearAcc => { e with acc := 0, i := 0 }
  | .sample =>
    match b with
    | some d => { e with acc := e.acc ||| bitAt d e.i }
    | none => e
  | .clearKeys => { e with kacc := 0, k := 0 }
  | .foldKey => { e with kacc := e.kacc ||| byteAt e.acc e.k, k := e.k + 1 }
  | .returnKeys => { e with rspKeys := e.kacc }

/-- The assignments that go with one bus action, in order; `b` is its answer. -/
def Engine.assign (e : Engine) (b : Option Level) (as : List Assign) : Engine := as.foldl (Assign.apply b) e

/-- Perform one entry: its action, then its assignments. -/
def performMicro (m : Micro) (s : State) : State :=
  let t := performAct m.act s
  t.setEng (t.eng.assign (lastAnswer t.trace) m.asg)

/-- Perform a list of entries in exactly its order (R72, R163). -/
def runMicros (ms : List Micro) (s : State) : State := ms.foldl (fun t m => performMicro m t) s

/-- Deliver the response of the request whose last entry was `m` (R29, R90, R137); its datapath ends with it (R30). -/
def completeRequest (m : Micro) (s : State) : State :=
  (s.endDatapath.setEng { s.endDatapath.eng with busy := false, rspStatus := nextStatus s.par .ok s.eng.rspStatus }).report
    (.completed (if Assign.returnKeys ∈ m.asg then some s.eng.rspKeys else none) (statusIf s.par .ok))

/-- What follows the bus action of the entry `m` in an engine micro-step (R29): its assignments, then
`E.seq <- rest`, and the completion of the request when nothing is left. -/
def finishMicro (m : Micro) (rest : List Micro) (s : State) : State :=
  let t := s.setEng { s.eng.assign (lastAnswer s.trace) m.asg with seq := rest }
  if rest = [] then completeRequest m t else t

/-! ## The outcomes of a request other than acceptance (R134)

The hardware has no exception, trap or interrupt (R134, R143 to R145): these three take their place. -/

/-- Held (R140): the request waits behind those that arrived before it; nothing else changes. -/
def holdRequest (q : Request) (s : State) : State := s.setPending (s.pending ++ [q])

/-- Refused (R138, R139): no action and no state change; the reason is reported out of band. -/
def refuseRequest (q : Request) (r : RefuseReason) (s : State) : State := s.report (.refused q r)

/-- Dropped (R136): no action and no state change; under `P_STRICT` the status is delivered at once (R137). -/
def dropRequest (q : Request) (r : DropReason) (s : State) : State :=
  (s.setEng { s.eng with rspStatus := nextStatus s.par r.status s.eng.rspStatus }).report
    (.dropped q r (statusIf s.par r.status))

end Sys2Proof.Machine
end

