-- ==== Sys2Proof/Machine/BusActions.lean ====
section
/-! DEFINITION. The meanings of the five bus actions (R95 to R99), each with the peer's reaction to it. -/

namespace Sys2Proof.Machine

/-- `CFG_OUT(p)` (R95). -/
def execCfgOut (p : Pin) (s : State) : Host.Outcome State Fault Refusal := .next (doCfgOut p s)

/-- `CFG_IN(p)` (R96). -/
def execCfgIn (p : Pin) (s : State) : Host.Outcome State Fault Refusal := .next (doCfgIn p s)

/-- `WR(p, l)` (R97). -/
def execWr (p : Pin) (l : Level) (s : State) : Host.Outcome State Fault Refusal := .next (doWr p l s)

/-- `RD(p)` (R98), for every pin (log entry 17). -/
def execRd (p : Pin) (s : State) : Host.Outcome State Fault Refusal := .next (doRd p s)

/-- `DELAY` (R99). -/
def execDelay (s : State) : Host.Outcome State Fault Refusal := .next (doDelay s)

end Sys2Proof.Machine
end

