-- ==== Sys2Proof/Machine/CommandBytes.lean ====
section
/-! DEFINITION. The meanings of the byte rows of the opcode table: what the peer does when it has received that byte.
The machine runs them from the eighth rising edge of CLK in a byte (R58: `Peer.byteDone`). -/

namespace Sys2Proof.Machine

/-- `CMD_WRITE_AUTO` (R60, R113): write mode, auto-increment addressing. -/
def execCmdWriteAuto (s : State) : Host.Outcome State Fault Refusal :=
  .next (s.setPeer (s.peer.setWrite .auto))

/-- `CMD_READ_KEYS` (R60, R114): read mode; the peer transmits for the rest of the window. -/
def execCmdReadKeys (s : State) : Host.Outcome State Fault Refusal :=
  .next (s.setPeer s.peer.setReadKeys)

/-- `CMD_WRITE_FIXED` (R60, R115): write mode, fixed addressing. -/
def execCmdWriteFixed (s : State) : Host.Outcome State Fault Refusal :=
  .next (s.setPeer (s.peer.setWrite .fixed))

/-- `CTRL(e, b)` (R61): display on or off, and brightness. -/
def execCtrl (e : Bool) (b : BitVec 3) (s : State) : Host.Outcome State Fault Refusal :=
  .next (s.setPeer (s.peer.setCtrl e b))

/-- `ADDR(a)` (R62): the write pointer. -/
def execAddr (a : BitVec 4) (s : State) : Host.Outcome State Fault Refusal :=
  .next (s.setPeer (s.peer.setAddr a))

/-- A class-00 command byte (R63): `T.undef <- 1`. -/
def execReservedClass00 (_x : BitVec 6) (s : State) : Host.Outcome State Fault Refusal :=
  .next (s.setPeer s.peer.setUndef)

/-- A class-01 byte with no meaning (R60): `T.undef <- 1`. -/
def execReservedData (_z : BitVec 3) (_r : Bool) (_m : BitVec 2) (s : State) : Host.Outcome State Fault Refusal :=
  .next (s.setPeer s.peer.setUndef)

/-- A class-10 or class-11 byte with bits 5:4 not 00 (R61, R62): `T.undef <- 1`. -/
def execReservedCtrlAddr (_x : Bool) (_z : BitVec 2) (_low : BitVec 4) (s : State) :
    Host.Outcome State Fault Refusal :=
  .next (s.setPeer s.peer.setUndef)

/-- A payload byte (R64, R65). -/
def execPayload (d : Byte) (s : State) : Host.Outcome State Fault Refusal :=
  .next (s.setPeer (s.peer.payload d))

end Sys2Proof.Machine
end

