-- ==== Sys2Proof/Machine/Procedures.lean ====
section
/-! DEFINITION. The procedures of the transceiver and of command framing: the entries each one inlines (R11), and the meaning of each as an instruction: all of them, in order. -/

namespace Sys2Proof.Machine

/-- An entry with a bus action and no assignment. -/
def emit (a : BusAction) : Micro := { act := a, asg := [] }

/-! ## The entries -/

/-- The write cycle of bit `i` of `v` (R100, R104). -/
def writeCycle (v : Byte) (i : Nat) : List Micro :=
  [ { act := .wr .clk false, asg := if i = 0 then [.loadTx v] else [] },
    emit .delay,
    emit (.wr .dio (v.getLsbD i)),
    emit (.wr .clk true),
    { act := .delay, asg := [.nextBit] } ]

/-- `WRITE_BYTE(v)` (R100): bit 0 first. -/
def writeByteSeq (v : Byte) : List Micro := (List.range 8).flatMap (writeCycle v)

/-- One read cycle (R101, R104). -/
def readCycle : List Micro :=
  [ emit (.wr .clk false),
    emit .delay,
    { act := .rd .dio, asg := [.sample] },
    emit (.wr .clk true),
    { act := .delay, asg := [.nextBit] } ]

/-- `READ_BYTE()` (R101), with the assignments its caller makes before it and with its result. -/
def readByteSeq (before after : List Assign) : List Micro :=
  { act := .cfgIn .dio, asg := before ++ [.clearAcc] } ::
    ((List.range 8).flatMap (fun _ => readCycle) ++ [{ act := .cfgOut .dio, asg := after }])

/-- `STROBE_LOW()` (R107). -/
def strobeLowSeq : List Micro := [emit (.wr .stb false)]

/-- `STROBE_HIGH()` (R108), with the assignments its caller makes at the end of the window. -/
def strobeHighSeq (after : List Assign) : List Micro := [{ act := .wr .stb true, asg := after }]

/-- `WRITE_COMMAND(c)` (R109). -/
def writeCommandSeq (c : Byte) : List Micro := strobeLowSeq ++ writeByteSeq c ++ strobeHighSeq []

/-- `WRITE_OP(a, d)` (R116): the write-mode window, then the write window. -/
def writeOpSeq (lay : DataLayout) (a : Byte) (d : List Byte) : List Micro :=
  writeCommandSeq (cmdWriteAutoByte lay) ++
    (strobeLowSeq ++ writeByteSeq (addrByte (a.extractLsb' 0 4)) ++ d.flatMap writeByteSeq ++ strobeHighSeq [])

/-- `READ_WINDOW()` (R117), with the assignments its caller makes with its result. -/
def readWindowSeq (lay : DataLayout) (after : List Assign) : List Micro :=
  strobeLowSeq ++ writeByteSeq (cmdReadKeysByte lay) ++ readByteSeq [.clearKeys] [.foldKey] ++
    readByteSeq [] [.foldKey] ++ readByteSeq [] [.foldKey] ++ readByteSeq [] [.foldKey] ++ strobeHighSeq after

/-- `SEND_CTRL()` (R118): it reads `E.en` and `E.bri`. -/
def sendCtrlSeq (e : Engine) : List Micro := writeCommandSeq (ctrlByte e.en e.bri)

/-! ## The meanings

Each performs all its actions in one `exec`, from any state (log entry 16). -/

/-- `WRITE_BYTE(v)` (R100). -/
def execWriteByte (v : Byte) (s : State) : Host.Outcome State Fault Refusal := .next (runMicros (writeByteSeq v) s)

/-- `READ_BYTE()` (R101): its result is in `E.acc`. -/
def execReadByte (s : State) : Host.Outcome State Fault Refusal := .next (runMicros (readByteSeq [] []) s)

/-- `STROBE_LOW()` (R107). -/
def execStrobeLow (s : State) : Host.Outcome State Fault Refusal := .next (runMicros strobeLowSeq s)

/-- `STROBE_HIGH()` (R108). -/
def execStrobeHigh (s : State) : Host.Outcome State Fault Refusal := .next (runMicros (strobeHighSeq []) s)

/-- `WRITE_COMMAND(c)` (R109). -/
def execWriteCommand (c : Byte) (s : State) : Host.Outcome State Fault Refusal :=
  .next (runMicros (writeCommandSeq c) s)

/-- `WRITE_OP(a, d)` (R116). -/
def execWriteOp (a : Byte) (d : List Byte) (s : State) : Host.Outcome State Fault Refusal :=
  .next (runMicros (writeOpSeq s.par.layout a d) s)

/-- `READ_WINDOW()` (R117): its result is in `E.kacc`. -/
def execReadWindow (s : State) : Host.Outcome State Fault Refusal :=
  .next (runMicros (readWindowSeq s.par.layout []) s)

/-- `SEND_CTRL()` (R118). -/
def execSendCtrl (s : State) : Host.Outcome State Fault Refusal := .next (runMicros (sendCtrlSeq s.eng) s)

end Sys2Proof.Machine
end

