-- ==== Sys2Proof/Machine/Requests.lean ====
section
/-! DEFINITION. The host requests (42_operations.md): the state updates and the expansion of each, the acceptance procedure of R119, and the meaning of each request. -/

namespace Sys2Proof.Machine

/-! ## State updates at acceptance (R120) -/

/-- `E.cfg` after a request is accepted (R21). -/
def Request.nextCfg (q : Request) (cfg : Bool) : Bool :=
  match q with
  | .init _ _ => true
  | .shutdown => false
  | _ => cfg

/-- `E.bri` after a request is accepted (R23): INIT and SET_BRIGHTNESS write it. -/
def Request.nextBri (q : Request) (bri : BitVec 3) : BitVec 3 :=
  match q with
  | .init _ b => BitVec.ofNat 3 b
  | .setBrightness b => BitVec.ofNat 3 b
  | _ => bri

/-- The updates of an accepted request (R120 to R129). -/
def Request.update (q : Request) (e : Engine) : Engine :=
  { e with cfg := q.nextCfg e.cfg, en := q.nextEn e.en, bri := q.nextBri e.bri }

/-! ## Expansions, from the updated state (R12, R120) -/

/-- INIT (R121): preset the levels, configure the pins, send the display-control command. -/
def initSeq (e : Engine) : List Micro :=
  [ emit (.wr .stb true), emit (.wr .clk true), emit (.cfgOut .clk), emit (.cfgOut .dio), emit (.cfgOut .stb) ] ++
    sendCtrlSeq e

/-- SHUTDOWN (R122): release the three pins, each input then low. -/
def shutdownSeq : List Micro :=
  [ emit (.cfgIn .clk), emit (.wr .clk false), emit (.cfgIn .dio), emit (.wr .dio false), emit (.cfgIn .stb),
    emit (.wr .stb false) ]

/-- CLEAR (R126): 0x00 to all 16 display registers. -/
def clearSeq (lay : DataLayout) : List Micro := writeOpSeq lay 0x00#8 (List.replicate Config.nDisp 0x00#8)

/-- WRITE_REG(a, v) (R127). -/
def writeRegSeq (lay : DataLayout) (a v : Nat) : List Micro :=
  writeOpSeq lay (BitVec.ofNat 8 a) [BitVec.ofNat 8 v]

/-- WRITE_BUF(a, n, bytes) (R128). -/
def writeBufSeq (lay : DataLayout) (a n : Nat) (bytes : List Nat) : List Micro :=
  writeOpSeq lay (BitVec.ofNat 8 a) (bufBytes n bytes)

/-- READ_KEYS (R129): the key mask becomes the response. -/
def readKeysSeq (lay : DataLayout) : List Micro := readWindowSeq lay [.returnKeys]

/-- The expansion of a request (R12): a function of its operands, of `E.en` and `E.bri`, and of the parameters. -/
def Request.expansion (lay : DataLayout) (e : Engine) : Request → List Micro
  | .init _ _ => initSeq e
  | .shutdown => shutdownSeq
  | .displayOn => sendCtrlSeq e
  | .displayOff => sendCtrlSeq e
  | .setBrightness _ => sendCtrlSeq e
  | .clear => clearSeq lay
  | .writeReg a v => writeRegSeq lay a v
  | .writeBuf a n bytes => writeBufSeq lay a n bytes
  | .readKeys => readKeysSeq lay

/-! ## Acceptance (R119) -/

/-- Accept a request: its updates, then `E.seq <- expansion(Q)` and `E.busy <- 1`. -/
def acceptRequest (q : Request) (s : State) : State :=
  let e := q.update s.eng
  (s.setEng { e with seq := q.expansion s.par.layout e, busy := true }).report (.accepted q)

/-- Process a request at its arrival, in the order of R119 and R141: hold, refuse `Malformed`, refuse
`NotInitialized`, drop, accept (log entries 12 and 13). -/
def processRequest (q : Request) (s : State) : State :=
  if s.eng.busy then holdRequest q s
  else if !q.wellFormed then refuseRequest q .malformed s
  else if !s.eng.cfg && !q.needsNoInit then refuseRequest q .notInitialized s
  else match q.dropReason with
    | some r => dropRequest q r s
    | none => acceptRequest q s

/-! ## The meanings -/

/-- `INIT on, b` (R121). -/
def execInit (on : Bool) (b : Nat) (s : State) : Host.Outcome State Fault Refusal :=
  .next (processRequest (.init on b) s)

/-- `SHUTDOWN` (R122). -/
def execShutdown (s : State) : Host.Outcome State Fault Refusal := .next (processRequest .shutdown s)

/-- `DISPLAY_ON` (R123). -/
def execDisplayOn (s : State) : Host.Outcome State Fault Refusal := .next (processRequest .displayOn s)

/-- `DISPLAY_OFF` (R124). -/
def execDisplayOff (s : State) : Host.Outcome State Fault Refusal := .next (processRequest .displayOff s)

/-- `SET_BRIGHTNESS b` (R125). -/
def execSetBrightness (b : Nat) (s : State) : Host.Outcome State Fault Refusal :=
  .next (processRequest (.setBrightness b) s)

/-- `CLEAR` (R126). -/
def execClear (s : State) : Host.Outcome State Fault Refusal := .next (processRequest .clear s)

/-- `WRITE_REG a, v` (R127). -/
def execWriteReg (a v : Nat) (s : State) : Host.Outcome State Fault Refusal :=
  .next (processRequest (.writeReg a v) s)

/-- `WRITE_BUF a, n, bytes` (R128). -/
def execWriteBuf (a n : Nat) (bytes : List Nat) (s : State) : Host.Outcome State Fault Refusal :=
  .next (processRequest (.writeBuf a n bytes) s)

/-- `READ_KEYS` (R129). -/
def execReadKeys (s : State) : Host.Outcome State Fault Refusal := .next (processRequest .readKeys s)

end Sys2Proof.Machine
end

