-- ==== Sys2Proof/Machine/Dispatch.lean ====
section
/-! DEFINITION. Dispatch: one arm per constructor of Instr, each one direct call of its meaning. -/

namespace Sys2Proof.Machine

def exec (i : Instr) (s : State) : Host.Outcome State Fault Refusal :=
  match i with
  -- command bytes
  | .cmdWriteAuto => Sys2Proof.Machine.execCmdWriteAuto s
  | .cmdReadKeys => Sys2Proof.Machine.execCmdReadKeys s
  | .cmdWriteFixed => Sys2Proof.Machine.execCmdWriteFixed s
  | .ctrl e b => Sys2Proof.Machine.execCtrl e b s
  | .addr a => Sys2Proof.Machine.execAddr a s
  | .reservedClass00 x => Sys2Proof.Machine.execReservedClass00 x s
  | .reservedData z r m => Sys2Proof.Machine.execReservedData z r m s
  | .reservedCtrlAddr x z low => Sys2Proof.Machine.execReservedCtrlAddr x z low s
  | .payload d => Sys2Proof.Machine.execPayload d s
  -- bus actions
  | .cfgOut p => Sys2Proof.Machine.execCfgOut p s
  | .cfgIn p => Sys2Proof.Machine.execCfgIn p s
  | .wr p l => Sys2Proof.Machine.execWr p l s
  | .rd p => Sys2Proof.Machine.execRd p s
  | .delay => Sys2Proof.Machine.execDelay s
  -- procedures
  | .writeByte v => Sys2Proof.Machine.execWriteByte v s
  | .readByte => Sys2Proof.Machine.execReadByte s
  | .strobeLow => Sys2Proof.Machine.execStrobeLow s
  | .strobeHigh => Sys2Proof.Machine.execStrobeHigh s
  | .writeCommand c => Sys2Proof.Machine.execWriteCommand c s
  | .writeOp a d => Sys2Proof.Machine.execWriteOp a d s
  | .readWindow => Sys2Proof.Machine.execReadWindow s
  | .sendCtrl => Sys2Proof.Machine.execSendCtrl s
  -- host requests
  | .init on b => Sys2Proof.Machine.execInit on b s
  | .shutdown => Sys2Proof.Machine.execShutdown s
  | .displayOn => Sys2Proof.Machine.execDisplayOn s
  | .displayOff => Sys2Proof.Machine.execDisplayOff s
  | .setBrightness b => Sys2Proof.Machine.execSetBrightness b s
  | .clear => Sys2Proof.Machine.execClear s
  | .writeReg a v => Sys2Proof.Machine.execWriteReg a v s
  | .writeBuf a n bytes => Sys2Proof.Machine.execWriteBuf a n bytes s
  | .readKeys => Sys2Proof.Machine.execReadKeys s

end Sys2Proof.Machine
end

