-- ==== Sys2Proof/Machine/Sequencer.lean ====
section
/-! DEFINITION. What the machine runs next, and how one command byte, or a list of requests, is placed where it runs. -/

namespace Sys2Proof.Machine

/-- What the machine does next. -/
inductive Work where
  /-- An engine micro-step: the head of `E.seq` (R29). -/
  | micro (m : Micro) (rest : List Micro)
  /-- The oldest request that waits (R119, R140). -/
  | request (q : Request) (rest : List Request)
  /-- Nothing: no request waits and none is in progress (R154). -/
  | idle
  /-- `E.busy = 1` with an empty `E.seq`, which R27 excludes. -/
  | stuck
  deriving DecidableEq, Repr

/-- While a request is in progress the engine performs its actions; a waiting request is processed only when
`E.busy = 0` (R29, R119, R140). -/
def nextWork (s : State) : Work :=
  if s.eng.busy then
    match s.eng.seq with
    | m :: rest => .micro m rest
    | [] => .stuck
  else
    match s.pending with
    | q :: rest => .request q rest
    | [] => .idle

/-- The host presents requests: they arrive behind those that wait (R119, R140). -/
def State.present (s : State) (qs : List Request) : State := s.setPending (s.pending ++ qs)

/-- The engine in the middle of `WRITE_COMMAND(c)` (R109), before the eighth rise of CLK. -/
def Engine.beforeLastRise (c : Byte) (e : Engine) : Engine :=
  { e with
    clk := ⟨.out, some false⟩
    dio := ⟨.out, some (c.getLsbD 7)⟩
    stb := ⟨.out, some false⟩
    busy := true
    seq := [emit (.wr .clk true), { act := .delay, asg := [.nextBit] }, emit (.wr .stb true)]
    tx := c
    i := 7 }

/-- The peer with seven bits of the command byte `c` received (R58). -/
def Peer.beforeLastRise (c : Byte) (t : Peer) : Peer :=
  { t with
    win := true
    nbytes := 0
    nbits := 7
    sh := c &&& 0x7F#8
    cmd := .none
    tx := false
    drive := none }

/-- The machine with the command byte `c` about to be complete: the next bus action is the rise of CLK at which the
peer decodes it (R58, R170). -/
def State.fetchReady (s : State) (c : Byte) : State :=
  (s.setEng (s.eng.beforeLastRise c)).setPeer (s.peer.beforeLastRise c)

end Sys2Proof.Machine
end

