-- ==== Sys2Proof/Machine/Step.lean ====
section
/-! DEFINITION. One step of the machine, and how a word of the opcode table is placed where the next step runs it. -/

namespace Sys2Proof.Machine

/-- One step. In progress: one engine micro-step, one bus action with the peer's reaction to it (R29, R56). Idle with a
request waiting: that request is processed (R119). Idle with none: nothing happens (R154). -/
def step (s : State) : Host.Outcome State Fault Refusal :=
  match nextWork s with
  | .micro m rest =>
    match exec m.act.toInstr s with
    | .next t => .next (finishMicro m rest t)
    | .fault r => .fault r
    | .refused r => .refused r
  | .request q rest => exec q.toInstr (s.setPending rest)
  | .idle => .next s
  | .stuck => .fault .sequencerEmpty

/-- A byte of the opcode table where the machine decodes its next one (log entry 5): in the window's shift register,
seven bits received, the rise of CLK that completes it next. -/
def State.withFetchWord (s : State) (nbits w : Nat) : State :=
  if nbits = 8 then s.fetchReady (BitVec.ofNat 8 w) else s

end Sys2Proof.Machine
end

