-- ==== Sys2Proof/Machine/Windows.lean ====
section
/-! DEFINITION. Reading a recorded trace (R153): its windows (R15, R93), its counts (R174) and its least duration (R175). -/

namespace Sys2Proof.Machine

/-- The bus actions of a list of entries: R27's `E.seq`. -/
def actionsOf (ms : List Micro) : List BusAction := ms.map Micro.act

/-- How many actions of a list are `DELAY` (R174). -/
def delayCount (as : List BusAction) : Nat := as.count .delay

/-- The least time a trace takes (R175): the number of `DELAY` actions times `P_T_HALF` (R4). -/
def minDuration (par : Params) (tr : List BusEvent) : Nat := tr.count .delay * par.tHalf

/-- One byte of a window (R93): sent by the engine, or driven by the peer (`r0..r3`). -/
inductive WinByte where
  | sent (v : Byte)
  | recv (v : Byte)
  deriving DecidableEq, Repr

/-- The byte of eight bits, the first in bit 0 (R47). -/
def byteOfBits (bits : List Level) : Byte := bits.zipIdx.foldl (fun acc x => acc ||| bitAt x.1 x.2) 0#8

/-- What a reader of a trace keeps. -/
structure Scan where
  /-- `E.pin[STB]` as the actions have left it. -/
  stb    : PinState
  /-- A window is open. -/
  opened : Bool
  /-- The bit of this clock cycle, and whether it was read. -/
  last   : Bool × Level
  /-- The bits of the current byte. -/
  bits   : List (Bool × Level)
  /-- The complete bytes of the open window. -/
  bytes  : List WinByte
  /-- The closed windows. -/
  done   : List (List WinByte)
  deriving DecidableEq, Repr

/-- A byte of the window from its eight bits: driven by the peer when its bits were read. -/
def winByte (bits : List (Bool × Level)) : WinByte :=
  if bits.all Prod.fst then .recv (byteOfBits (bits.map Prod.snd)) else .sent (byteOfBits (bits.map Prod.snd))

/-- `WR(STB, l)`: a window opens when STB is `Out` with latch 1 and falls, and ends at the next `WR(STB, 1)` (R15). -/
def Scan.wrStb (c : Scan) (l : Level) : Scan :=
  let c1 := { c with stb := { c.stb with latch := some l } }
  if !c.opened && c.stb.mode == .out && c.stb.latch == some true && !l then
    { c1 with opened := true, bits := [], bytes := [] }
  else if c.opened && l then { c1 with opened := false, done := c.done ++ [c.bytes] }
  else c1

/-- A rise of CLK in a window moves one bit; the eighth completes a byte (R46). -/
def Scan.clkRise (c : Scan) : Scan :=
  if c.opened then
    let bits := c.bits ++ [c.last]
    if bits.length = 8 then { c with bits := [], bytes := c.bytes ++ [winByte bits] } else { c with bits := bits }
  else c

/-- One action of the trace. -/
def Scan.event (c : Scan) : BusEvent → Scan
  | .cfgOut .stb => { c with stb := { c.stb with mode := .out } }
  | .cfgIn .stb => { c with stb := ⟨.inp, none⟩ }
  | .wr .stb l => c.wrStb l
  | .wr .dio l => { c with last := (false, l) }
  | .rd .dio b => { c with last := (true, b) }
  | .wr .clk true => c.clkRise
  | _ => c

/-- The windows of a trace that starts with STB as given and no window open (R93; log entry 24). -/
def windowsOf (stb : PinState) (tr : List BusEvent) : List (List WinByte) :=
  (tr.foldl Scan.event
    { stb := stb, opened := false, last := (false, false), bits := [], bytes := [], done := [] }).done

/-- The event an action leaves in the trace when it is no `RD`; for `RD`, with the answer given. -/
def BusAction.event (answer : Level) : BusAction → BusEvent
  | .cfgOut p => .cfgOut p
  | .cfgIn p => .cfgIn p
  | .wr p l => .wr p l
  | .rd p => .rd p answer
  | .delay => .delay

/-- The action of an event: the trace without the answers to `RD`. -/
def BusEvent.action : BusEvent → BusAction
  | .cfgOut p => .cfgOut p
  | .cfgIn p => .cfgIn p
  | .wr p l => .wr p l
  | .rd p _ => .rd p
  | .delay => .delay

end Sys2Proof.Machine
end

