-- ==== Sys2Proof/Safety.lean ====
section
/-! DEFINITION. What counts as a safe run: the bus between requests, the peer inside and outside a window, and the condition that the request in progress will leave both in order. -/

namespace Sys2Proof.Machine

/-- The bus between requests while `E.cfg = 1` (R24, R25, R132): CLK and STB are `Out` with latch 1, DIO is `Out`. -/
abbrev BusIdle (e : Engine) : Prop :=
  e.clk = ⟨.out, some true⟩ ∧ e.stb = ⟨.out, some true⟩ ∧ e.dio.mode = .out

/-- The pins when SHUTDOWN has completed (R132, R162): all three are `In` with latch 0. -/
abbrev PinsReleased (e : Engine) : Prop :=
  e.clk = ⟨.inp, some false⟩ ∧ e.dio = ⟨.inp, some false⟩ ∧ e.stb = ⟨.inp, some false⟩

/-- The pins at creation (R156): all three are `Unconf` with latch `⊥`. -/
abbrev PinsFresh (e : Engine) : Prop :=
  e.clk = ⟨.unconf, none⟩ ∧ e.dio = ⟨.unconf, none⟩ ∧ e.stb = ⟨.unconf, none⟩

/-- The peer outside a window (R132): it neither receives nor transmits nor drives DIO. -/
abbrev PeerQuiet (t : Peer) : Prop := t.win = false ∧ t.tx = false ∧ t.drive = none

/-- Between two bytes of a write window: the engine may call WRITE_BYTE (R106), and the peer has received whole bytes. -/
abbrev Receiving (s : State) : Prop :=
  s.eng.clk = ⟨.out, some true⟩ ∧ s.eng.dio.mode = .out ∧ s.eng.stb = ⟨.out, some false⟩ ∧
    s.peer.win = true ∧ s.peer.tx = false ∧ s.peer.drive = none ∧ s.peer.nbits = 0 ∧ s.peer.sh = 0

/-- Between two bytes of a read window, before key byte `k`: the engine may call READ_BYTE (R106). -/
abbrev Transmitting (k : Nat) (s : State) : Prop :=
  s.eng.clk = ⟨.out, some true⟩ ∧ s.eng.dio.mode = .out ∧ s.eng.stb = ⟨.out, some false⟩ ∧
    s.peer.win = true ∧ s.peer.tx = true ∧ s.peer.drive = none ∧ s.peer.kidx = k ∧ s.peer.kbit = 0

/-- Ready for a framed transaction: the bus is idle and the peer is outside a window. -/
abbrev Ready (s : State) : Prop := BusIdle s.eng ∧ PeerQuiet s.peer

/-- As the machine stands between requests: the peer is outside a window and the reference model still knows what it does,
and the pins are as R132 says, or as they were at creation (R156). -/
abbrev Settled (s : State) : Prop :=
  s.peer.undef = false ∧ PeerQuiet s.peer ∧
    (s.eng.cfg = true → BusIdle s.eng) ∧ (s.eng.cfg = false → PinsReleased s.eng ∨ PinsFresh s.eng)

/-- The machine when every action that is left of the request in progress has been performed (R145). -/
def drain (s : State) : State := runMicros s.eng.seq s

/-- A safe state: the request in progress, when performed to its end, leaves the machine settled, and `E.busy` says
whether one is in progress (R27). -/
abbrev SafeRun (s : State) : Prop :=
  Settled (drain s) ∧ (s.eng.busy = true ↔ s.eng.seq ≠ [])

/-- The display registers are in canonical form and the pointer is at most 16 (R35, R44). -/
abbrev PeerBounds (t : Peer) : Prop := t.disp.wf ∧ ∀ p, t.ptr = some p → p ≤ 16

/-- `n` steps, stopping at the first fault or refusal. -/
def runSteps : Nat → State → Host.Outcome State Fault Refusal
  | 0, s => .next s
  | n + 1, s =>
    match step s with
    | .next t => runSteps n t
    | .fault r => .fault r
    | .refused r => .refused r

end Sys2Proof.Machine
end

