-- ==== Sys2Proof/Certificates/Slice0/Obligations.lean ====
section
/-! DEFINITION. The statements for the provers, and the spec's own lists and pseudocode that they compare the machine with. -/

open Sys2Proof Sys2Proof.Machine

namespace Sys2Proof.Spec

/-! ## The spec's action lists (R100, R101, R109, R116, R117, R121, R122) -/

/-- R100: the 40 actions of `WRITE_BYTE(v)`. -/
def writeByteActions (v : Byte) : List BusAction :=
  (List.range 8).flatMap fun i => [.wr .clk false, .delay, .wr .dio (v.getLsbD i), .wr .clk true, .delay]

/-- R101: the 42 actions of `READ_BYTE()`. -/
def readByteActions : List BusAction :=
  [.cfgIn .dio] ++ (List.range 8).flatMap (fun _ => [.wr .clk false, .delay, .rd .dio, .wr .clk true, .delay]) ++
    [.cfgOut .dio]

/-- R109: the 42 actions of `WRITE_COMMAND(c)`. -/
def writeCommandActions (c : Byte) : List BusAction := [.wr .stb false] ++ writeByteActions c ++ [.wr .stb true]

/-- R116: the actions of `WRITE_OP(a, d)`, with the write-mode byte given. -/
def writeOpActions (writeAuto : Byte) (a : BitVec 4) (d : List Byte) : List BusAction :=
  writeCommandActions writeAuto ++ [.wr .stb false] ++ writeByteActions (0xC0#8 ||| a.setWidth 8) ++
    d.flatMap writeByteActions ++ [.wr .stb true]

/-- R117: the 210 actions of `READ_WINDOW()`, with the read-keys byte given. -/
def readWindowActions (readKeys : Byte) : List BusAction :=
  [.wr .stb false] ++ writeByteActions readKeys ++ (List.range 4).flatMap (fun _ => readByteActions) ++ [.wr .stb true]

/-- R81: `CMD_WRITE_AUTO` and `CMD_READ_KEYS`. -/
def writeAuto : DataLayout → Byte
  | .doc => 0x40#8
  | .datasheet => 0x40#8

def readKeys : DataLayout → Byte
  | .doc => 0x44#8
  | .datasheet => 0x42#8

/-- R111: `CTRL(e, b)` in bits: `1000EBBB`. -/
def ctrl (e : Bool) (b : BitVec 3) : Byte := (0b1000#4 ++ BitVec.ofBool e ++ b).cast (by decide)

/-- R121 to R129: the actions of each accepted request, with the `E.en` and `E.bri` its updates leave. -/
def actions (lay : DataLayout) (en : Bool) (bri : BitVec 3) : Request → List BusAction
  | .init _ _ =>
    [.wr .stb true, .wr .clk true, .cfgOut .clk, .cfgOut .dio, .cfgOut .stb] ++ writeCommandActions (ctrl en bri)
  | .shutdown =>
    [.cfgIn .clk, .wr .clk false, .cfgIn .dio, .wr .dio false, .cfgIn .stb, .wr .stb false]
  | .displayOn => writeCommandActions (ctrl en bri)
  | .displayOff => writeCommandActions (ctrl en bri)
  | .setBrightness _ => writeCommandActions (ctrl en bri)
  | .clear => writeOpActions (writeAuto lay) 0 (List.replicate 16 0x00#8)
  | .writeReg a v => writeOpActions (writeAuto lay) (BitVec.ofNat 4 a) [BitVec.ofNat 8 v]
  | .writeBuf a n bytes => writeOpActions (writeAuto lay) (BitVec.ofNat 4 a) ((bytes.take n).map (BitVec.ofNat 8))
  | .readKeys => readWindowActions (readKeys lay)

/-- R174: how many actions each accepted request takes. -/
def actionCount : Request → Nat
  | .init _ _ => 47
  | .shutdown => 6
  | .displayOn => 42
  | .displayOff => 42
  | .setBrightness _ => 42
  | .clear => 724
  | .writeReg _ _ => 124
  | .writeBuf _ n _ => 84 + 40 * n
  | .readKeys => 210

/-- R174: how many of them are `DELAY`. -/
def delays : Request → Nat
  | .init _ _ => 16
  | .shutdown => 0
  | .displayOn => 16
  | .displayOff => 16
  | .setBrightness _ => 16
  | .clear => 288
  | .writeReg _ _ => 48
  | .writeBuf _ n _ => 32 + 16 * n
  | .readKeys => 80

/-! ## The spec's checks on a request (R87, R88, R135) -/

/-- R88: every operand fits its width, and WRITE_BUF has at least `n` bytes. -/
def fits : Request → Prop
  | .init _ b => b ≤ 7
  | .setBrightness b => b ≤ 255
  | .writeReg a v => a ≤ 255 ∧ v ≤ 255
  | .writeBuf a n bytes => a ≤ 255 ∧ n ≤ 255 ∧ (∀ d ∈ bytes, d ≤ 255) ∧ n ≤ bytes.length
  | .shutdown | .displayOn | .displayOff | .clear | .readKeys => True

/-- R138: INIT and SHUTDOWN are processed whatever `E.cfg` is. -/
def anyCfg : Request → Prop
  | .init _ _ | .shutdown => True
  | .displayOn | .displayOff | .setBrightness _ | .clear | .writeReg _ _ | .writeBuf _ _ _ | .readKeys => False

/-- R135: the two conditions that cause a drop, each with its status. -/
def dropped : Request → Status → Prop
  | .writeReg a _, st => 15 < a ∧ st = .invalidAddress
  | .writeBuf a n _, st => (n = 0 ∨ 16 < a + n) ∧ st = .invalidAddress
  | .setBrightness b, st => 7 < b ∧ st = .invalidBrightness
  | _, _ => False

/-! ## The peer's pseudocode (R59 to R65) -/

/-- R60, on the bits of the byte. -/
def dataCommand (lay : DataLayout) (c : Byte) (t : Peer) : Peer :=
  let r : Bool := match lay with
    | .doc => c.getLsbD 2
    | .datasheet => c.getLsbD 1
  let fixed : Bool := match lay with
    | .doc => c.extractLsb' 0 2 == 1#2
    | .datasheet => c.getLsbD 2
  let bad : Bool := match lay with
    | .doc => c.extractLsb' 3 3 != 0#3 || c.getLsbD 1
    | .datasheet => c.extractLsb' 3 3 != 0#3 || c.getLsbD 0
  if bad || (r && fixed) then { t with undef := true }
  else
    let t1 := { t with rw := some (if r then .read else .write), am := some (if fixed then .fixed else .auto) }
    if r then { t1 with cmd := .dataR, tx := true, kidx := 0, kbit := 0 } else { t1 with cmd := .dataW }

/-- R61. -/
def controlCommand (c : Byte) (t : Peer) : Peer :=
  if c.extractLsb' 4 2 ≠ 0#2 then { t with undef := true }
  else { t with on := c.getLsbD 3, bri := c.extractLsb' 0 3, cmd := .ctrl }

/-- R62. -/
def addressCommand (c : Byte) (t : Peer) : Peer :=
  if c.extractLsb' 4 2 ≠ 0#2 then { t with undef := true }
  else { t with ptr := some (c.extractLsb' 0 4).toNat, cmd := .addr }

/-- R59 and R63: by the class, bits 7:6. -/
def command (lay : DataLayout) (c : Byte) (t : Peer) : Peer :=
  if c.extractLsb' 6 2 = 0b01#2 then dataCommand lay c t
  else if c.extractLsb' 6 2 = 0b10#2 then controlCommand c t
  else if c.extractLsb' 6 2 = 0b11#2 then addressCommand c t
  else { t with undef := true }

/-- R64: the conditions under which a payload byte is written, at the pointer `p`. -/
def stores (t : Peer) (p : Nat) : Prop :=
  t.cmd = .addr ∧ t.rw = some .write ∧ t.am ≠ none ∧ t.ptr = some p ∧ p ≤ 15

end Sys2Proof.Spec

/-! ## Encoding -/

/-- Words written out from R77 to R81 and R86 are read as the instructions they stand for. -/
def Obligations.CommandBytesReadAsTheTableSays : Prop :=
  decodeTableWord 8 0b01000000 = some .cmdWriteAuto ∧
    decodeTableWord 8 0b01000100 = some .cmdReadKeys ∧
    decodeTableWord 8 0b01000001 = some .cmdWriteFixed ∧
    decodeTableWord 8 0b10001101 = some (.ctrl true 5) ∧
    decodeTableWord 8 0b11000111 = some (.addr 7) ∧
    decodeTableWord 8 0b00111111 = some (.reservedClass00 63) ∧
    decodeTableWord 8 0b01000101 = some (.reservedData 0 true 1) ∧
    decodeTableWord 8 0b10010000 = some (.reservedCtrlAddr false 1 0) ∧
    decodeByte .datasheet .command 0b01000010#8 = .cmdReadKeys ∧
    decodeByte .datasheet .command 0b01000100#8 = .cmdWriteFixed ∧
    decodeByte .doc .payload 0b01000000#8 = .payload 0x40

/-- Under either layout, at its own position, a well-formed instruction that is a byte is read back from its byte. -/
def Obligations.DecodeOfEncodeIsTheInstruction : Prop :=
  ∀ (lay : DataLayout) (pos : BytePos) (i : Instr), i.wf lay = true → i.pos = some pos →
    ∃ b, encode lay i = some b ∧ decode lay pos [b] = .ok (i, [])

/-- Every byte has exactly one reading at each position: the instruction read is well-formed, stands at that position,
and encodes to that byte. -/
def Obligations.EveryByteHasOneReading : Prop :=
  ∀ (lay : DataLayout) (pos : BytePos) (b : Byte),
    (decodeByte lay pos b).wf lay = true ∧ (decodeByte lay pos b).pos = some pos ∧
      encode lay (decodeByte lay pos b) = some b

/-- R59 to R63: the command byte of a window has exactly the effect the pseudocode gives it, bit by bit. -/
def Obligations.CommandByteFollowsThePseudocode : Prop :=
  ∀ (lay : DataLayout) (c : Byte) (s : State), s.par.layout = lay →
    exec (decodeByte lay .command c) s = .next (s.setPeer (Spec.command lay c s.peer))

/-! ## Reset -/

/-- What R156 gives for the engine at its creation, for the fields it gives a value. -/
def Obligations.ResetLeavesTheEngineIdle : Prop :=
  State.reset.eng.cfg = false ∧ State.reset.eng.busy = false ∧ State.reset.eng.seq = [] ∧
    (∀ p, State.reset.eng.pin p = ⟨.unconf, none⟩) ∧ (∀ p, level State.reset p = none)

/-- What R157 gives for the peer at its power-on: each display register any byte (a free value, log entry 22), no mode,
no pointer, no window. -/
def Obligations.PowerOnLeavesThePeerBlank : Prop :=
  (∀ a, State.reset.peer.disp.read a = Config.freeDisp a) ∧ State.reset.peer.rw = none ∧ State.reset.peer.am = none ∧
    State.reset.peer.ptr = none ∧ PeerQuiet State.reset.peer ∧ State.reset.peer.undef = false

/-! ## Bus actions -/

/-- R95: the pin is driven with its latch, which it keeps; a pin that is `Out` already does not change. The peer hears
nothing outside a window while it does not drive DIO. `CFG_OUT(DIO)` is no edge, but against a peer that drives DIO it
is contention, which sets `T.undef` (R68). -/
def Obligations.CfgOutDrivesThePinWithItsLatch : Prop :=
  ∀ (p : Pin) (s : State), ∃ t, exec (.cfgOut p) s = .next t ∧
    t = { s with eng := s.eng.setPin p ⟨.out, (s.eng.pin p).latch⟩, peer := t.peer, trace := s.trace ++ [.cfgOut p] } ∧
    ((s.eng.pin p).mode = .out → t.eng = s.eng) ∧
    level t p = (if peerDrives s.peer p then none else (s.eng.pin p).latch) ∧
    (t.peer = s.peer ∨ t.peer = { s.peer with undef := true }) ∧
    (s.peer.win = false → s.peer.drive = none → t.peer = s.peer) ∧
    (p = .dio → s.peer.drive = none → t.peer = s.peer) ∧
    (p = .dio → s.peer.drive ≠ none → t.peer = { s.peer with undef := true })

/-- R96: the pin is released, its latch is `⊥`, and the wire carries the peer's bit if the peer drives it. -/
def Obligations.CfgInReleasesThePin : Prop :=
  ∀ (p : Pin) (s : State), ∃ t, exec (.cfgIn p) s = .next t ∧
    t = { s with eng := s.eng.setPin p ⟨.inp, none⟩, peer := t.peer, trace := s.trace ++ [.cfgIn p] } ∧
    level t p = (if peerDrives s.peer p then s.peer.drive else none) ∧
    (t.peer = s.peer ∨ t.peer = { s.peer with undef := true }) ∧
    (s.peer.win = false → s.peer.drive = none → t.peer = s.peer)

/-- R97: the latch is set in every mode. A pin that is `Out` carries the level at once; one that is not leaves the wire
as it was. The peer hears nothing (R56) of a `WR` that makes no edge of CLK or STB: on a pin that is not `Out`, on DIO,
or to the level that the latch has already; only contention that was there before is noticed (R68). -/
def Obligations.WrSetsTheLatch : Prop :=
  ∀ (p : Pin) (l : Level) (s : State), ∃ t, exec (.wr p l) s = .next t ∧
    t.eng = s.eng.setPin p ⟨(s.eng.pin p).mode, some l⟩ ∧ t.trace = s.trace ++ [.wr p l] ∧
    ((s.eng.pin p).mode = .out → level t p = if peerDrives t.peer p then none else some l) ∧
    ((s.eng.pin p).mode ≠ .out → level t p = level s p) ∧
    ((s.eng.pin p).mode ≠ .out ∨ p = .dio ∨ (s.eng.pin p).latch = some l →
      t.keypad = s.keypad ∧ t.drawn = s.drawn ∧
        t.peer = if contention s then { s.peer with undef := true } else s.peer)

/-- R98: the answer is the level of the wire, or a draw when it is `⊥`; it is recorded, and nothing else changes. R98
gives `RD` the operand DIO only: the answer for CLK and STB is the model's choice (log entry 17), and so is the counter
of draws (log entry 6). -/
def Obligations.RdAnswersTheLevel : Prop :=
  ∀ (p : Pin) (s : State),
    (∀ b, level s p = some b →
      exec (.rd p) s = .next { s with trace := s.trace ++ [.rd p b] }) ∧
    (level s p = none →
      ∃ b, exec (.rd p) s = .next { s with trace := s.trace ++ [.rd p b], drawn := s.drawn + 1 })

/-- R99: `DELAY` changes nothing and stays in the trace. -/
def Obligations.DelayOnlyTakesItsPlace : Prop :=
  ∀ s : State, exec .delay s = .next { s with trace := s.trace ++ [.delay] }

/-- The frame of the five bus actions. Only the action's own pin changes in the engine; one event is recorded. A display
register changes only when the action is the rise of CLK that completes a payload byte, and then only the one at the
peer's store address; the peer's other registers change only when a byte completes; the keypad is looked at only at a
fall of CLK while the peer transmits. -/
def Obligations.BusActionsChangeNothingElse : Prop :=
  ∀ (a : BusAction) (s t : State), exec a.toInstr s = .next t →
    (t.par = s.par ∧ t.pending = s.pending ∧ t.reports = s.reports ∧ ∃ b, t.trace = s.trace ++ [a.event b]) ∧
    (∃ c d b, t.eng = { s.eng with clk := c, dio := d, stb := b }) ∧
    (∀ p, (a ≠ .cfgOut p ∧ a ≠ .cfgIn p ∧ ∀ l, a ≠ .wr p l) → t.eng.pin p = s.eng.pin p) ∧
    (∀ x, s.peer.storeAddr ≠ some x → t.peer.disp.read x = s.peer.disp.read x) ∧
    (¬(a = .wr .clk true ∧ s.peer.win = true ∧ s.peer.tx = false ∧ s.peer.nbits = 7 ∧ s.peer.nbytes ≠ 0) →
      t.peer.disp = s.peer.disp) ∧
    (¬(a = .wr .clk true ∧ s.peer.win = true ∧ s.peer.tx = false ∧ s.peer.nbits = 7) →
      t.peer.rw = s.peer.rw ∧ t.peer.am = s.peer.am ∧ t.peer.ptr = s.peer.ptr ∧ t.peer.on = s.peer.on ∧
        t.peer.bri = s.peer.bri) ∧
    (¬(a = .wr .clk false ∧ s.peer.win = true ∧ s.peer.tx = true) →
      t.peer.key = s.peer.key ∧ t.keypad = s.keypad)

/-! ## The peer's reactions -/

/-- R57: a fall of STB opens a window. R37 says that it overwrites every window field; R57 gives `T.kidx` and `T.kbit`
no value, and 0 is the model's (log entry 26). -/
def Obligations.StbFallOpensAWindow : Prop :=
  ∀ s : State, s.eng.stb = ⟨.out, some true⟩ → s.peer.win = false →
    ∃ t, exec (.wr .stb false) s = .next t ∧
      t.peer = { s.peer with
        win := true, nbytes := 0, nbits := 0, sh := 0x00#8, cmd := .none, tx := false, kidx := 0, kbit := 0
        drive := none }

/-- R67: a rise of STB closes the window; a partial byte sets `T.undef`. -/
def Obligations.StbRiseClosesTheWindow : Prop :=
  ∀ s : State, s.eng.stb = ⟨.out, some false⟩ → s.peer.win = true →
    ∃ t, exec (.wr .stb true) s = .next t ∧
      (s.peer.nbits ≠ 0 → t.peer = { s.peer with win := false, tx := false, drive := none, undef := true }) ∧
      (s.peer.nbits = 0 → t.peer = { s.peer with win := false, tx := false, drive := none })

/-- R58: a rise of CLK while the peer receives shifts in the bit on DIO, least significant first; a `⊥` bit sets
`T.undef`; the eighth completes the byte, which is the command byte or a payload byte by its position. That a byte with
no meaning is counted too, and `T.nbits` and `T.sh` cleared after it, is log entry 10. A fall of CLK has no effect on a
peer that receives (contention that was there before is flagged, R68). -/
def Obligations.ClkRiseShiftsInOneBit : Prop :=
  (∀ s : State, s.eng.clk = ⟨.out, some false⟩ → s.peer.win = true → s.peer.tx = false →
    (level s .dio = none → ∃ t, exec (.wr .clk true) s = .next t ∧ t.peer = { s.peer with undef := true }) ∧
    (∀ d, level s .dio = some d →
      ∃ t, exec (.wr .clk true) s = .next t ∧
        let c := s.peer.sh ||| (BitVec.ofBool d).setWidth 8 <<< s.peer.nbits
        let u := { s.peer with sh := c, nbits := s.peer.nbits + 1 }
        (s.peer.nbits + 1 ≠ 8 → t.peer = u) ∧
        (s.peer.nbits + 1 = 8 →
          t.peer = { u.runByte (decodeByte s.par.layout (if s.peer.nbytes = 0 then .command else .payload) c) with
            nbytes := s.peer.nbytes + 1, nbits := 0, sh := 0x00#8 }))) ∧
  (∀ s : State, s.eng.clk = ⟨.out, some true⟩ → s.peer.win = true → s.peer.tx = false →
    ∃ t, exec (.wr .clk false) s = .next t ∧ t.keypad = s.keypad ∧
      t.peer = if contention s then { s.peer with undef := true } else s.peer)

/-- R66: while transmitting, the peer drives one key bit at each fall of CLK and releases DIO at each rise, bit 0 of
byte 0 first; a clock after the fourth byte sets `T.undef`, and so does driving against the engine (R68). The bit is of
the keypad as the environment presents it then. -/
def Obligations.KeyBitsAreDrivenAndReleased : Prop :=
  (∀ s : State, s.eng.clk = ⟨.out, some true⟩ → s.peer.win = true → s.peer.tx = true →
    (4 ≤ s.peer.kidx → ∃ t, exec (.wr .clk false) s = .next t ∧ t.peer = { s.peer with undef := true }) ∧
    (s.peer.kidx < 4 →
      ∃ t ks, exec (.wr .clk false) s = .next t ∧
        t.peer = { s.peer with
          key := ks
          drive := some ((ks.get s.peer.kidx).getLsbD s.peer.kbit)
          undef := s.peer.undef || decide (s.eng.dio.mode = .out) } ∧
        (∀ k rest, s.keypad = k :: rest → ks = k ∧ t.keypad = rest))) ∧
  (∀ s : State, s.eng.clk = ⟨.out, some false⟩ → s.peer.win = true → s.peer.tx = true →
    ∃ t, exec (.wr .clk true) s = .next t ∧
      (s.peer.kbit + 1 = 8 → t.peer = { s.peer with drive := none, kbit := 0, kidx := s.peer.kidx + 1 }) ∧
      (s.peer.kbit + 1 ≠ 8 → t.peer = { s.peer with drive := none, kbit := s.peer.kbit + 1 }))

/-- R56 and R70: an edge of CLK outside a window, a fall of STB inside one, and a change of CLK or STB from or to `⊥`
inside one (by CFG_IN, by CFG_OUT, or by WR on a pin that is `Out` with latch `⊥`) set `T.undef` and nothing else; a
rise of STB outside a window has no effect, and neither has a change from or to `⊥` there (contention that was there
before is flagged, R68). -/
def Obligations.UncoveredEdgesSetUndef : Prop :=
  ∀ s : State,
    (∀ l, s.eng.clk = ⟨.out, some (!l)⟩ → s.peer.win = false →
      ∃ t, exec (.wr .clk l) s = .next t ∧ t.peer = { s.peer with undef := true }) ∧
    (s.eng.stb = ⟨.out, some true⟩ → s.peer.win = true →
      ∃ t, exec (.wr .stb false) s = .next t ∧ t.peer = { s.peer with undef := true }) ∧
    (∀ p b, p ≠ .dio → s.eng.pin p = ⟨.out, some b⟩ → s.peer.win = true →
      ∃ t, exec (.cfgIn p) s = .next t ∧ t.peer = { s.peer with undef := true }) ∧
    (∀ p b, p ≠ .dio → (s.eng.pin p).mode ≠ .out → (s.eng.pin p).latch = some b → s.peer.win = true →
      ∃ t, exec (.cfgOut p) s = .next t ∧ t.peer = { s.peer with undef := true }) ∧
    (s.eng.stb = ⟨.out, some false⟩ → s.peer.win = false → contention s = false →
      ∃ t, exec (.wr .stb true) s = .next t ∧ t.peer = s.peer) ∧
    (∀ p l, p ≠ .dio → s.eng.pin p = ⟨.out, none⟩ → s.peer.win = true →
      ∃ t, exec (.wr p l) s = .next t ∧ t.peer = { s.peer with undef := true }) ∧
    (∀ p l, p ≠ .dio → s.eng.pin p = ⟨.out, none⟩ → s.peer.win = false →
      ∃ t, exec (.wr p l) s = .next t ∧
        t.peer = if contention s then { s.peer with undef := true } else s.peer) ∧
    (∀ p, p ≠ .dio → s.peer.win = false →
      (∃ t, exec (.cfgIn p) s = .next t ∧
        t.peer = if contention s then { s.peer with undef := true } else s.peer) ∧
      ∃ t, exec (.cfgOut p) s = .next t ∧
        t.peer = if contention s then { s.peer with undef := true } else s.peer)

/-- R64 and R65: a payload byte is written at the pointer when every condition of R64 holds, the pointer advancing in
`Auto` mode only; in every other case it sets `T.undef`. Nothing else of the machine changes. -/
def Obligations.PayloadIsWrittenAtThePointer : Prop :=
  ∀ (d : Byte) (s : State), ∃ t, exec (.payload d) s = .next t ∧ t = s.setPeer t.peer ∧
    (∀ p, s.peer.storeAddr = some p ↔ Spec.stores s.peer p) ∧
    (∀ p, Spec.stores s.peer p →
      t.peer = { s.peer with disp := t.peer.disp, ptr := if s.peer.am = some .auto then some (p + 1) else some p } ∧
      t.peer.disp.read p = d) ∧
    (∀ a, s.peer.storeAddr ≠ some a → t.peer.disp.read a = s.peer.disp.read a) ∧
    ((∀ p, ¬Spec.stores s.peer p) → t.peer = { s.peer with undef := true })

/-! ## Command bytes as instructions -/

/-- R60: the three data commands set the read/write mode and the addressing mode; read keys also makes the peer
transmit. Nothing else changes. -/
def Obligations.DataCommandsSetTheModes : Prop :=
  ∀ s : State,
    exec .cmdWriteAuto s = .next { s with peer := { s.peer with rw := some .write, am := some .auto, cmd := .dataW } } ∧
    exec .cmdWriteFixed s =
      .next { s with peer := { s.peer with rw := some .write, am := some .fixed, cmd := .dataW } } ∧
    exec .cmdReadKeys s = .next { s with
      peer := { s.peer with rw := some .read, am := some .auto, cmd := .dataR, tx := true, kidx := 0, kbit := 0 } }

/-- R61 and R62: the display-control command sets on and brightness; the address command sets the pointer. -/
def Obligations.CtrlAndAddrSetTheirRegisters : Prop :=
  ∀ s : State,
    (∀ e b, exec (.ctrl e b) s = .next { s with peer := { s.peer with on := e, bri := b, cmd := .ctrl } }) ∧
    (∀ a, exec (.addr a) s = .next { s with peer := { s.peer with ptr := some a.toNat, cmd := .addr } })

/-- R60 to R63: a command byte with no meaning sets `T.undef` and nothing else. -/
def Obligations.ReservedBytesSetUndef : Prop :=
  ∀ s : State,
    (∀ x, exec (.reservedClass00 x) s = .next { s with peer := { s.peer with undef := true } }) ∧
    (∀ z r m, exec (.reservedData z r m) s = .next { s with peer := { s.peer with undef := true } }) ∧
    (∀ x z low, exec (.reservedCtrlAddr x z low) s = .next { s with peer := { s.peer with undef := true } })

/-! ## The step -/

/-- R29, R119: what one step runs. In progress: `exec` of the head of `E.seq`, then its assignments and
`E.seq <- rest`. Idle: `exec` of the oldest request that waits. Idle with none: nothing. That processing a request is a
step of its own, and that a step with nothing to do changes nothing, are the model's choice (log entry 14). -/
def Obligations.StepRunsTheNextInstruction : Prop :=
  ∀ s : State,
    (∀ m rest, s.eng.busy = true → s.eng.seq = m :: rest →
      ∃ t, exec m.act.toInstr s = .next t ∧ step s = .next (finishMicro m rest t)) ∧
    (∀ q rest, s.eng.busy = false → s.pending = q :: rest → step s = exec q.toInstr { s with pending := rest }) ∧
    (s.eng.busy = false → s.pending = [] → step s = .next s)

/-- R58, R59: when the next action is the rise of CLK that completes a byte, the step runs the instruction that the
decoder reads in that byte at its position: the peer after the step is the peer after `exec` of it, with the window's
byte count advanced and the shift register empty (for a byte with no meaning too: log entry 10). -/
def Obligations.StepRunsTheDecodedByte : Prop :=
  ∀ (s : State) (m : Micro) (rest : List Micro) (d : Level),
    s.eng.busy = true → s.eng.seq = m :: rest → m.act = .wr .clk true → s.eng.clk = ⟨.out, some false⟩ →
    s.eng.dio = ⟨.out, some d⟩ → s.peer.win = true → s.peer.tx = false → s.peer.drive = none → s.peer.nbits = 7 →
    ∃ t u, step s = .next t ∧
      let c := s.peer.sh ||| (BitVec.ofBool d).setWidth 8 <<< 7
      exec (decodeByte s.par.layout s.peer.bytePos c)
        { s with peer := { s.peer with sh := c, nbits := 8 } } = .next u ∧
      t.peer = { u.peer with nbytes := s.peer.nbytes + 1, nbits := 0, sh := 0x00#8 }

/-- A command byte placed by `withFetchWord` is what the next step runs, from any state whose layout is the table's. -/
def Obligations.FetchedWordRunsNext : Prop :=
  ∀ (s : State) (w : Nat) (i : Instr), s.par.layout = .doc → decodeTableWord 8 w = some i →
    ∃ t u, step (s.withFetchWord 8 w) = .next t ∧ exec i s = .next u ∧
      t.peer.disp = u.peer.disp ∧ t.peer.rw = u.peer.rw ∧ t.peer.am = u.peer.am ∧ t.peer.ptr = u.peer.ptr ∧
      t.peer.on = u.peer.on ∧ t.peer.bri = u.peer.bri ∧ t.peer.undef = u.peer.undef

/-- R134: no instruction of the table raises an exception or stops the machine: `exec` answers a next state for every
instruction, with any operands, from every state. -/
def Obligations.EveryInstructionCompletes : Prop :=
  ∀ (i : Instr) (s : State), ∃ t, exec i s = .next t

/-- R134, R145: a step answers a next state from every state but those with `E.busy = 1` and an empty `E.seq`, which R27
excludes and in which R29's requirement fails. (With `E.busy = 0` it answers whatever `E.seq` is; that a step with
nothing to do changes nothing is log entry 14.) -/
def Obligations.StepStopsOnlyWhereR27Fails : Prop :=
  ∀ s : State, (∃ t, step s = .next t) ↔ ¬(s.eng.busy = true ∧ s.eng.seq = [])

/-! ## Procedures -/

/-- R100 and R102: WRITE_BYTE performs its 40 actions, leaves CLK at 1 and DIO at bit 7, and changes no mode; called
inside a write window, it gives the peer exactly its byte (a command byte with no meaning is counted too: log entry 10).
That `E.tx` and `E.i` are left at the byte and at 8 is the model's reading (log entry 9). -/
def Obligations.WriteByteDeliversItsByte : Prop :=
  ∀ (v : Byte) (s : State), ∃ t, exec (.writeByte v) s = .next t ∧
    t.trace = s.trace ++ (Spec.writeByteActions v).map (BusAction.event false) ∧
    t.eng = { s.eng with
      clk := ⟨s.eng.clk.mode, some true⟩, dio := ⟨s.eng.dio.mode, some (v.getLsbD 7)⟩, tx := v, i := 8 } ∧
    (Receiving s → t.peer = { s.peer with sh := v }.byteDone s.par.layout ∧ t.keypad = s.keypad ∧ t.drawn = s.drawn)

/-- R101 and R103: whatever DIO answers, READ_BYTE assembles its eight answers, the first in bit 0, between one
`CFG_IN(DIO)` and one `CFG_OUT(DIO)`, and leaves CLK at 1 and DIO `Out` with latch `⊥`. That `E.i` is left at 8 is the
model's reading (log entry 9). -/
def Obligations.ReadByteAssemblesItsAnswers : Prop :=
  ∀ s : State, ∃ t, ∃ b : Byte, exec .readByte s = .next t ∧
    t.trace = s.trace ++ [.cfgIn .dio] ++
      (List.range 8).flatMap (fun i => [.wr .clk false, .delay, .rd .dio (b.getLsbD i), .wr .clk true, .delay]) ++
      [.cfgOut .dio] ∧
    t.eng = { s.eng with
      clk := ⟨s.eng.clk.mode, some true⟩, dio := ⟨.out, none⟩, i := 8, acc := b }

/-- R66, R101: inside a read window, READ_BYTE receives key byte `k`, each bit of the keypad as it is at that bit's own
clock; the peer goes on to the next key byte. -/
def Obligations.ReadByteReceivesAKeyByte : Prop :=
  ∀ (k : Nat) (ks rest : List KeyBytes) (s : State), Transmitting k s → k < 4 → ks.length = 8 →
    s.keypad = ks ++ rest →
    ∃ t, exec .readByte s = .next t ∧ (∀ j (h : j < ks.length), t.eng.acc.getLsbD j = (ks[j].get k).getLsbD j) ∧
      t.peer = { s.peer with key := t.peer.key, kidx := k + 1, kbit := 0, drive := none } ∧ t.keypad = rest

/-- R107 and R108: the strobe procedures are one `WR(STB, ·)` and nothing else. -/
def Obligations.StrobeIsOneAction : Prop :=
  ∀ s : State,
    (∃ t, exec .strobeLow s = .next t ∧ exec (.wr .stb false) s = .next t ∧
      t.eng = { s.eng with stb := ⟨s.eng.stb.mode, some false⟩ } ∧ t.trace = s.trace ++ [.wr .stb false]) ∧
    (∃ t, exec .strobeHigh s = .next t ∧ exec (.wr .stb true) s = .next t ∧
      t.eng = { s.eng with stb := ⟨s.eng.stb.mode, some true⟩ } ∧ t.trace = s.trace ++ [.wr .stb true])

/-- R109, R110: WRITE_COMMAND sends its byte in one window of its own, in 42 actions; the peer has received it as a
command byte when the window closes, and the bus is idle again. That a byte with no meaning is counted too is log entry
10; `T.kidx` and `T.kbit` at the fall of STB are log entry 26. That `E.tx` and `E.i` are left at the byte and at 8,
where R30 gives them no value, is log entry 9. -/
def Obligations.WriteCommandIsOneWindow : Prop :=
  ∀ (c : Byte) (s : State), Ready s →
    ∃ t evs, exec (.writeCommand c) s = .next t ∧ t.trace = s.trace ++ evs ∧
      evs = (Spec.writeCommandActions c).map (BusAction.event false) ∧ evs.length = 42 ∧
      windowsOf s.eng.stb evs = [[.sent c]] ∧
      t.peer = { Spec.command s.par.layout c
          { s.peer with win := true, nbytes := 0, nbits := 0, sh := c, cmd := .none, kidx := 0, kbit := 0 } with
        win := false, nbytes := 1, nbits := 0, sh := 0x00#8, tx := false, drive := none } ∧
      t.eng = { s.eng with dio := ⟨.out, some (c.getLsbD 7)⟩, tx := c, i := 8 }

/-- R116, R110: WRITE_OP sends the write-mode window and one write window, in 84 + 40n actions. The n registers from `a`
hold the bytes and every other register is unchanged; the pointer is `a + n`, the peer is in write mode with
auto-increment, and `T.undef` is not set by it. -/
def Obligations.WriteOpStoresItsBytes : Prop :=
  ∀ (a : Byte) (d : List Byte) (s : State), Ready s → 1 ≤ d.length → a.toNat + d.length ≤ 16 →
    ∃ t evs, exec (.writeOp a d) s = .next t ∧ t.trace = s.trace ++ evs ∧
      evs = (Spec.writeOpActions (Spec.writeAuto s.par.layout) (a.setWidth 4) d).map (BusAction.event false) ∧
      evs.length = 84 + 40 * d.length ∧
      windowsOf s.eng.stb evs =
        [[.sent (Spec.writeAuto s.par.layout)], .sent (0xC0#8 ||| a) :: d.map WinByte.sent] ∧
      (∀ j (h : j < d.length), t.peer.disp.read (a.toNat + j) = d[j]) ∧
      (∀ x, (x < a.toNat ∨ a.toNat + d.length ≤ x) → t.peer.disp.read x = s.peer.disp.read x) ∧
      t.peer.ptr = some (a.toNat + d.length) ∧ t.peer.rw = some .write ∧ t.peer.am = some .auto ∧
      t.peer.undef = s.peer.undef ∧ t.peer.on = s.peer.on ∧ t.peer.bri = s.peer.bri ∧ t.keypad = s.keypad ∧ Ready t

/-- R117, R45, R54: READ_WINDOW is one window of 210 actions; the mask is the four bytes read, little-endian, and bit
8k + j of it is bit j of key byte k of the keypad as it was at that bit's own clock. The peer is left in read mode. -/
def Obligations.ReadWindowAssemblesTheMask : Prop :=
  ∀ (ks rest : List KeyBytes) (s : State), Ready s → ks.length = 32 → s.keypad = ks ++ rest →
    ∃ t evs b0 b1 b2 b3, exec .readWindow s = .next t ∧ t.trace = s.trace ++ evs ∧
      evs.map BusEvent.action = Spec.readWindowActions (Spec.readKeys s.par.layout) ∧ evs.length = 210 ∧
      windowsOf s.eng.stb evs = [[.sent (Spec.readKeys s.par.layout), .recv b0, .recv b1, .recv b2, .recv b3]] ∧
      t.eng.kacc =
        b0.setWidth 32 ||| (b1.setWidth 32 <<< 8) ||| (b2.setWidth 32 <<< 16) ||| (b3.setWidth 32 <<< 24) ∧
      (∀ n (h : n < ks.length), t.eng.kacc.getLsbD n = (ks[n].get (n / 8)).getLsbD (n % 8)) ∧
      t.peer.rw = some .read ∧ t.peer.am = some .auto ∧ t.peer.undef = s.peer.undef ∧ t.peer.disp = s.peer.disp ∧
      t.peer.ptr = s.peer.ptr ∧ t.peer.on = s.peer.on ∧ t.peer.bri = s.peer.bri ∧ t.keypad = rest ∧ Ready t ∧
      t.eng.rspKeys = s.eng.rspKeys

/-- R118: SEND_CTRL sends `CTRL(E.en, E.bri)` in one window, which sets the peer's display control to them; nothing else
of the peer's registers changes. -/
def Obligations.SendCtrlSendsTheEngineState : Prop :=
  ∀ s : State, Ready s →
    ∃ t evs, exec .sendCtrl s = .next t ∧ t.trace = s.trace ++ evs ∧
      evs = (Spec.writeCommandActions (Spec.ctrl s.eng.en s.eng.bri)).map (BusAction.event false) ∧
      evs.length = 42 ∧ windowsOf s.eng.stb evs = [[.sent (Spec.ctrl s.eng.en s.eng.bri)]] ∧
      t.peer.on = s.eng.en ∧ t.peer.bri = s.eng.bri ∧ t.peer.undef = s.peer.undef ∧ t.peer.disp = s.peer.disp ∧
      t.peer.rw = s.peer.rw ∧ t.peer.am = s.peer.am ∧ t.peer.ptr = s.peer.ptr ∧ t.keypad = s.keypad ∧ Ready t

/-- The frame of the eight procedures: they touch no parameter, no waiting request and no report, and in the engine only
the pins and the transient datapath (R30). A byte or a strobe alone writes at most the display register at the peer's
store address. -/
def Obligations.ProceduresLeaveTheRest : Prop :=
  ∀ (i : Instr) (s t : State),
    ((∃ v, i = .writeByte v) ∨ i = .readByte ∨ i = .strobeLow ∨ i = .strobeHigh ∨ (∃ c, i = .writeCommand c) ∨
      (∃ a d, i = .writeOp a d) ∨ i = .readWindow ∨ i = .sendCtrl) →
    exec i s = .next t →
    t.par = s.par ∧ t.pending = s.pending ∧ t.reports = s.reports ∧
      (∃ c d b tx n acc kacc k,
        t.eng = { s.eng with
          clk := c, dio := d, stb := b, tx := tx, i := n, acc := acc, kacc := kacc, k := k }) ∧
      ((∃ v, i = .writeByte v) ∨ i = .readByte ∨ i = .strobeLow ∨ i = .strobeHigh →
        ∀ x, s.peer.storeAddr ≠ some x → t.peer.disp.read x = s.peer.disp.read x)

/-! ## Requests: the outcome -/

/-- R140: a request that arrives while another is in progress waits behind those that arrived before it; nothing else
changes, no waiting request is processed while `E.busy = 1`, and when `E.busy = 0` the oldest is processed as if it had
arrived then. That processing it is a step of its own is the model's choice (log entry 14). -/
def Obligations.BusyRequestsAreHeld : Prop :=
  ∀ (q : Request) (s : State),
    (s.eng.busy = true →
      exec q.toInstr s = .next { s with pending := s.pending ++ [q] } ∧
        ∀ t, step s = .next t → t.pending = s.pending) ∧
    (∀ rest, s.eng.busy = false → s.pending = q :: rest → step s = exec q.toInstr { s with pending := rest })

/-- R138, R139, R141: a malformed request is refused `Malformed` whatever `E.cfg` is; a well-formed one other than INIT
and SHUTDOWN is refused `NotInitialized` while `E.cfg = 0`, even where its operands would drop it. A refusal is
reported and changes nothing else. -/
def Obligations.RefusalsChangeNothing : Prop :=
  ∀ (q : Request) (s : State), s.eng.busy = false →
    (¬Spec.fits q → exec q.toInstr s = .next { s with reports := s.reports ++ [.refused q .malformed] }) ∧
    (Spec.fits q → ¬Spec.anyCfg q → s.eng.cfg = false →
      exec q.toInstr s = .next { s with reports := s.reports ++ [.refused q .notInitialized] })

/-- R135, R136, R137: under the two conditions of R135, and under no other, a request that is not held or refused is
dropped: no bus action, no state change, no `E.busy`; under `P_STRICT` the status is returned at once. -/
def Obligations.DropsChangeNothing : Prop :=
  ∀ (q : Request) (s : State), s.eng.busy = false → Spec.fits q → (s.eng.cfg = true ∨ Spec.anyCfg q) →
    (∀ st, Spec.dropped q st →
      ∃ t r, exec q.toInstr s = .next t ∧ r.status = st ∧
        t = { s with
          eng := { s.eng with rspStatus := if s.par.strict then some st else s.eng.rspStatus }
          reports := s.reports ++ [.dropped q r (if s.par.strict then some st else none)] }) ∧
    ((∀ st, ¬Spec.dropped q st) → ∃ t, exec q.toInstr s = .next t ∧ t.eng.busy = true)

/-- R50, R51: WRITE_REG is accepted exactly when `a <= 15`, WRITE_BUF exactly when `n >= 1` and `a + n <= 16` in the
naturals (an 8-bit sum that wraps does not accept it); otherwise each is dropped. -/
def Obligations.AddressRangeIsCheckedInTheNaturals : Prop :=
  ∀ (s : State), s.eng.busy = false → s.eng.cfg = true →
    (∀ a v, a ≤ 255 → v ≤ 255 → ∃ t, exec (.writeReg a v) s = .next t ∧
      (a ≤ 15 → t.eng.busy = true ∧ t.reports = s.reports ++ [.accepted (.writeReg a v)]) ∧
      (¬a ≤ 15 → t.eng.busy = false ∧
        ∃ st, t.reports = s.reports ++ [.dropped (.writeReg a v) .invalidAddress st])) ∧
    (∀ a n bytes, a ≤ 255 → n ≤ 255 → (∀ d ∈ bytes, d ≤ 255) → n ≤ bytes.length →
      ∃ t, exec (.writeBuf a n bytes) s = .next t ∧
        (1 ≤ n ∧ a + n ≤ 16 → t.eng.busy = true ∧ t.reports = s.reports ++ [.accepted (.writeBuf a n bytes)]) ∧
        (¬(1 ≤ n ∧ a + n ≤ 16) → t.eng.busy = false ∧
          ∃ st, t.reports = s.reports ++ [.dropped (.writeBuf a n bytes) .invalidAddress st]))

/-- R120 to R122: INIT and SHUTDOWN are accepted whatever `E.cfg` is. INIT writes `E.en`, `E.bri` and sets `E.cfg`;
SHUTDOWN clears `E.cfg` and keeps the others; each loads its actions. Nothing else changes yet. -/
def Obligations.LifecycleRequestsAreAccepted : Prop :=
  ∀ s : State, s.eng.busy = false →
    (∀ on b, b ≤ 7 → ∃ t, exec (.init on b) s = .next t ∧
      t = { s with
        eng := { s.eng with cfg := true, en := on, bri := BitVec.ofNat 3 b, busy := true, seq := t.eng.seq }
        reports := s.reports ++ [.accepted (.init on b)] } ∧
      actionsOf t.eng.seq = [.wr .stb true, .wr .clk true, .cfgOut .clk, .cfgOut .dio, .cfgOut .stb] ++
        Spec.writeCommandActions (Spec.ctrl on (BitVec.ofNat 3 b))) ∧
    (∃ t, exec .shutdown s = .next t ∧
      t = { s with
        eng := { s.eng with cfg := false, busy := true, seq := t.eng.seq }
        reports := s.reports ++ [.accepted .shutdown] } ∧
      actionsOf t.eng.seq =
        [.cfgIn .clk, .wr .clk false, .cfgIn .dio, .wr .dio false, .cfgIn .stb, .wr .stb false])

/-- R123 to R125: DISPLAY_ON sets the flag, DISPLAY_OFF clears it, SET_BRIGHTNESS writes the brightness, each whatever
the old value was, and each sends the display-control command for the result. Nothing else changes yet. -/
def Obligations.DisplayControlIsAccepted : Prop :=
  ∀ s : State, s.eng.busy = false → s.eng.cfg = true →
    (∃ t, exec .displayOn s = .next t ∧
      t = { s with
        eng := { s.eng with en := true, busy := true, seq := t.eng.seq }
        reports := s.reports ++ [.accepted .displayOn] } ∧
      actionsOf t.eng.seq = Spec.writeCommandActions (Spec.ctrl true s.eng.bri)) ∧
    (∃ t, exec .displayOff s = .next t ∧
      t = { s with
        eng := { s.eng with en := false, busy := true, seq := t.eng.seq }
        reports := s.reports ++ [.accepted .displayOff] } ∧
      actionsOf t.eng.seq = Spec.writeCommandActions (Spec.ctrl false s.eng.bri)) ∧
    (∀ b, b ≤ 7 → ∃ t, exec (.setBrightness b) s = .next t ∧
      t = { s with
        eng := { s.eng with bri := BitVec.ofNat 3 b, busy := true, seq := t.eng.seq }
        reports := s.reports ++ [.accepted (.setBrightness b)] } ∧
      actionsOf t.eng.seq = Spec.writeCommandActions (Spec.ctrl s.eng.en (BitVec.ofNat 3 b)))

/-- R126 to R129: CLEAR, WRITE_REG, WRITE_BUF and READ_KEYS, with valid operands, load their actions and change nothing
else yet; WRITE_BUF uses its first `n` bytes only. -/
def Obligations.TransfersAreAccepted : Prop :=
  ∀ s : State, s.eng.busy = false → s.eng.cfg = true →
    (∃ t, exec .clear s = .next t ∧
      t = { s with
        eng := { s.eng with busy := true, seq := t.eng.seq }, reports := s.reports ++ [.accepted .clear] } ∧
      actionsOf t.eng.seq = Spec.writeOpActions (Spec.writeAuto s.par.layout) 0 (List.replicate 16 0x00#8)) ∧
    (∀ a v, a ≤ 15 → v ≤ 255 → ∃ t, exec (.writeReg a v) s = .next t ∧
      t = { s with
        eng := { s.eng with busy := true, seq := t.eng.seq }
        reports := s.reports ++ [.accepted (.writeReg a v)] } ∧
      actionsOf t.eng.seq =
        Spec.writeOpActions (Spec.writeAuto s.par.layout) (BitVec.ofNat 4 a) [BitVec.ofNat 8 v]) ∧
    (∀ a n bytes, 1 ≤ n → a + n ≤ 16 → (∀ d ∈ bytes, d ≤ 255) → n ≤ bytes.length →
      ∃ t, exec (.writeBuf a n bytes) s = .next t ∧
      t = { s with
        eng := { s.eng with busy := true, seq := t.eng.seq }
        reports := s.reports ++ [.accepted (.writeBuf a n bytes)] } ∧
      actionsOf t.eng.seq =
        Spec.writeOpActions (Spec.writeAuto s.par.layout) (BitVec.ofNat 4 a)
          ((bytes.take n).map (BitVec.ofNat 8))) ∧
    (∃ t, exec .readKeys s = .next t ∧
      t = { s with
        eng := { s.eng with busy := true, seq := t.eng.seq }, reports := s.reports ++ [.accepted .readKeys] } ∧
      actionsOf t.eng.seq = Spec.readWindowActions (Spec.readKeys s.par.layout))

/-- R12, R163, R174: the expansion of every well-formed request is the spec's list of actions, with the spec's count of
actions and of `DELAY` actions. For an accepted request this is the list that R12 and R174 speak of. A well-formed
request that is dropped performs no action (DropsChangeNothing): for it the total value of the helper
`Request.expansion` is meant, which the machine never loads. -/
def Obligations.ExpansionsAreTheSpecsActions : Prop :=
  ∀ (lay : DataLayout) (e : Engine) (q : Request), Spec.fits q →
    actionsOf (q.expansion lay e) = Spec.actions lay e.en e.bri q ∧
      (actionsOf (q.expansion lay e)).length = Spec.actionCount q ∧
      delayCount (actionsOf (q.expansion lay e)) = Spec.delays q

/-- R131: WRITE_REG(a, v) and WRITE_BUF(a, 1, [v]) are dropped for the same addresses, have the same expansion and the
same strict status. -/
def Obligations.WriteRegEqualsWriteBufOfOne : Prop :=
  ∀ (a v : Nat) (s : State), a ≤ 255 → v ≤ 255 →
    ∃ t u, exec (.writeReg a v) s = .next t ∧ exec (.writeBuf a 1 [v]) s = .next u ∧
      (a ≤ 15 ↔ 1 ≥ 1 ∧ a + 1 ≤ 16) ∧ t.eng = u.eng ∧ t.peer = u.peer ∧ t.trace = u.trace

/-- R130: DISPLAY_OFF and DISPLAY_ON, in either order, keep the brightness: each loads the display-control command with
it, the trace of the two is exactly the two commands, which are two windows of one byte each, and the brightness is the
old one when the second has completed. The step counts take processing a request as a step of its own (log entry 14). -/
def Obligations.BrightnessSurvivesTheToggle : Prop :=
  ∀ (s : State) (first second : Request), s.eng.busy = false → s.eng.cfg = true →
    (first = .displayOff ∧ second = .displayOn ∨ first = .displayOn ∧ second = .displayOff) →
    s.pending = [first, second] →
    let c1 := Spec.ctrl (decide (first = .displayOn)) s.eng.bri
    let c2 := Spec.ctrl (decide (second = .displayOn)) s.eng.bri
    let evs := (Spec.writeCommandActions c1 ++ Spec.writeCommandActions c2).map (BusAction.event false)
    ∃ t u w, runSteps 1 s = .next t ∧ runSteps (1 + 42 + 1) s = .next u ∧ runSteps (1 + 42 + 1 + 42) s = .next w ∧
      t.eng.bri = s.eng.bri ∧ u.eng.bri = s.eng.bri ∧ w.eng.bri = s.eng.bri ∧
      actionsOf t.eng.seq = Spec.writeCommandActions c1 ∧ actionsOf u.eng.seq = Spec.writeCommandActions c2 ∧
      w.eng.busy = false ∧ w.eng.en = decide (second = .displayOn) ∧ w.pending = [] ∧ w.trace = s.trace ++ evs ∧
      (s.eng.stb = ⟨.out, some true⟩ → windowsOf s.eng.stb evs = [[.sent c1], [.sent c2]])

/-! ## Requests run to completion -/

/-- R29, R72, R145: stepping a request in progress performs the entries that are left, all of them and in order: after
as many steps as there are entries, the pins, the peer, the trace and the rest of the engine are what performing the
list gives, the engine is idle, and exactly one response has been delivered. The datapath ends with the request: its
registers and the count of draws are not spoken of (R30, log entry 28). -/
def Obligations.RunningTheSequenceIsPerformingIt : Prop :=
  ∀ s : State, s.eng.busy = true → s.eng.seq ≠ [] →
    ∃ t keys, runSteps s.eng.seq.length s = .next t ∧
      t = { runMicros s.eng.seq s with
        eng := { (runMicros s.eng.seq s).eng with
          busy := false, seq := [], rspStatus := if s.par.strict then some .ok else s.eng.rspStatus
          tx := t.eng.tx, i := t.eng.i, acc := t.eng.acc, kacc := t.eng.kacc, k := t.eng.k }
        drawn := t.drawn
        reports := s.reports ++ [.completed keys (if s.par.strict then some .ok else none)] }

/-- R126 to R128, R116, E1 and P2 of 95_test_vectors.md: a display write at the head of the line, with valid operands,
on a settled machine completes, and its windows are the write-mode window and the write window. WRITE_BUF takes
1 + (84 + 40n) steps: register `a + j` of the peer holds `bytes[j]`, every other is unchanged. WRITE_REG takes 1 + 124:
register `a` holds `v`, every other is unchanged. CLEAR takes 1 + 724: the 16 registers hold 0x00. Processing a request
is a step of its own (log entry 14). -/
def Obligations.WriteBufRunStoresItsBytes : Prop :=
  ∀ (rest : List Request) (s : State), Settled s → s.eng.busy = false → s.eng.cfg = true →
    (∀ (a n : Nat) (bytes : List Nat), s.pending = .writeBuf a n bytes :: rest → 1 ≤ n → a + n ≤ 16 →
      (∀ d ∈ bytes, d ≤ 255) → n ≤ bytes.length →
      ∃ t evs, runSteps (1 + (84 + 40 * n)) s = .next t ∧ t.eng.busy = false ∧ t.pending = rest ∧
        (∀ j (h : j < bytes.length), j < n → t.peer.disp.read (a + j) = BitVec.ofNat 8 bytes[j]) ∧
        (∀ x, (x < a ∨ a + n ≤ x) → t.peer.disp.read x = s.peer.disp.read x) ∧
        t.peer.ptr = some (a + n) ∧ t.peer.rw = some .write ∧ t.peer.am = some .auto ∧ t.peer.undef = false ∧
        t.trace = s.trace ++ evs ∧
        windowsOf s.eng.stb evs =
          [[.sent (Spec.writeAuto s.par.layout)],
            .sent (0xC0#8 ||| BitVec.ofNat 8 a) :: (bytes.take n).map (fun d => .sent (BitVec.ofNat 8 d))]) ∧
    (∀ a v : Nat, s.pending = .writeReg a v :: rest → a ≤ 15 → v ≤ 255 →
      ∃ t evs, runSteps (1 + 124) s = .next t ∧ t.eng.busy = false ∧ t.pending = rest ∧
        t.peer.disp.read a = BitVec.ofNat 8 v ∧ (∀ x, x ≠ a → t.peer.disp.read x = s.peer.disp.read x) ∧
        t.peer.ptr = some (a + 1) ∧ t.peer.rw = some .write ∧ t.peer.am = some .auto ∧ t.peer.undef = false ∧
        t.trace = s.trace ++ evs ∧
        windowsOf s.eng.stb evs =
          [[.sent (Spec.writeAuto s.par.layout)],
            [.sent (0xC0#8 ||| BitVec.ofNat 8 a), .sent (BitVec.ofNat 8 v)]]) ∧
    (s.pending = .clear :: rest →
      ∃ t evs, runSteps (1 + 724) s = .next t ∧ t.eng.busy = false ∧ t.pending = rest ∧
        (∀ x, x < 16 → t.peer.disp.read x = 0x00#8) ∧ (∀ x, 16 ≤ x → t.peer.disp.read x = s.peer.disp.read x) ∧
        t.peer.ptr = some 16 ∧ t.peer.rw = some .write ∧ t.peer.am = some .auto ∧ t.peer.undef = false ∧
        t.trace = s.trace ++ evs ∧
        windowsOf s.eng.stb evs =
          [[.sent (Spec.writeAuto s.par.layout)], .sent 0xC0#8 :: List.replicate 16 (.sent 0x00#8)])

/-- R129, R45, R54: a READ_KEYS at the head of the line on a settled machine completes after 1 + 210 steps (processing
it is a step of its own: log entry 14); its response is the mask whose bit 8k + j is bit j of key byte k as it was at
that bit's own clock, and no display register changes. -/
def Obligations.ReadKeysRunReturnsTheMask : Prop :=
  ∀ (ks keys : List KeyBytes) (rest : List Request) (s : State), Settled s → s.eng.busy = false → s.eng.cfg = true →
    s.pending = .readKeys :: rest → ks.length = 32 → s.keypad = ks ++ keys →
    ∃ t mask, runSteps (1 + 210) s = .next t ∧ t.eng.busy = false ∧ t.pending = rest ∧ t.eng.rspKeys = mask ∧
      (∀ n (h : n < ks.length), mask.getLsbD n = (ks[n].get (n / 8)).getLsbD (n % 8)) ∧
      t.reports = s.reports ++
        [.accepted .readKeys, .completed (some mask) (if s.par.strict then some .ok else none)] ∧
      t.peer.disp = s.peer.disp ∧ t.peer.undef = false ∧ t.peer.rw = some .read ∧ t.eng.en = s.eng.en ∧
      t.eng.bri = s.eng.bri ∧ t.eng.dio.mode = .out

/-- R121, R122, R132, R160: on a settled machine an INIT at the head of the line completes after 1 + 47 steps with the
bus idle and the peer's display control set to its operands, and writes no display register; a SHUTDOWN completes after
1 + 6 steps with the three pins released, and tells the peer nothing. Processing a request is a step of its own (log
entry 14). -/
def Obligations.LifecycleRunsConfigureAndReleaseThePins : Prop :=
  ∀ (rest : List Request) (s : State), Settled s → s.eng.busy = false →
    (∀ on b, b ≤ 7 → s.pending = .init on b :: rest →
      ∃ t, runSteps (1 + 47) s = .next t ∧ t.eng.busy = false ∧ t.eng.cfg = true ∧ BusIdle t.eng ∧
        PeerQuiet t.peer ∧ t.peer.on = on ∧ t.peer.bri = BitVec.ofNat 3 b ∧ t.peer.undef = false ∧
        t.peer.disp = s.peer.disp ∧ t.pending = rest) ∧
    (s.pending = .shutdown :: rest →
      ∃ t, runSteps (1 + 6) s = .next t ∧ t.eng.busy = false ∧ t.eng.cfg = false ∧ PinsReleased t.eng ∧
        t.peer = s.peer ∧ t.eng.en = s.eng.en ∧ t.eng.bri = s.eng.bri ∧ t.pending = rest)

/-- R132: when an accepted request other than SHUTDOWN completes, `E.cfg = 1`, CLK and STB are `Out` with latch 1, DIO
is `Out`, and the peer is outside a window; when SHUTDOWN completes, all three pins are `In` with latch 0 and `E.cfg =
0`. Processing a request is a step of its own (log entry 14). -/
def Obligations.BusIsIdleAfterEveryRequest : Prop :=
  ∀ (q : Request) (s : State), Settled s → s.eng.busy = false → Spec.fits q → (s.eng.cfg = true ∨ Spec.anyCfg q) →
    (∀ st, ¬Spec.dropped q st) →
    ∃ t, runSteps (1 + Spec.actionCount q) (s.setPending [q]) = .next t ∧ t.eng.busy = false ∧
      (q ≠ .shutdown → t.eng.cfg = true ∧ BusIdle t.eng) ∧
      (q = .shutdown → t.eng.cfg = false ∧ PinsReleased t.eng) ∧ PeerQuiet t.peer ∧ t.peer.undef = false

/-! ## Invariants and whole-machine rules -/

/-- No step of the engine, whatever requests arrive and whatever the keypad does, brings the peer into a case the spec
leaves open: a safe state steps to a safe state (items 16 to 20 of 93_implementation_defined.md; R102, R103, R106,
R132). -/
def Obligations.SafeRunIsKeptByEveryStep : Prop :=
  ∀ s t : State, SafeRun s → step s = .next t → SafeRun t

/-- The state after reset is safe. -/
def Obligations.ResetIsASafeRun : Prop := SafeRun State.reset

/-- In a safe state the peer's sticky flag is clear, and while no request is in progress the peer is outside a window
and the pins are as R132 says: the bus idle while `E.cfg = 1`; while `E.cfg = 0`, the three pins released by a SHUTDOWN
or as they were at creation (R156). -/
def Obligations.SafeRunKeepsUndefClear : Prop :=
  ∀ s : State, SafeRun s →
    s.peer.undef = false ∧
      (s.eng.busy = false → PeerQuiet s.peer ∧ (s.eng.cfg = true → BusIdle s.eng) ∧
        (s.eng.cfg = false → PinsReleased s.eng ∨ PinsFresh s.eng))

/-- The display registers keep their canonical form and the pointer stays at most 16 (R35, R44), whatever `exec`
runs. -/
def Obligations.PeerBoundsAreKept : Prop :=
  ∀ (i : Instr) (s t : State), PeerBounds s.peer → exec i s = .next t → PeerBounds t.peer

/-- Nothing clears `T.undef` (R39). -/
def Obligations.UndefIsSticky : Prop :=
  ∀ (i : Instr) (s t : State), s.peer.undef = true → exec i s = .next t → t.peer.undef = true

/-- R22, R23, R21: `E.en` changes only when an INIT, a DISPLAY_ON or a DISPLAY_OFF is accepted, `E.bri` only with an
INIT or a SET_BRIGHTNESS, `E.cfg` only with an INIT or a SHUTDOWN; never in a step that performs a bus action. The
parameters never change. -/
def Obligations.ControlStateChangesOnlyByItsRequests : Prop :=
  ∀ s t : State, step s = .next t →
    t.par = s.par ∧
    (t.eng.en ≠ s.eng.en → s.eng.busy = false ∧
      ∃ q rest, s.pending = q :: rest ∧ t.reports = s.reports ++ [.accepted q] ∧
        ((∃ on b, q = .init on b) ∨ q = .displayOn ∨ q = .displayOff)) ∧
    (t.eng.bri ≠ s.eng.bri → s.eng.busy = false ∧
      ∃ q rest, s.pending = q :: rest ∧ t.reports = s.reports ++ [.accepted q] ∧
        ((∃ on b, q = .init on b) ∨ ∃ b, q = .setBrightness b)) ∧
    (t.eng.cfg ≠ s.eng.cfg → s.eng.busy = false ∧
      ∃ q rest, s.pending = q :: rest ∧ t.reports = s.reports ++ [.accepted q] ∧
        ((∃ on b, q = .init on b) ∨ q = .shutdown))

/-- R27, R29, R153: a step in progress appends to the trace exactly the action at the head of `E.seq` and removes it;
any other step performs no bus action. That there are such other steps, one that processes a waiting request and one
with nothing to do, is the model's choice (log entry 14). -/
def Obligations.EachStepPerformsTheHeadAction : Prop :=
  ∀ s t : State, step s = .next t →
    (s.eng.busy = true → ∃ m b, s.eng.seq = m :: t.eng.seq ∧ t.trace = s.trace ++ [m.act.event b] ∧
      (t.eng.busy = true ↔ t.eng.seq ≠ [])) ∧
    (s.eng.busy = false → t.trace = s.trace ∧ t.peer = s.peer ∧ (∀ p, t.eng.pin p = s.eng.pin p))

/-- R32, R64: a display register changes in a step only when the step performs the rise of CLK that completes a payload
byte, and only the register at the peer's store address. -/
def Obligations.DisplayRegistersChangeOnlyByPayload : Prop :=
  ∀ (s t : State) (a : Nat), step s = .next t → t.peer.disp.read a ≠ s.peer.disp.read a →
    s.eng.busy = true ∧ (s.eng.seq.head?.map Micro.act) = some (.wr .clk true) ∧ s.peer.win = true ∧
      s.peer.tx = false ∧ s.peer.nbits = 7 ∧ s.peer.nbytes ≠ 0 ∧ s.peer.storeAddr = some a

/-- R5, R137: `P_STRICT` changes the responses only. Two machines that differ in nothing but `P_STRICT`, the status and
the reports still differ in nothing else after a step of each: the bus actions are the same. -/
def Obligations.StrictChangesOnlyTheResponses : Prop :=
  ∀ s u t : State,
    u = { s with
      par := { s.par with strict := u.par.strict }
      eng := { s.eng with rspStatus := u.eng.rspStatus }
      reports := u.reports } →
    step s = .next t →
    ∃ v, step u = .next v ∧
      v = { t with
        par := { t.par with strict := v.par.strict }
        eng := { t.eng with rspStatus := v.eng.rspStatus }
        reports := v.reports }

/-- R12, R142: the engine does not depend on the peer. Two machines with the same parameters, the same waiting requests
and engines that differ only in the transient datapath and the key response (what was read from DIO, and the free values
of the datapath between requests, log entry 28), whatever their peers, perform the same action in a step and remain
such. -/
def Obligations.EngineIgnoresThePeer : Prop :=
  ∀ s u t v : State,
    (s.par = u.par ∧ s.pending = u.pending ∧ s.trace.map BusEvent.action = u.trace.map BusEvent.action ∧
      s.eng = { u.eng with
        tx := s.eng.tx, i := s.eng.i, acc := s.eng.acc, kacc := s.eng.kacc, k := s.eng.k
        rspKeys := s.eng.rspKeys }) →
    step s = .next t → step u = .next v →
    t.par = v.par ∧ t.pending = v.pending ∧ t.trace.map BusEvent.action = v.trace.map BusEvent.action ∧
      t.eng = { v.eng with
        tx := t.eng.tx, i := t.eng.i, acc := t.eng.acc, kacc := t.eng.kacc, k := t.eng.k
        rspKeys := t.eng.rspKeys }
end

