-- ==== Sys2Proof/Laws/State.lean ====
section
/-! SUPPORT. One lemma per field of the state per update, true by rfl. -/

namespace Sys2Proof.Machine

/-! ## The parts of the state -/

@[simp] theorem State.setEng_par (s : State) (e : Engine) : (s.setEng e).par = s.par := rfl
@[simp] theorem State.setEng_eng (s : State) (e : Engine) : (s.setEng e).eng = e := rfl
@[simp] theorem State.setEng_peer (s : State) (e : Engine) : (s.setEng e).peer = s.peer := rfl
@[simp] theorem State.setEng_pending (s : State) (e : Engine) : (s.setEng e).pending = s.pending := rfl
@[simp] theorem State.setEng_reports (s : State) (e : Engine) : (s.setEng e).reports = s.reports := rfl
@[simp] theorem State.setEng_trace (s : State) (e : Engine) : (s.setEng e).trace = s.trace := rfl
@[simp] theorem State.setEng_keypad (s : State) (e : Engine) : (s.setEng e).keypad = s.keypad := rfl
@[simp] theorem State.setEng_drawn (s : State) (e : Engine) : (s.setEng e).drawn = s.drawn := rfl

@[simp] theorem State.setPeer_par (s : State) (t : Peer) : (s.setPeer t).par = s.par := rfl
@[simp] theorem State.setPeer_eng (s : State) (t : Peer) : (s.setPeer t).eng = s.eng := rfl
@[simp] theorem State.setPeer_peer (s : State) (t : Peer) : (s.setPeer t).peer = t := rfl
@[simp] theorem State.setPeer_pending (s : State) (t : Peer) : (s.setPeer t).pending = s.pending := rfl
@[simp] theorem State.setPeer_reports (s : State) (t : Peer) : (s.setPeer t).reports = s.reports := rfl
@[simp] theorem State.setPeer_trace (s : State) (t : Peer) : (s.setPeer t).trace = s.trace := rfl
@[simp] theorem State.setPeer_keypad (s : State) (t : Peer) : (s.setPeer t).keypad = s.keypad := rfl
@[simp] theorem State.setPeer_drawn (s : State) (t : Peer) : (s.setPeer t).drawn = s.drawn := rfl

@[simp] theorem State.setPending_par (s : State) (qs : List Request) : (s.setPending qs).par = s.par := rfl
@[simp] theorem State.setPending_eng (s : State) (qs : List Request) : (s.setPending qs).eng = s.eng := rfl
@[simp] theorem State.setPending_peer (s : State) (qs : List Request) : (s.setPending qs).peer = s.peer := rfl
@[simp] theorem State.setPending_pending (s : State) (qs : List Request) : (s.setPending qs).pending = qs := rfl
@[simp] theorem State.setPending_reports (s : State) (qs : List Request) : (s.setPending qs).reports = s.reports := rfl
@[simp] theorem State.setPending_trace (s : State) (qs : List Request) : (s.setPending qs).trace = s.trace := rfl
@[simp] theorem State.setPending_keypad (s : State) (qs : List Request) : (s.setPending qs).keypad = s.keypad := rfl
@[simp] theorem State.setPending_drawn (s : State) (qs : List Request) : (s.setPending qs).drawn = s.drawn := rfl

@[simp] theorem State.report_par (s : State) (r : Report) : (s.report r).par = s.par := rfl
@[simp] theorem State.report_eng (s : State) (r : Report) : (s.report r).eng = s.eng := rfl
@[simp] theorem State.report_peer (s : State) (r : Report) : (s.report r).peer = s.peer := rfl
@[simp] theorem State.report_pending (s : State) (r : Report) : (s.report r).pending = s.pending := rfl
@[simp] theorem State.report_reports (s : State) (r : Report) : (s.report r).reports = s.reports ++ [r] := rfl
@[simp] theorem State.report_trace (s : State) (r : Report) : (s.report r).trace = s.trace := rfl
@[simp] theorem State.report_keypad (s : State) (r : Report) : (s.report r).keypad = s.keypad := rfl
@[simp] theorem State.report_drawn (s : State) (r : Report) : (s.report r).drawn = s.drawn := rfl

@[simp] theorem State.record_par (s : State) (v : BusEvent) : (s.record v).par = s.par := rfl
@[simp] theorem State.record_eng (s : State) (v : BusEvent) : (s.record v).eng = s.eng := rfl
@[simp] theorem State.record_peer (s : State) (v : BusEvent) : (s.record v).peer = s.peer := rfl
@[simp] theorem State.record_pending (s : State) (v : BusEvent) : (s.record v).pending = s.pending := rfl
@[simp] theorem State.record_reports (s : State) (v : BusEvent) : (s.record v).reports = s.reports := rfl
@[simp] theorem State.record_trace (s : State) (v : BusEvent) : (s.record v).trace = s.trace ++ [v] := rfl
@[simp] theorem State.record_keypad (s : State) (v : BusEvent) : (s.record v).keypad = s.keypad := rfl
@[simp] theorem State.record_drawn (s : State) (v : BusEvent) : (s.record v).drawn = s.drawn := rfl

/-! ## Draws -/

@[simp] theorem State.drawBit_par (s : State) : s.drawBit.2.par = s.par := rfl
@[simp] theorem State.drawBit_eng (s : State) : s.drawBit.2.eng = s.eng := rfl
@[simp] theorem State.drawBit_peer (s : State) : s.drawBit.2.peer = s.peer := rfl
@[simp] theorem State.drawBit_pending (s : State) : s.drawBit.2.pending = s.pending := rfl
@[simp] theorem State.drawBit_reports (s : State) : s.drawBit.2.reports = s.reports := rfl
@[simp] theorem State.drawBit_trace (s : State) : s.drawBit.2.trace = s.trace := rfl
@[simp] theorem State.drawBit_keypad (s : State) : s.drawBit.2.keypad = s.keypad := rfl
@[simp] theorem State.drawBit_drawn (s : State) : s.drawBit.2.drawn = s.drawn + 1 := rfl
@[simp] theorem State.drawBit_fst (s : State) : s.drawBit.1 = Config.freeBit s.drawn := rfl

@[simp] theorem State.drawKeys_par (s : State) : s.drawKeys.2.par = s.par := by
  unfold State.drawKeys; split <;> rfl
@[simp] theorem State.drawKeys_eng (s : State) : s.drawKeys.2.eng = s.eng := by
  unfold State.drawKeys; split <;> rfl
@[simp] theorem State.drawKeys_peer (s : State) : s.drawKeys.2.peer = s.peer := by
  unfold State.drawKeys; split <;> rfl
@[simp] theorem State.drawKeys_pending (s : State) : s.drawKeys.2.pending = s.pending := by
  unfold State.drawKeys; split <;> rfl
@[simp] theorem State.drawKeys_reports (s : State) : s.drawKeys.2.reports = s.reports := by
  unfold State.drawKeys; split <;> rfl
@[simp] theorem State.drawKeys_trace (s : State) : s.drawKeys.2.trace = s.trace := by
  unfold State.drawKeys; split <;> rfl

/-- What the environment presents is what the peer sees, and it is used up (R33, R66). -/
theorem State.drawKeys_cons (s : State) (ks : KeyBytes) (rest : List KeyBytes) (h : s.keypad = ks :: rest) :
    s.drawKeys = (ks, { s with keypad := rest }) := by
  unfold State.drawKeys; rw [h]

/-! ## Pins -/

@[simp] theorem Engine.pin_clk (e : Engine) : e.pin .clk = e.clk := rfl
@[simp] theorem Engine.pin_dio (e : Engine) : e.pin .dio = e.dio := rfl
@[simp] theorem Engine.pin_stb (e : Engine) : e.pin .stb = e.stb := rfl
@[simp] theorem Engine.setPin_clk (e : Engine) (q : PinState) : e.setPin .clk q = { e with clk := q } := rfl
@[simp] theorem Engine.setPin_dio (e : Engine) (q : PinState) : e.setPin .dio q = { e with dio := q } := rfl
@[simp] theorem Engine.setPin_stb (e : Engine) (q : PinState) : e.setPin .stb q = { e with stb := q } := rfl

theorem Engine.setPin_pin (e : Engine) (p : Pin) (q : PinState) : (e.setPin p q).pin p = q := by cases p <;> rfl

theorem Engine.setPin_pin_other (e : Engine) (p p' : Pin) (q : PinState) (h : p' ≠ p) :
    (e.setPin p q).pin p' = e.pin p' := by
  cases p <;> cases p' <;> first | rfl | exact absurd rfl h

theorem Engine.setPin_self (e : Engine) (p : Pin) : e.setPin p (e.pin p) = e := by cases p <;> rfl

@[simp] theorem Engine.setPin_cfg (e : Engine) (p : Pin) (q : PinState) : (e.setPin p q).cfg = e.cfg := by cases p <;> rfl
@[simp] theorem Engine.setPin_en (e : Engine) (p : Pin) (q : PinState) : (e.setPin p q).en = e.en := by cases p <;> rfl
@[simp] theorem Engine.setPin_bri (e : Engine) (p : Pin) (q : PinState) : (e.setPin p q).bri = e.bri := by cases p <;> rfl
@[simp] theorem Engine.setPin_busy (e : Engine) (p : Pin) (q : PinState) : (e.setPin p q).busy = e.busy := by cases p <;> rfl
@[simp] theorem Engine.setPin_seq (e : Engine) (p : Pin) (q : PinState) : (e.setPin p q).seq = e.seq := by cases p <;> rfl
@[simp] theorem Engine.setPin_tx (e : Engine) (p : Pin) (q : PinState) : (e.setPin p q).tx = e.tx := by cases p <;> rfl
@[simp] theorem Engine.setPin_i (e : Engine) (p : Pin) (q : PinState) : (e.setPin p q).i = e.i := by cases p <;> rfl
@[simp] theorem Engine.setPin_acc (e : Engine) (p : Pin) (q : PinState) : (e.setPin p q).acc = e.acc := by cases p <;> rfl
@[simp] theorem Engine.setPin_kacc (e : Engine) (p : Pin) (q : PinState) : (e.setPin p q).kacc = e.kacc := by cases p <;> rfl
@[simp] theorem Engine.setPin_k (e : Engine) (p : Pin) (q : PinState) : (e.setPin p q).k = e.k := by cases p <;> rfl
@[simp] theorem Engine.setPin_rspKeys (e : Engine) (p : Pin) (q : PinState) : (e.setPin p q).rspKeys = e.rspKeys := by cases p <;> rfl
@[simp] theorem Engine.setPin_rspStatus (e : Engine) (p : Pin) (q : PinState) : (e.setPin p q).rspStatus = e.rspStatus := by cases p <;> rfl

/-! ## The end of the datapath -/

@[simp] theorem Engine.freeDatapath_cfg (e : Engine) (n : Nat) : (e.freeDatapath n).cfg = e.cfg := rfl
@[simp] theorem Engine.freeDatapath_en (e : Engine) (n : Nat) : (e.freeDatapath n).en = e.en := rfl
@[simp] theorem Engine.freeDatapath_bri (e : Engine) (n : Nat) : (e.freeDatapath n).bri = e.bri := rfl
@[simp] theorem Engine.freeDatapath_clk (e : Engine) (n : Nat) : (e.freeDatapath n).clk = e.clk := rfl
@[simp] theorem Engine.freeDatapath_dio (e : Engine) (n : Nat) : (e.freeDatapath n).dio = e.dio := rfl
@[simp] theorem Engine.freeDatapath_stb (e : Engine) (n : Nat) : (e.freeDatapath n).stb = e.stb := rfl
@[simp] theorem Engine.freeDatapath_busy (e : Engine) (n : Nat) : (e.freeDatapath n).busy = e.busy := rfl
@[simp] theorem Engine.freeDatapath_seq (e : Engine) (n : Nat) : (e.freeDatapath n).seq = e.seq := rfl
@[simp] theorem Engine.freeDatapath_rspKeys (e : Engine) (n : Nat) : (e.freeDatapath n).rspKeys = e.rspKeys := rfl
@[simp] theorem Engine.freeDatapath_rspStatus (e : Engine) (n : Nat) : (e.freeDatapath n).rspStatus = e.rspStatus := rfl
@[simp] theorem Engine.freeDatapath_pin (e : Engine) (n : Nat) (p : Pin) : (e.freeDatapath n).pin p = e.pin p := by
  cases p <;> rfl

@[simp] theorem State.endDatapath_par (s : State) : s.endDatapath.par = s.par := rfl
@[simp] theorem State.endDatapath_peer (s : State) : s.endDatapath.peer = s.peer := rfl
@[simp] theorem State.endDatapath_pending (s : State) : s.endDatapath.pending = s.pending := rfl
@[simp] theorem State.endDatapath_reports (s : State) : s.endDatapath.reports = s.reports := rfl
@[simp] theorem State.endDatapath_trace (s : State) : s.endDatapath.trace = s.trace := rfl
@[simp] theorem State.endDatapath_keypad (s : State) : s.endDatapath.keypad = s.keypad := rfl
@[simp] theorem State.endDatapath_eng (s : State) : s.endDatapath.eng = s.eng.freeDatapath s.drawn := rfl
@[simp] theorem State.endDatapath_drawn (s : State) : s.endDatapath.drawn = s.drawn + 1 := rfl

/-! ## The peer -/

@[simp] theorem Peer.setUndef_disp (t : Peer) : t.setUndef.disp = t.disp := rfl
@[simp] theorem Peer.setUndef_key (t : Peer) : t.setUndef.key = t.key := rfl
@[simp] theorem Peer.setUndef_rw (t : Peer) : t.setUndef.rw = t.rw := rfl
@[simp] theorem Peer.setUndef_am (t : Peer) : t.setUndef.am = t.am := rfl
@[simp] theorem Peer.setUndef_ptr (t : Peer) : t.setUndef.ptr = t.ptr := rfl
@[simp] theorem Peer.setUndef_on (t : Peer) : t.setUndef.on = t.on := rfl
@[simp] theorem Peer.setUndef_bri (t : Peer) : t.setUndef.bri = t.bri := rfl
@[simp] theorem Peer.setUndef_win (t : Peer) : t.setUndef.win = t.win := rfl
@[simp] theorem Peer.setUndef_nbytes (t : Peer) : t.setUndef.nbytes = t.nbytes := rfl
@[simp] theorem Peer.setUndef_nbits (t : Peer) : t.setUndef.nbits = t.nbits := rfl
@[simp] theorem Peer.setUndef_sh (t : Peer) : t.setUndef.sh = t.sh := rfl
@[simp] theorem Peer.setUndef_cmd (t : Peer) : t.setUndef.cmd = t.cmd := rfl
@[simp] theorem Peer.setUndef_tx (t : Peer) : t.setUndef.tx = t.tx := rfl
@[simp] theorem Peer.setUndef_kidx (t : Peer) : t.setUndef.kidx = t.kidx := rfl
@[simp] theorem Peer.setUndef_kbit (t : Peer) : t.setUndef.kbit = t.kbit := rfl
@[simp] theorem Peer.setUndef_drive (t : Peer) : t.setUndef.drive = t.drive := rfl
@[simp] theorem Peer.setUndef_undef (t : Peer) : t.setUndef.undef = true := rfl

end Sys2Proof.Machine
end

