-- ==== Sys2Proof/Laws/Memory.lean ====
section
/-! SUPPORT. The display registers: reading after writing, and the canonical form. -/

namespace Sys2Proof.Machine

/-- A write is read back at its own address. -/
theorem Memory.read_write_same (m : Memory) (a : Nat) (v : Byte) : (m.write a v).read a = v := by
  induction m with
  | nil => simp [Memory.write, Memory.read]
  | cons c rest ih =>
    obtain ⟨x, w⟩ := c
    unfold Memory.write
    split
    · simp [Memory.read]
    · split
      · simp [Memory.read]
      · next h1 h2 => rw [Memory.read, if_neg (fun h => h2 h.symm)]; exact ih

/-- A write leaves every other address alone. -/
theorem Memory.read_write_other (m : Memory) (a b : Nat) (v : Byte) (h : b ≠ a) :
    (m.write a v).read b = m.read b := by
  induction m with
  | nil => simp [Memory.write, Memory.read, Ne.symm h]
  | cons c rest ih =>
    obtain ⟨x, w⟩ := c
    unfold Memory.write
    split
    · simp [Memory.read, Ne.symm h]
    · split
      · next h2 => subst h2; simp [Memory.read, Ne.symm h]
      · simp only [Memory.read, ih]

/-- Every cell after a write is the new one or an old one. -/
theorem Memory.mem_write (m : Memory) (a : Nat) (v : Byte) (c : Host.Cell) (h : c ∈ m.write a v) :
    c = (a, v) ∨ c ∈ m := by
  induction m with
  | nil => simpa [Memory.write] using h
  | cons d rest ih =>
    obtain ⟨x, w⟩ := d
    unfold Memory.write at h
    split at h
    · simpa using h
    · split at h
      · simp only [List.mem_cons] at h ⊢; tauto
      · simp only [List.mem_cons] at h ⊢
        rcases h with h | h
        · exact .inr (.inl h)
        · rcases ih h with h | h
          · exact .inl h
          · exact .inr (.inr h)

/-- A write to an address of DSP keeps the canonical form. -/
theorem Memory.write_wf (m : Memory) (a : Nat) (v : Byte) (hm : m.wf) (ha : a < Config.nDisp) : (m.write a v).wf := by
  obtain ⟨hs, hb⟩ := hm
  refine ⟨?_, fun c hc => ?_⟩
  · clear hb
    induction m with
    | nil => simp [Memory.write]
    | cons d rest ih =>
      obtain ⟨x, w⟩ := d
      rw [List.pairwise_cons] at hs
      unfold Memory.write
      split
      · next h =>
        refine List.pairwise_cons.2 ⟨fun c hc => ?_, List.pairwise_cons.2 hs⟩
        rcases List.mem_cons.1 hc with rfl | hc
        · exact h
        · exact lt_trans h (hs.1 c hc)
      · split
        · next h => subst h; exact List.pairwise_cons.2 hs
        · refine List.pairwise_cons.2 ⟨fun c hc => ?_, ih hs.2⟩
          rcases Memory.mem_write rest a v c hc with rfl | hc
          · simp only; omega
          · exact hs.1 c hc
  · rcases Memory.mem_write m a v c hc with rfl | hc
    · exact ha
    · exact hb c hc

/-- The display registers at power-on are in canonical form. -/
theorem Memory.reset_wf : State.reset.peer.disp.wf := by decide

/-- Nothing has been written at power-on (R157). -/
theorem Memory.reset_read (a : Nat) : State.reset.peer.disp.read a = Config.freeDisp a := rfl

end Sys2Proof.Machine
end

