-- ==== Sys2Proof/Laws/Ops.lean ====
section
/-! SUPPORT. One lemma per shared operation that says what it can do: levels and edges, the peer's reactions, one bus action, lists of entries. -/

namespace Sys2Proof.Machine

/-! ## Wires -/

/-- The level the engine gives a wire (R26): the latch of a pin that is `Out`. -/
def PinState.driven (q : PinState) : Option Level :=
  match q.mode with
  | .out => q.latch
  | .inp => none
  | .unconf => none

@[simp] theorem PinState.driven_out (l : Option Level) : PinState.driven ⟨.out, l⟩ = l := rfl
@[simp] theorem PinState.driven_inp (l : Option Level) : PinState.driven ⟨.inp, l⟩ = none := rfl
@[simp] theorem PinState.driven_unconf (l : Option Level) : PinState.driven ⟨.unconf, l⟩ = none := rfl

/-- CLK and STB are driven by the engine only (R26). -/
theorem level_clk (s : State) : level s .clk = s.eng.clk.driven := by
  unfold PinState.driven
  cases h : s.eng.clk.mode <;> simp [level, peerDrives, h]

theorem level_stb (s : State) : level s .stb = s.eng.stb.driven := by
  unfold PinState.driven
  cases h : s.eng.stb.mode <;> simp [level, peerDrives, h]

/-- DIO when the peer does not drive it (R26). -/
theorem level_dio_of_not_driven (s : State) (h : s.peer.drive = none) : level s .dio = s.eng.dio.driven := by
  unfold PinState.driven
  cases h' : s.eng.dio.mode <;> simp [level, peerDrives, h, h']

/-- DIO when the peer drives it (R26, R68). -/
theorem level_dio_of_driven (s : State) (b : Level) (h : s.peer.drive = some b) :
    level s .dio = if s.eng.dio.mode = .out then none else some b := by
  simp [level, peerDrives, h]

@[simp] theorem wireChange_self (l : Option Level) : wireChange l l = .none := by
  rcases l with _ | _ | _ <;> rfl

/-! ## The peer's reactions -/

@[simp] theorem Peer.onStb_none (t : Peer) : t.onStb .none = t := rfl
@[simp] theorem reactClk_none (s : State) : reactClk .none s = s := rfl
@[simp] theorem reactStb_none (s : State) : reactStb .none s = s := rfl

/-- Without contention nothing is flagged (R68). -/
theorem flagContention_eq (s : State) (h : s.eng.dio.mode ≠ .out ∨ s.peer.drive = none) : flagContention s = s := by
  unfold flagContention contention
  rcases h with h | h <;> simp [h]

/-- What a reaction of the peer cannot touch: everything but the peer, the keypad input and the draw counter. -/
theorem reactClk_frame (c : WireChange) (s : State) :
    (reactClk c s).par = s.par ∧ (reactClk c s).eng = s.eng ∧ (reactClk c s).pending = s.pending ∧
      (reactClk c s).reports = s.reports ∧ (reactClk c s).trace = s.trace := by
  unfold reactClk
  cases c <;> dsimp only <;> (repeat' split) <;> simp

theorem flagContention_frame (s : State) :
    (flagContention s).par = s.par ∧ (flagContention s).eng = s.eng ∧ (flagContention s).pending = s.pending ∧
      (flagContention s).reports = s.reports ∧ (flagContention s).trace = s.trace ∧
      (flagContention s).keypad = s.keypad ∧ (flagContention s).drawn = s.drawn := by
  unfold flagContention
  split <;> simp

theorem react_frame (old new : State) :
    (react old new).par = new.par ∧ (react old new).eng = new.eng ∧ (react old new).pending = new.pending ∧
      (react old new).reports = new.reports ∧ (react old new).trace = new.trace := by
  have h1 := flagContention_frame
    (reactClk (wireChange (level old .clk) (level new .clk))
      (reactStb (wireChange (level old .stb) (level new .stb)) new))
  have h2 := reactClk_frame (wireChange (level old .clk) (level new .clk))
    (reactStb (wireChange (level old .stb) (level new .stb)) new)
  unfold react
  refine ⟨h1.1.trans h2.1, h1.2.1.trans h2.2.1, h1.2.2.1.trans h2.2.2.1, h1.2.2.2.1.trans h2.2.2.2.1,
    h1.2.2.2.2.1.trans h2.2.2.2.2⟩

/-- When neither CLK nor STB changes, the peer reacts to contention only (R56, R68). -/
theorem react_of_same (old new : State) (hc : level new .clk = level old .clk) (hs : level new .stb = level old .stb) :
    react old new = flagContention new := by
  simp [react, hc, hs]

/-! ## One bus action -/

theorem actOnPin_frame (p : Pin) (q : PinState) (ev : BusEvent) (s : State) :
    (actOnPin p q ev s).par = s.par ∧ (actOnPin p q ev s).eng = s.eng.setPin p q ∧
      (actOnPin p q ev s).pending = s.pending ∧ (actOnPin p q ev s).reports = s.reports ∧
      (actOnPin p q ev s).trace = s.trace ++ [ev] := by
  unfold actOnPin
  simpa using react_frame s ((s.setEng (s.eng.setPin p q)).record ev)

/-- An action on DIO is seen by the peer only as contention (R56, R68). -/
theorem actOnPin_dio (q : PinState) (ev : BusEvent) (s : State) :
    actOnPin .dio q ev s = flagContention ((s.setEng (s.eng.setPin .dio q)).record ev) := by
  unfold actOnPin
  apply react_of_same <;> simp [level_clk, level_stb]

/-- `RD` records its answer and may count a draw; nothing else changes (R98). -/
theorem doRd_frame (p : Pin) (s : State) :
    (doRd p s).par = s.par ∧ (doRd p s).eng = s.eng ∧
      (doRd p s).peer = s.peer ∧ (doRd p s).pending = s.pending ∧ (doRd p s).reports = s.reports ∧
      (doRd p s).trace = s.trace ++ [.rd p (sampleWire p s).1] ∧ (doRd p s).keypad = s.keypad := by
  unfold doRd sampleWire
  cases level s p <;> simp

@[simp] theorem actOnPin_par (p : Pin) (q : PinState) (ev : BusEvent) (s : State) :
    (actOnPin p q ev s).par = s.par := (actOnPin_frame p q ev s).1
@[simp] theorem actOnPin_eng (p : Pin) (q : PinState) (ev : BusEvent) (s : State) :
    (actOnPin p q ev s).eng = s.eng.setPin p q := (actOnPin_frame p q ev s).2.1
@[simp] theorem actOnPin_pending (p : Pin) (q : PinState) (ev : BusEvent) (s : State) :
    (actOnPin p q ev s).pending = s.pending := (actOnPin_frame p q ev s).2.2.1
@[simp] theorem actOnPin_reports (p : Pin) (q : PinState) (ev : BusEvent) (s : State) :
    (actOnPin p q ev s).reports = s.reports := (actOnPin_frame p q ev s).2.2.2.1
@[simp] theorem actOnPin_trace (p : Pin) (q : PinState) (ev : BusEvent) (s : State) :
    (actOnPin p q ev s).trace = s.trace ++ [ev] := (actOnPin_frame p q ev s).2.2.2.2

/-- One bus action leaves exactly its own event, with an answer if it is `RD` (R153). -/
theorem performAct_trace (a : BusAction) (s : State) :
    ∃ b, (performAct a s).trace = s.trace ++ [a.event b] := by
  cases a with
  | rd p => exact ⟨_, (doRd_frame p s).2.2.2.2.2.1⟩
  | _ => exact ⟨false, by simp [performAct, doDelay, doCfgOut, doCfgIn, doWr, BusAction.event]⟩

/-- Writing a pin changes the three pins at most. -/
theorem Engine.setPin_form (e : Engine) (p : Pin) (q : PinState) :
    ∃ c d b, e.setPin p q = { e with clk := c, dio := d, stb := b } := by
  cases p <;> exact ⟨_, _, _, rfl⟩

/-- The engine after one bus action differs in its pins only. -/
theorem performAct_eng (a : BusAction) (s : State) :
    ∃ c d b, (performAct a s).eng = { s.eng with clk := c, dio := d, stb := b } := by
  cases a with
  | rd p => exact ⟨_, _, _, (doRd_frame p s).2.1⟩
  | delay => exact ⟨s.eng.clk, s.eng.dio, s.eng.stb, rfl⟩
  | cfgOut p =>
    obtain ⟨c, d, b, h⟩ := Engine.setPin_form s.eng p { mode := .out, latch := (s.eng.pin p).latch }
    exact ⟨c, d, b, by simp only [performAct, doCfgOut, actOnPin_eng]; exact h⟩
  | cfgIn p =>
    obtain ⟨c, d, b, h⟩ := Engine.setPin_form s.eng p { mode := .inp, latch := none }
    exact ⟨c, d, b, by simp only [performAct, doCfgIn, actOnPin_eng]; exact h⟩
  | wr p l =>
    obtain ⟨c, d, b, h⟩ := Engine.setPin_form s.eng p { mode := (s.eng.pin p).mode, latch := some l }
    exact ⟨c, d, b, by simp only [performAct, doWr, actOnPin_eng]; exact h⟩

/-- One bus action touches no parameter, no waiting request and no report. -/
theorem performAct_frame (a : BusAction) (s : State) :
    (performAct a s).par = s.par ∧ (performAct a s).pending = s.pending ∧ (performAct a s).reports = s.reports := by
  cases a with
  | rd p => exact ⟨(doRd_frame p s).1, (doRd_frame p s).2.2.2.1, (doRd_frame p s).2.2.2.2.1⟩
  | _ => simp [performAct, doDelay, doCfgOut, doCfgIn, doWr]

/-! ## Lists of entries -/

/-- What stands before the last actions of a trace does not matter to the last answer. -/
@[simp] theorem lastAnswer_append_cons (tr : List BusEvent) (e : BusEvent) (es : List BusEvent) :
    lastAnswer (tr ++ e :: es) = lastAnswer (e :: es) := by
  simp only [lastAnswer, List.getLast?_append]
  cases h : (e :: es).getLast? with
  | none => simp at h
  | some x => rfl

@[simp] theorem lastAnswer_cons_cons (a e : BusEvent) (es : List BusEvent) :
    lastAnswer (a :: e :: es) = lastAnswer (e :: es) := by
  simp [lastAnswer]

@[simp] theorem lastAnswer_rd (p : Pin) (b : Level) : lastAnswer [.rd p b] = some b := rfl
@[simp] theorem lastAnswer_cfgOut (p : Pin) : lastAnswer [.cfgOut p] = none := rfl
@[simp] theorem lastAnswer_cfgIn (p : Pin) : lastAnswer [.cfgIn p] = none := rfl
@[simp] theorem lastAnswer_wr (p : Pin) (l : Level) : lastAnswer [.wr p l] = none := rfl
@[simp] theorem lastAnswer_delay : lastAnswer [.delay] = none := rfl

@[simp] theorem runMicros_nil (s : State) : runMicros [] s = s := rfl
@[simp] theorem runMicros_cons (m : Micro) (ms : List Micro) (s : State) :
    runMicros (m :: ms) s = runMicros ms (performMicro m s) := rfl
theorem runMicros_append (as bs : List Micro) (s : State) :
    runMicros (as ++ bs) s = runMicros bs (runMicros as s) := by
  simp [runMicros, List.foldl_append]

/-- The assignments touch the datapath and the response only. -/
theorem Engine.assign_frame (e : Engine) (d : Option Level) (as : List Assign) :
    (e.assign d as).cfg = e.cfg ∧ (e.assign d as).en = e.en ∧ (e.assign d as).bri = e.bri ∧
      (e.assign d as).clk = e.clk ∧ (e.assign d as).dio = e.dio ∧ (e.assign d as).stb = e.stb ∧
      (e.assign d as).busy = e.busy ∧ (e.assign d as).seq = e.seq ∧ (e.assign d as).rspStatus = e.rspStatus := by
  unfold Engine.assign
  induction as generalizing e with
  | nil => simp
  | cons a as ih =>
    have h := ih (a.apply d e)
    have ha : ∀ (a : Assign) (e : Engine), (a.apply d e).cfg = e.cfg ∧ (a.apply d e).en = e.en ∧
        (a.apply d e).bri = e.bri ∧ (a.apply d e).clk = e.clk ∧ (a.apply d e).dio = e.dio ∧
        (a.apply d e).stb = e.stb ∧ (a.apply d e).busy = e.busy ∧ (a.apply d e).seq = e.seq ∧
        (a.apply d e).rspStatus = e.rspStatus := by
      intro a e; cases a <;> cases d <;> simp [Assign.apply]
    have h2 := ha a e
    simp only [List.foldl_cons]
    simp only [h2] at h
    exact h

/-- An entry touches no parameter, no waiting request and no report. -/
theorem performMicro_frame (m : Micro) (s : State) :
    (performMicro m s).par = s.par ∧ (performMicro m s).pending = s.pending ∧
      (performMicro m s).reports = s.reports := by
  simpa [performMicro] using performAct_frame m.act s

/-- An entry leaves the control registers and the sequencer alone. -/
theorem performMicro_eng (m : Micro) (s : State) :
    (performMicro m s).eng.cfg = s.eng.cfg ∧ (performMicro m s).eng.en = s.eng.en ∧
      (performMicro m s).eng.bri = s.eng.bri ∧ (performMicro m s).eng.busy = s.eng.busy ∧
      (performMicro m s).eng.seq = s.eng.seq ∧ (performMicro m s).eng.rspStatus = s.eng.rspStatus := by
  obtain ⟨c, d, b, h⟩ := performAct_eng m.act s
  have ha := Engine.assign_frame (performAct m.act s).eng (lastAnswer (performAct m.act s).trace) m.asg
  simp only [performMicro, State.setEng_eng]
  rw [ha.1, ha.2.1, ha.2.2.1, ha.2.2.2.2.2.2.1, ha.2.2.2.2.2.2.2.1, ha.2.2.2.2.2.2.2.2, h]
  exact ⟨rfl, rfl, rfl, rfl, rfl, rfl⟩

/-- A list of entries touches no parameter, no waiting request and no report. -/
theorem runMicros_frame (ms : List Micro) (s : State) :
    (runMicros ms s).par = s.par ∧ (runMicros ms s).pending = s.pending ∧ (runMicros ms s).reports = s.reports := by
  induction ms generalizing s with
  | nil => simp
  | cons m ms ih =>
    have h := ih (performMicro m s)
    have h1 := performMicro_frame m s
    simp only [h1] at h
    exact h

/-- A list of entries leaves the control registers and the sequencer alone. -/
theorem runMicros_eng (ms : List Micro) (s : State) :
    (runMicros ms s).eng.cfg = s.eng.cfg ∧ (runMicros ms s).eng.en = s.eng.en ∧
      (runMicros ms s).eng.bri = s.eng.bri ∧ (runMicros ms s).eng.busy = s.eng.busy ∧
      (runMicros ms s).eng.seq = s.eng.seq ∧ (runMicros ms s).eng.rspStatus = s.eng.rspStatus := by
  induction ms generalizing s with
  | nil => simp
  | cons m ms ih =>
    have h := ih (performMicro m s)
    have h1 := performMicro_eng m s
    simp only [h1] at h
    exact h

/-! ## One clock cycle -/

/-- The events of one write cycle (R104). -/
def writeCycleEvents (d : Level) : List BusEvent :=
  [.wr .clk false, .delay, .wr .dio d, .wr .clk true, .delay]

/-- The events of one read cycle (R104). -/
def readCycleEvents (d : Level) : List BusEvent :=
  [.wr .clk false, .delay, .rd .dio d, .wr .clk true, .delay]

end Sys2Proof.Machine
end

