-- ==== Sys2Proof/Laws/Peer.lean ====
section
/-! SUPPORT. What the bytes and the clock do to the peer: frames, the sticky flag, and one clock cycle of a write and of a read. -/

namespace Sys2Proof.Machine

/-! ## The effect of a byte -/

/-- A byte leaves the window, the shift register, the keypad and the drive of DIO alone. -/
theorem Peer.runByte_frame (i : Instr) (t : Peer) :
    (t.runByte i).win = t.win ∧ (t.runByte i).nbytes = t.nbytes ∧ (t.runByte i).nbits = t.nbits ∧
      (t.runByte i).sh = t.sh ∧ (t.runByte i).key = t.key ∧ (t.runByte i).drive = t.drive := by
  cases i <;> simp [Peer.runByte, Peer.setWrite, Peer.setReadKeys, Peer.setCtrl, Peer.setAddr]
  unfold Peer.payload
  split <;> simp

/-- A byte never clears `T.undef` (R39). -/
theorem Peer.runByte_undef (i : Instr) (t : Peer) (h : t.undef = true) : (t.runByte i).undef = true := by
  cases i <;> simp [Peer.runByte, Peer.setWrite, Peer.setReadKeys, Peer.setCtrl, Peer.setAddr, h]
  unfold Peer.payload
  split <;> simp [h]

/-- Only a payload byte writes a display register (R32), and only the one at its address (R64). -/
theorem Peer.runByte_disp (i : Instr) (t : Peer) (h : ∀ d, i ≠ .payload d) : (t.runByte i).disp = t.disp := by
  cases i <;> simp_all [Peer.runByte, Peer.setWrite, Peer.setReadKeys, Peer.setCtrl, Peer.setAddr]

/-- The address of a payload byte is an address of DSP, and it is the pointer (R44, R64). -/
theorem Peer.storeAddr_spec (t : Peer) (a : Nat) (h : t.storeAddr = some a) :
    a ≤ 15 ∧ t.ptr = some a ∧ t.cmd = .addr ∧ t.rw = some .write ∧ t.am.isSome = true := by
  unfold Peer.storeAddr at h
  split at h
  · next h1 h2 h3 h4 =>
    split at h
    · next hp =>
      cases h
      exact ⟨hp, h4, h1, h2, by simp [h3]⟩
    · cases h
  · cases h

/-- A payload byte is stored when every condition of R64 holds. -/
theorem Peer.storeAddr_of (t : Peer) (a : Nat) (hc : t.cmd = .addr) (hr : t.rw = some .write)
    (hm : t.am.isSome = true) (hp : t.ptr = some a) (ha : a ≤ 15) : t.storeAddr = some a := by
  obtain ⟨m, hm⟩ := Option.isSome_iff_exists.1 hm
  simp [Peer.storeAddr, hc, hr, hm, hp, ha]

/-- What a payload byte leaves in the display registers (R64, R65). -/
theorem Peer.payload_disp (d : Byte) (t : Peer) :
    (∃ a, t.storeAddr = some a ∧ (t.payload d).disp = t.disp.write a d) ∨
      (t.storeAddr = none ∧ t.payload d = t.setUndef) := by
  unfold Peer.payload
  cases h : t.storeAddr with
  | some a => exact .inl ⟨a, rfl, rfl⟩
  | none => exact .inr ⟨rfl, rfl⟩

@[simp] theorem Peer.byteDone_win (lay : DataLayout) (t : Peer) : (t.byteDone lay).win = t.win :=
  (Peer.runByte_frame _ t).1
@[simp] theorem Peer.byteDone_drive (lay : DataLayout) (t : Peer) : (t.byteDone lay).drive = t.drive :=
  (Peer.runByte_frame _ t).2.2.2.2.2
@[simp] theorem Peer.byteDone_key (lay : DataLayout) (t : Peer) : (t.byteDone lay).key = t.key :=
  (Peer.runByte_frame _ t).2.2.2.2.1
@[simp] theorem Peer.byteDone_nbits (lay : DataLayout) (t : Peer) : (t.byteDone lay).nbits = 0 := rfl
@[simp] theorem Peer.byteDone_nbytes (lay : DataLayout) (t : Peer) : (t.byteDone lay).nbytes = t.nbytes + 1 := rfl
@[simp] theorem Peer.byteDone_sh (lay : DataLayout) (t : Peer) : (t.byteDone lay).sh = 0 := rfl

/-- The bits shifted in before do not count once the byte is complete. -/
theorem Peer.byteDone_of_nbits (lay : DataLayout) (n : Nat) (t : Peer) :
    { t with nbits := n }.byteDone lay = t.byteDone lay := by
  have h : ∀ i : Instr, ({ t with nbits := n }.runByte i) = { t.runByte i with nbits := n } := by
    intro i; cases i <;> try rfl
    simp only [Peer.runByte, Peer.payload]
    show (match t.storeAddr with | some p => _ | none => _) = _
    cases t.storeAddr <;> rfl
  unfold Peer.byteDone
  have : { t with nbits := n }.bytePos = t.bytePos := rfl
  simp only [this, h]

@[simp] theorem Peer.shiftIn_drive (lay : DataLayout) (d : Option Level) (t : Peer) :
    (t.shiftIn lay d).drive = t.drive := by
  unfold Peer.shiftIn
  cases d with
  | none => rfl
  | some b => dsimp only; split <;> simp

@[simp] theorem Peer.shiftIn_win (lay : DataLayout) (d : Option Level) (t : Peer) :
    (t.shiftIn lay d).win = t.win := by
  unfold Peer.shiftIn
  cases d with
  | none => rfl
  | some b => dsimp only; split <;> simp

/-- Before the eighth bit a rise of CLK only shifts (R58). -/
theorem Peer.shiftIn_partial (lay : DataLayout) (d : Level) (t : Peer) (h : t.nbits + 1 ≠ 8) :
    t.shiftIn lay (some d) = { t with sh := t.sh ||| bitAt d t.nbits, nbits := t.nbits + 1 } := by
  simp [Peer.shiftIn, h]

/-- At the eighth bit the byte is complete (R58). -/
theorem Peer.shiftIn_last (lay : DataLayout) (d : Level) (t : Peer) (h : t.nbits = 7) :
    t.shiftIn lay (some d) = { t with sh := t.sh ||| bitAt d 7, nbits := 8 }.byteDone lay := by
  simp [Peer.shiftIn, h]

/-! ## `WR` on CLK and on DIO -/

/-- `WR(CLK, l)` while CLK is `Out`: the peer sees the change from the latch to `l`. -/
theorem doWr_clk (l l0 : Level) (s : State) (h : s.eng.clk = ⟨.out, some l0⟩) :
    doWr .clk l s =
      flagContention (reactClk (wireChange (some l0) (some l))
        ((s.setEng { s.eng with clk := ⟨.out, some l⟩ }).record (.wr .clk l))) := by
  simp [doWr, actOnPin, react, level_clk, level_stb, h]

/-- `WR(STB, l)` while STB is `Out`: the peer sees the change from the latch to `l`. -/
theorem doWr_stb (l l0 : Level) (s : State) (h : s.eng.stb = ⟨.out, some l0⟩) :
    doWr .stb l s =
      flagContention (reactStb (wireChange (some l0) (some l))
        ((s.setEng { s.eng with stb := ⟨.out, some l⟩ }).record (.wr .stb l))) := by
  simp [doWr, actOnPin, react, level_clk, level_stb, h]

/-- `WR(DIO, l)` is no edge: only contention is noticed. -/
theorem doWr_dio (l : Level) (s : State) (h : s.peer.drive = none) :
    doWr .dio l s = (s.setEng { s.eng with dio := ⟨s.eng.dio.mode, some l⟩ }).record (.wr .dio l) := by
  unfold doWr
  rw [actOnPin_dio, flagContention_eq]
  · simp
  · right; simpa using h

/-- A fall of CLK while the peer receives has no effect on it (R58). -/
theorem doWr_clk_fall_receiving (s : State) (h : s.eng.clk = ⟨.out, some true⟩) (hw : s.peer.win = true)
    (ht : s.peer.tx = false) (hd : s.peer.drive = none) :
    doWr .clk false s = (s.setEng { s.eng with clk := ⟨.out, some false⟩ }).record (.wr .clk false) := by
  rw [doWr_clk false true s h, flagContention_eq]
  · simp [wireChange, reactClk, hw, ht]
  · right; simp [wireChange, reactClk, hw, ht, hd]

/-- A rise of CLK while the peer receives shifts in the bit on DIO (R58). -/
theorem doWr_clk_rise_receiving (s : State) (h : s.eng.clk = ⟨.out, some false⟩) (hw : s.peer.win = true)
    (ht : s.peer.tx = false) (hd : s.peer.drive = none) (hm : s.eng.dio.mode = .out) :
    doWr .clk true s =
      ((s.setEng { s.eng with clk := ⟨.out, some true⟩ }).record (.wr .clk true)).setPeer
        (s.peer.shiftIn s.par.layout s.eng.dio.latch) := by
  rw [doWr_clk true false s h, flagContention_eq]
  · simp [wireChange, reactClk, hw, ht, level, peerDrives, hd, hm]
  · right; simp [wireChange, reactClk, hw, ht, hd]

/-- A fall of CLK while the peer transmits drives the next key bit (R66). -/
theorem doWr_clk_fall_transmitting (s : State) (h : s.eng.clk = ⟨.out, some true⟩) (hw : s.peer.win = true)
    (ht : s.peer.tx = true) (hm : s.eng.dio.mode ≠ .out) (hk : s.peer.kidx < 4) :
    doWr .clk false s =
      ((s.drawKeys.2.setPeer (s.peer.driveKey s.drawKeys.1)).setEng
        { s.eng with clk := ⟨.out, some false⟩ }).record (.wr .clk false) := by
  have hk' : ¬ 4 ≤ s.peer.kidx := by omega
  rw [doWr_clk false true s h, flagContention_eq]
  · unfold State.drawKeys
    obtain ⟨par, eng, peer, pend, rep, tr, kp, dr⟩ := s
    simp only at hw ht hk'
    cases kp <;> simp [wireChange, reactClk, hw, ht, hk', State.drawKeys, State.setPeer, State.setEng, State.record]
  · left
    have := (reactClk_frame (wireChange (some true) (some false))
      ((s.setEng { s.eng with clk := ⟨.out, some false⟩ }).record (.wr .clk false))).2.1
    rw [this]; simpa using hm

/-- A rise of CLK while the peer transmits releases DIO (R66). -/
theorem doWr_clk_rise_transmitting (s : State) (h : s.eng.clk = ⟨.out, some false⟩) (hw : s.peer.win = true)
    (ht : s.peer.tx = true) :
    doWr .clk true s =
      ((s.setEng { s.eng with clk := ⟨.out, some true⟩ }).record (.wr .clk true)).setPeer s.peer.releaseKey := by
  rw [doWr_clk true false s h, flagContention_eq]
  · simp [wireChange, reactClk, hw, ht]
  · right
    simp only [wireChange, reactClk, State.record_peer, State.setEng_peer, hw, ht, if_true, State.setPeer_peer]
    unfold Peer.releaseKey
    split <;> rfl

/-- `RD(DIO)` while the peer drives it answers the peer's bit (R98). -/
theorem doRd_dio_driven (s : State) (b : Level) (h : s.peer.drive = some b) (hm : s.eng.dio.mode ≠ .out) :
    doRd .dio s = s.record (.rd .dio b) := by
  unfold doRd sampleWire
  rw [level_dio_of_driven s b h, if_neg hm]

/-! ## One clock cycle -/

/-- One write cycle while the peer receives: the peer shifts in the bit that the engine sends (R58, R100, R104). -/
theorem runMicros_writeCycle (v : Byte) (i : Nat) (s : State) (hc : s.eng.clk = ⟨.out, some true⟩)
    (hm : s.eng.dio.mode = .out) (hw : s.peer.win = true) (ht : s.peer.tx = false) (hd : s.peer.drive = none) :
    runMicros (writeCycle v i) s =
      { s with
        eng := { s.eng with
          dio := ⟨.out, some (v.getLsbD i)⟩
          tx := if i = 0 then v else s.eng.tx
          i := (if i = 0 then 0 else s.eng.i) + 1 }
        peer := s.peer.shiftIn s.par.layout (some (v.getLsbD i))
        trace := s.trace ++ writeCycleEvents (v.getLsbD i) } := by
  obtain ⟨par, eng, peer, pend, rep, tr, kp, dr⟩ := s
  obtain ⟨cfg, en, bri, clk, dio, stb, busy, seq, tx, i', acc, kacc, k, rk, rs⟩ := eng
  obtain ⟨dm, dl⟩ := dio
  simp only at hc hm hw ht hd
  subst hc hm
  by_cases hi : i = 0 <;>
  simp [writeCycle, emit, performMicro, performAct, doDelay, hi, Engine.assign, Assign.apply, State.setEng,
      State.record, State.setPeer, doWr_dio, hd,
      doWr_clk_fall_receiving, doWr_clk_rise_receiving, hw, ht, writeCycleEvents]

/-- One read cycle while the peer transmits: the engine samples the key bit that the peer drives (R66, R101, R104). -/
theorem runMicros_readCycle (s : State) (hc : s.eng.clk = ⟨.out, some true⟩) (hm : s.eng.dio.mode ≠ .out)
    (hw : s.peer.win = true) (ht : s.peer.tx = true) (hk : s.peer.kidx < 4) (b : Level)
    (hb : b = (s.drawKeys.1.get s.peer.kidx).getLsbD s.peer.kbit) :
    runMicros readCycle s =
      { s.drawKeys.2 with
        eng := { s.eng with acc := s.eng.acc ||| bitAt b s.eng.i, i := s.eng.i + 1 }
        peer := (s.peer.driveKey s.drawKeys.1).releaseKey
        trace := s.trace ++ readCycleEvents b } := by
  subst hb
  obtain ⟨par, eng, peer, pend, rep, tr, kp, dr⟩ := s
  obtain ⟨cfg, en, bri, clk, dio, stb, busy, seq, tx, i', acc, kacc, k, rk, rs⟩ := eng
  simp only at hc hm hw ht hk
  subst hc
  cases kp <;>
  simp [readCycle, emit, performMicro, performAct, doDelay, Engine.assign, Assign.apply, State.setEng, State.record,
    State.setPeer, State.drawKeys, doWr_clk_fall_transmitting, doWr_clk_rise_transmitting, doRd_dio_driven, hw, ht, hk,
    hm, Peer.driveKey, readCycleEvents]

end Sys2Proof.Machine
end

