-- ==== Sys2Proof/Laws/PerInstr.lean ====
section
/-! SUPPORT. Per instruction: a well-formed instruction that is a byte is what the decoder reads from its byte. -/

namespace Sys2Proof.Laws.RoundTrip

/-- For every layout, at the instruction's own position, the decoder reads the instruction back from its byte. -/
def Statement (i : Instr) : Prop :=
  ∀ lay pos, i.wf lay = true → i.pos = some pos → (encode lay i).map (decodeByte lay pos) = some i

theorem cmdWriteAuto : Statement .cmdWriteAuto := by
  intro lay pos _ h; cases h; cases lay <;> decide
theorem cmdReadKeys : Statement .cmdReadKeys := by
  intro lay pos _ h; cases h; cases lay <;> decide
theorem cmdWriteFixed : Statement .cmdWriteFixed := by
  intro lay pos _ h; cases h; cases lay <;> decide
theorem ctrl (e : Bool) (b : BitVec 3) : Statement (.ctrl e b) := by
  intro lay pos _ h; cases h; cases lay <;> revert b <;> cases e <;> decide
theorem addr (a : BitVec 4) : Statement (.addr a) := by
  intro lay pos _ h; cases h; cases lay <;> revert a <;> decide
theorem reservedClass00 (x : BitVec 6) : Statement (.reservedClass00 x) := by
  intro lay pos _ h; cases h; cases lay <;> revert x <;> decide
theorem reservedData (z : BitVec 3) (r : Bool) (m : BitVec 2) : Statement (.reservedData z r m) := by
  intro lay pos hw h; cases h; revert hw; cases lay <;> cases r <;> revert z m <;> decide
theorem reservedCtrlAddr (x : Bool) (z : BitVec 2) (low : BitVec 4) : Statement (.reservedCtrlAddr x z low) := by
  intro lay pos hw h; cases h; revert hw; cases lay <;> cases x <;> revert z low <;> decide
theorem payload (d : Byte) : Statement (.payload d) := by
  intro lay pos _ h; cases h; rfl

/-! The other rows are typed records with no bit pattern (D2). -/

theorem cfgOut (p : Pin) : Statement (.cfgOut p) := fun _ _ _ h => by cases h
theorem cfgIn (p : Pin) : Statement (.cfgIn p) := fun _ _ _ h => by cases h
theorem wr (p : Pin) (l : Level) : Statement (.wr p l) := fun _ _ _ h => by cases h
theorem rd (p : Pin) : Statement (.rd p) := fun _ _ _ h => by cases h
theorem delay : Statement .delay := fun _ _ _ h => by cases h
theorem writeByte (v : Byte) : Statement (.writeByte v) := fun _ _ _ h => by cases h
theorem readByte : Statement .readByte := fun _ _ _ h => by cases h
theorem strobeLow : Statement .strobeLow := fun _ _ _ h => by cases h
theorem strobeHigh : Statement .strobeHigh := fun _ _ _ h => by cases h
theorem writeCommand (c : Byte) : Statement (.writeCommand c) := fun _ _ _ h => by cases h
theorem writeOp (a : Byte) (d : List Byte) : Statement (.writeOp a d) := fun _ _ _ h => by cases h
theorem readWindow : Statement .readWindow := fun _ _ _ h => by cases h
theorem sendCtrl : Statement .sendCtrl := fun _ _ _ h => by cases h
theorem init (on : Bool) (b : Nat) : Statement (.init on b) := fun _ _ _ h => by cases h
theorem shutdown : Statement .shutdown := fun _ _ _ h => by cases h
theorem displayOn : Statement .displayOn := fun _ _ _ h => by cases h
theorem displayOff : Statement .displayOff := fun _ _ _ h => by cases h
theorem setBrightness (b : Nat) : Statement (.setBrightness b) := fun _ _ _ h => by cases h
theorem clear : Statement .clear := fun _ _ _ h => by cases h
theorem writeReg (a v : Nat) : Statement (.writeReg a v) := fun _ _ _ h => by cases h
theorem writeBuf (a n : Nat) (bytes : List Nat) : Statement (.writeBuf a n bytes) := fun _ _ _ h => by cases h
theorem readKeys : Statement .readKeys := fun _ _ _ h => by cases h

end Sys2Proof.Laws.RoundTrip
end

