-- ==== Sys2Proof/Laws/Step.lean ====
section
/-! SUPPORT. What `exec` and `step` can do: the outcomes of a request, and the cases of a step. -/

namespace Sys2Proof.Machine

/-! ## `exec` on actions, requests and bytes -/

/-- Executing a bus action is performing it. -/
theorem exec_action (a : BusAction) (s : State) : exec a.toInstr s = .next (performAct a s) := by
  cases a <;> rfl

/-- Executing a request is processing it. -/
theorem exec_request (q : Request) (s : State) : exec q.toInstr s = .next (processRequest q s) := by
  cases q <;> rfl

/-- Executing an instruction that is a byte gives the peer that byte's effect, and nothing else. -/
theorem exec_byte (i : Instr) (s : State) (h : i.pos.isSome = true) :
    exec i s = .next (s.setPeer (s.peer.runByte i)) := by
  cases i <;> first | (simp [Instr.pos] at h; done) | rfl

/-- The decoder reads an instruction that is a byte. -/
theorem decodeByte_pos (lay : DataLayout) (pos : BytePos) (b : Byte) : (decodeByte lay pos b).pos = some pos := by
  cases pos
  · simp only [decodeByte, decodeCommand]
    split
    · rfl
    · unfold decodeData; cases lay <;> dsimp only <;> (repeat' split) <;> rfl
    · (repeat' split) <;> rfl
  · rfl

/-! ## The outcomes of a request -/

/-- What processing a request can do (R119, R134): one of hold, refuse, drop and accept, each under its condition. -/
theorem processRequest_cases (q : Request) (s : State) :
    (s.eng.busy = true ∧ processRequest q s = holdRequest q s) ∨
      (s.eng.busy = false ∧ q.wellFormed = false ∧ processRequest q s = refuseRequest q .malformed s) ∨
      (s.eng.busy = false ∧ q.wellFormed = true ∧ s.eng.cfg = false ∧ q.needsNoInit = false ∧
        processRequest q s = refuseRequest q .notInitialized s) ∨
      (s.eng.busy = false ∧ q.wellFormed = true ∧ (s.eng.cfg = true ∨ q.needsNoInit = true) ∧
        ∃ r, q.dropReason = some r ∧ processRequest q s = dropRequest q r s) ∨
      (s.eng.busy = false ∧ q.wellFormed = true ∧ (s.eng.cfg = true ∨ q.needsNoInit = true) ∧
        q.dropReason = none ∧ processRequest q s = acceptRequest q s) := by
  unfold processRequest
  cases hb : s.eng.busy
  · cases hw : q.wellFormed
    · simp
    · cases hc : s.eng.cfg <;> cases hn : q.needsNoInit <;> cases hd : q.dropReason <;> simp
  · simp

/-- The well-formedness that acceptance checks is that of the instruction (R88). -/
theorem Request.wellFormed_eq (lay : DataLayout) (q : Request) : q.wellFormed = q.toInstr.wf lay := by
  cases q <;> rfl

/-! ## The cases of a step -/

/-- What a step that answers a next state did (R29, R119, R154): the head of `E.seq`, the oldest waiting request, or
nothing. -/
theorem step_cases (s t : State) (h : step s = .next t) :
    (∃ m rest, s.eng.busy = true ∧ s.eng.seq = m :: rest ∧ t = finishMicro m rest (performAct m.act s)) ∨
      (∃ q rest, s.eng.busy = false ∧ s.pending = q :: rest ∧ t = processRequest q (s.setPending rest)) ∨
      (s.eng.busy = false ∧ s.pending = [] ∧ t = s) := by
  unfold step nextWork at h
  cases hb : s.eng.busy
  · cases hp : s.pending with
    | nil =>
      simp only [hb, hp] at h
      exact .inr (.inr ⟨rfl, rfl, by cases h; rfl⟩)
    | cons q rest =>
      simp only [hb, hp, exec_request] at h
      exact .inr (.inl ⟨q, rest, rfl, rfl, by cases h; rfl⟩)
  · cases hs : s.eng.seq with
    | nil => simp only [hb, hs] at h; cases h
    | cons m rest =>
      simp only [hb, hs, exec_action] at h
      exact .inl ⟨m, rest, rfl, rfl, by cases h; rfl⟩

/-- An engine micro-step performs the head of `E.seq` (R29). -/
theorem step_of_busy (s : State) (m : Micro) (rest : List Micro) (hb : s.eng.busy = true)
    (hs : s.eng.seq = m :: rest) : step s = .next (finishMicro m rest (performAct m.act s)) := by
  simp [step, nextWork, hb, hs, exec_action]

/-- An idle engine processes the oldest request that waits (R119, R140). -/
theorem step_of_pending (s : State) (q : Request) (rest : List Request) (hb : s.eng.busy = false)
    (hp : s.pending = q :: rest) : step s = .next (processRequest q (s.setPending rest)) := by
  simp [step, nextWork, hb, hp, exec_request]

/-- While entries are left, what follows the bus action of an entry is its assignments and `E.seq <- rest` (R29). -/
theorem finishMicro_more (m : Micro) (rest : List Micro) (s : State) (h : rest ≠ []) :
    finishMicro m rest s = s.setEng { s.eng.assign (lastAnswer s.trace) m.asg with seq := rest } := by
  simp [finishMicro, h]

/-- After the last entry the request completes: the response is delivered, and the datapath ends (R29, R30, R90). -/
theorem finishMicro_last (m : Micro) (s : State) :
    finishMicro m [] s =
      completeRequest m (s.setEng { s.eng.assign (lastAnswer s.trace) m.asg with seq := [] }) := rfl

/-- What follows the bus action of an entry differs from the entry itself in the sequencer, the response, the datapath
and the count of draws only. -/
theorem finishMicro_spec (m : Micro) (rest : List Micro) (s : State) :
    ∃ busy st rep tx i acc kacc k n, finishMicro m rest s =
      { s with
        eng := { s.eng.assign (lastAnswer s.trace) m.asg with
          seq := rest, busy := busy, rspStatus := st, tx := tx, i := i, acc := acc, kacc := kacc, k := k }
        reports := s.reports ++ rep
        drawn := n } := by
  by_cases h : rest = []
  · subst h
    exact ⟨false, _, [_], _, _, _, _, _, _, rfl⟩
  · have ha := Engine.assign_frame s.eng (lastAnswer s.trace) m.asg
    rw [finishMicro_more m rest s h]
    generalize s.eng.assign (lastAnswer s.trace) m.asg = e at ha
    exact ⟨e.busy, e.rspStatus, [], e.tx, e.i, e.acc, e.kacc, e.k, s.drawn, by simp [State.setEng]⟩

end Sys2Proof.Machine
end

