-- ==== Sys2Proof/Laws/Procedures.lean ====
section
/-! SUPPORT. What the procedures do: the engine and the trace from every state, the peer inside a window, and the windows of the trace. -/

namespace Sys2Proof.Machine

/-! ## One byte -/

/-- The byte of eight bits, the first in bit 0 (R47). -/
def joinBits (b0 b1 b2 b3 b4 b5 b6 b7 : Level) : Byte :=
  0#8 ||| bitAt b0 0 ||| bitAt b1 1 ||| bitAt b2 2 ||| bitAt b3 3 ||| bitAt b4 4 ||| bitAt b5 5 ||| bitAt b6 6 |||
    bitAt b7 7

/-- A byte is made of its own eight bits. -/
theorem joinBits_getLsbD (v : Byte) :
    joinBits (v.getLsbD 0) (v.getLsbD 1) (v.getLsbD 2) (v.getLsbD 3) (v.getLsbD 4) (v.getLsbD 5) (v.getLsbD 6)
      (v.getLsbD 7) = v := by
  revert v; decide

/-- Each bit of a byte made of eight bits. -/
theorem getLsbD_joinBits (b0 b1 b2 b3 b4 b5 b6 b7 : Level) :
    (joinBits b0 b1 b2 b3 b4 b5 b6 b7).getLsbD 0 = b0 ∧ (joinBits b0 b1 b2 b3 b4 b5 b6 b7).getLsbD 1 = b1 ∧
      (joinBits b0 b1 b2 b3 b4 b5 b6 b7).getLsbD 2 = b2 ∧ (joinBits b0 b1 b2 b3 b4 b5 b6 b7).getLsbD 3 = b3 ∧
      (joinBits b0 b1 b2 b3 b4 b5 b6 b7).getLsbD 4 = b4 ∧ (joinBits b0 b1 b2 b3 b4 b5 b6 b7).getLsbD 5 = b5 ∧
      (joinBits b0 b1 b2 b3 b4 b5 b6 b7).getLsbD 6 = b6 ∧ (joinBits b0 b1 b2 b3 b4 b5 b6 b7).getLsbD 7 = b7 := by
  revert b0 b1 b2 b3 b4 b5 b6 b7; decide

/-- `for i in 0 .. 7`, written out. -/
theorem flatMap_range8 {α : Type} (f : Nat → List α) :
    (List.range 8).flatMap f = f 0 ++ (f 1 ++ (f 2 ++ (f 3 ++ (f 4 ++ (f 5 ++ (f 6 ++ f 7)))))) := by
  simp [List.range, List.range.loop]

/-- WRITE_BYTE between two bytes of a write window: the peer receives exactly the byte (R58, R100). -/
theorem runMicros_writeByteSeq (v : Byte) (s : State) (h : Receiving s) :
    runMicros (writeByteSeq v) s =
      { s with
        eng := { s.eng with dio := ⟨.out, some (v.getLsbD 7)⟩, tx := v, i := 8 }
        peer := { s.peer with sh := v }.byteDone s.par.layout
        trace := s.trace ++ (List.range 8).flatMap (fun i => writeCycleEvents (v.getLsbD i)) } := by
  obtain ⟨hc, hm, hs, hw, ht, hd, hn, hsh⟩ := h
  obtain ⟨par, eng, peer, pend, rep, tr, kp, dr⟩ := s
  obtain ⟨cfg, en, bri, clk, dio, stb, busy, seq, tx, i', acc, kacc, k, rk, rs⟩ := eng
  obtain ⟨disp, key, rw, am, ptr, on, pbri, win, nbytes, nbits, sh, cmd, ptx, kidx, kbit, drive, undef⟩ := peer
  simp only at hc hm hs hw ht hd hn hsh
  subst hc hs hw ht hd hn hsh
  have hb := joinBits_getLsbD v
  unfold joinBits at hb
  rw [writeByteSeq, flatMap_range8]
  simp only [runMicros_append]
  simp (disch := first | rfl | assumption | (dsimp only; decide)) only [runMicros_writeCycle,
    Peer.shiftIn_partial, Peer.shiftIn_last]
  have e := Peer.byteDone_of_nbits par.layout 8
    ⟨disp, key, rw, am, ptr, on, pbri, true, nbytes, 0, v, cmd, false, kidx, kbit, none, undef⟩
  dsimp only at e
  rw [← e, show (0 : Byte) = 0#8 from rfl]
  simp only [Nat.zero_add, Nat.reduceAdd, hb, List.append_assoc]
  rfl

/-! ## The engine and the trace, from every state -/

/-- One write cycle, whatever the peer does (R104). -/
theorem runMicros_writeCycle_eng (v : Byte) (i : Nat) (s : State) :
    (runMicros (writeCycle v i) s).eng =
        { s.eng with
          clk := ⟨s.eng.clk.mode, some true⟩
          dio := ⟨s.eng.dio.mode, some (v.getLsbD i)⟩
          tx := if i = 0 then v else s.eng.tx
          i := (if i = 0 then 0 else s.eng.i) + 1 } ∧
      (runMicros (writeCycle v i) s).trace = s.trace ++ writeCycleEvents (v.getLsbD i) := by
  by_cases hi : i = 0 <;>
  simp [writeCycle, emit, performMicro, performAct, doDelay, doWr, hi, Engine.assign, Assign.apply, Engine.setPin,
    Engine.pin, writeCycleEvents]

/-- The events of WRITE_BYTE. -/
def writeByteEvents (v : Byte) : List BusEvent := (List.range 8).flatMap (fun i => writeCycleEvents (v.getLsbD i))

/-- WRITE_BYTE, whatever the peer does (R100, R102). -/
theorem runMicros_writeByteSeq_eng (v : Byte) (s : State) :
    (runMicros (writeByteSeq v) s).eng =
        { s.eng with
          clk := ⟨s.eng.clk.mode, some true⟩, dio := ⟨s.eng.dio.mode, some (v.getLsbD 7)⟩, tx := v, i := 8 } ∧
      (runMicros (writeByteSeq v) s).trace = s.trace ++ writeByteEvents v := by
  rw [writeByteSeq, writeByteEvents, flatMap_range8, flatMap_range8]
  simp only [runMicros_append, runMicros_writeCycle_eng, List.append_assoc, and_true]
  rfl

/-- One read cycle, whatever DIO answers (R101, R104). -/
theorem runMicros_readCycle_eng (s : State) :
    ∃ b, (runMicros readCycle s).eng =
        { s.eng with
          clk := ⟨s.eng.clk.mode, some true⟩
          acc := s.eng.acc ||| bitAt b s.eng.i
          i := s.eng.i + 1 } ∧
      (runMicros readCycle s).trace = s.trace ++ readCycleEvents b := by
  have hu : (runMicros [emit (.wr .clk false), emit .delay] s).eng =
        { s.eng with clk := ⟨s.eng.clk.mode, some false⟩ } ∧
      (runMicros [emit (.wr .clk false), emit .delay] s).trace = s.trace ++ [.wr .clk false, .delay] := by
    simp [emit, performMicro, performAct, doWr, Engine.assign, Engine.setPin, Engine.pin, doDelay]
  have hs : readCycle = [emit (.wr .clk false), emit .delay] ++
    [{ act := .rd .dio, asg := [.sample] }, emit (.wr .clk true), { act := .delay, asg := [.nextBit] }] := rfl
  rw [hs, runMicros_append]
  generalize runMicros [emit (.wr .clk false), emit .delay] s = u at hu
  obtain ⟨he, ht⟩ := hu
  refine ⟨(sampleWire .dio u).1, ?_⟩
  simp [emit, performMicro, performAct, doWr, Engine.assign, Assign.apply, Engine.setPin,
    Engine.pin, readCycleEvents, doRd_frame, doDelay, he, ht]

/-- `CFG_IN(DIO)` while nothing contends, as the first entry of READ_BYTE. -/
theorem performMicro_cfgIn_dio (as : List Assign) (s : State) :
    performMicro ⟨.cfgIn .dio, as⟩ s =
      (s.setEng (Engine.assign { s.eng with dio := ⟨.inp, none⟩ } none as)).record (.cfgIn .dio) := by
  unfold performMicro performAct doCfgIn
  dsimp only
  rw [actOnPin_dio, flagContention_eq]
  · simp [State.setEng, State.record, Engine.setPin]
  · left; simp [Engine.setPin]

/-- `CFG_OUT(DIO)` while the peer does not drive it, as the last entry of READ_BYTE. -/
theorem performMicro_cfgOut_dio (as : List Assign) (s : State) (h : s.peer.drive = none) :
    performMicro ⟨.cfgOut .dio, as⟩ s =
      (s.setEng (Engine.assign { s.eng with dio := ⟨.out, s.eng.dio.latch⟩ } none as)).record (.cfgOut .dio) := by
  unfold performMicro performAct doCfgOut
  dsimp only
  rw [actOnPin_dio, flagContention_eq]
  · simp [State.setEng, State.record, Engine.setPin, Engine.pin]
  · right; simpa using h

/-! ## READ_BYTE -/

/-- Eight read cycles, whatever DIO answers. -/
theorem runMicros_readCycles_eng (s : State) (e : Engine) (hs : s.eng = e) (hi : e.i = 0) (ha : e.acc = 0) :
    ∃ b : Byte,
      (runMicros ((List.range 8).flatMap fun _ => readCycle) s).eng =
          { e with
            clk := ⟨e.clk.mode, some true⟩
            i := 8
            acc := b } ∧
        (runMicros ((List.range 8).flatMap fun _ => readCycle) s).trace =
          s.trace ++ (List.range 8).flatMap (fun i => readCycleEvents (b.getLsbD i)) := by
  simp only [flatMap_range8, runMicros_append]
  obtain ⟨cfg, en, bri, clk, dio, stb, busy, seq, tx, i', acc, kacc, kk, rk, rs⟩ := e
  dsimp only at hi ha
  subst hi ha
  obtain ⟨b0, h0, t0⟩ := runMicros_readCycle_eng s
  rw [hs] at h0
  dsimp only at h0
  generalize runMicros readCycle s = s0 at *
  obtain ⟨b1, h1, t1⟩ := runMicros_readCycle_eng s0
  rw [h0] at h1
  dsimp only at h1
  generalize runMicros readCycle s0 = s1 at *
  obtain ⟨b2, h2, t2⟩ := runMicros_readCycle_eng s1
  rw [h1] at h2
  dsimp only at h2
  generalize runMicros readCycle s1 = s2 at *
  obtain ⟨b3, h3, t3⟩ := runMicros_readCycle_eng s2
  rw [h2] at h3
  dsimp only at h3
  generalize runMicros readCycle s2 = s3 at *
  obtain ⟨b4, h4, t4⟩ := runMicros_readCycle_eng s3
  rw [h3] at h4
  dsimp only at h4
  generalize runMicros readCycle s3 = s4 at *
  obtain ⟨b5, h5, t5⟩ := runMicros_readCycle_eng s4
  rw [h4] at h5
  dsimp only at h5
  generalize runMicros readCycle s4 = s5 at *
  obtain ⟨b6, h6, t6⟩ := runMicros_readCycle_eng s5
  rw [h5] at h6
  dsimp only at h6
  generalize runMicros readCycle s5 = s6 at *
  obtain ⟨b7, h7, t7⟩ := runMicros_readCycle_eng s6
  rw [h6] at h7
  dsimp only at h7
  have hb := getLsbD_joinBits b0 b1 b2 b3 b4 b5 b6 b7
  refine ⟨joinBits b0 b1 b2 b3 b4 b5 b6 b7, ?_, ?_⟩
  · rw [h7]
    simp only [Nat.zero_add, Nat.reduceAdd]
    rfl
  · rw [t7, t6, t5, t4, t3, t2, t1, t0]
    simp only [hb, List.append_assoc]

/-- The assignments do not look at DIO. -/
theorem Engine.assign_dio (b : Option Level) (as : List Assign) (e : Engine) (q : PinState) :
    Engine.assign { e with dio := q } b as = { Engine.assign e b as with dio := q } := by
  unfold Engine.assign
  induction as generalizing e with
  | nil => rfl
  | cons a as ih =>
    simp only [List.foldl_cons]
    rw [show Assign.apply b { e with dio := q } a = { Assign.apply b e a with dio := q } by cases a <;> cases b <;> rfl]
    exact ih _

/-- Assignments in two parts. -/
theorem Engine.assign_clearAcc (b : Option Level) (as : List Assign) (e : Engine) :
    e.assign b (as ++ [.clearAcc]) = { e.assign b as with acc := 0, i := 0 } := by
  simp [Engine.assign, Assign.apply]

/-- The events of READ_BYTE, for the byte that its answers make. -/
def readByteEvents (v : Byte) : List BusEvent :=
  [.cfgIn .dio] ++ (List.range 8).flatMap (fun i => readCycleEvents (v.getLsbD i)) ++ [.cfgOut .dio]

/-- READ_BYTE, whatever the peer does (R101, R103). -/
theorem runMicros_readByteSeq_eng (as bs : List Assign) (s : State) :
    ∃ b : Byte,
      (runMicros (readByteSeq as bs) s).trace = s.trace ++ readByteEvents b ∧
        (runMicros (readByteSeq as bs) s).eng =
          Engine.assign
            { s.eng.assign none as with
              clk := ⟨s.eng.clk.mode, some true⟩
              dio := ⟨.out, none⟩
              i := 8
              acc := b } none bs := by
  have ha := Engine.assign_frame s.eng none as
  rw [readByteSeq, runMicros_cons, runMicros_append, performMicro_cfgIn_dio, Engine.assign_clearAcc,
    Engine.assign_dio]
  generalize s.eng.assign none as = e at *
  generalize hu : State.record _ _ = u
  have he : u.eng = { e with dio := ⟨.inp, none⟩, acc := 0, i := 0 } := by rw [← hu]; rfl
  have ht : u.trace = s.trace ++ [.cfgIn .dio] := by rw [← hu]; rfl
  obtain ⟨b, h, ht2⟩ := runMicros_readCycles_eng u _ he rfl rfl
  refine ⟨b, ?_⟩
  generalize runMicros _ u = w at *
  simp only [runMicros_cons, runMicros_nil, performMicro, performAct, doCfgOut, actOnPin_eng, actOnPin_trace,
    State.setEng_trace, State.setEng_eng, ht, ht2, h]
  refine ⟨by simp [readByteEvents], ?_⟩
  simp only [lastAnswer_append_cons, lastAnswer_cfgOut, Engine.setPin, Engine.pin, ha]

/-- One read cycle while the peer transmits and the environment presents the keypad `k` (R66). -/
theorem runMicros_readCycle_keys (k : KeyBytes) (rest : List KeyBytes) (s : State) (hkp : s.keypad = k :: rest)
    (hc : s.eng.clk = ⟨.out, some true⟩) (hm : s.eng.dio.mode ≠ .out) (hw : s.peer.win = true)
    (ht : s.peer.tx = true) (hk : s.peer.kidx < 4) :
    runMicros readCycle s =
      { s with
        eng := { s.eng with
          acc := s.eng.acc ||| bitAt ((k.get s.peer.kidx).getLsbD s.peer.kbit) s.eng.i
          i := s.eng.i + 1 }
        peer := { s.peer with
          key := k
          drive := none
          kbit := if s.peer.kbit + 1 = 8 then 0 else s.peer.kbit + 1
          kidx := if s.peer.kbit + 1 = 8 then s.peer.kidx + 1 else s.peer.kidx }
        keypad := rest
        trace := s.trace ++ readCycleEvents ((k.get s.peer.kidx).getLsbD s.peer.kbit) } := by
  rw [runMicros_readCycle s hc hm hw ht hk _ rfl, State.drawKeys_cons s k rest hkp]
  by_cases h : s.peer.kbit + 1 = 8 <;> simp only [Peer.driveKey, Peer.releaseKey, h, if_true, if_false]

/-- READ_BYTE inside a read window: the peer's key byte, one keypad a bit (R66, R101). -/
theorem runMicros_readByteSeq (as bs : List Assign) (k : Nat) (ks rest : List KeyBytes) (s : State)
    (h : Transmitting k s) (hk : k < 4) (hl : ks.length = 8) (hkp : s.keypad = ks ++ rest) :
    ∃ (v : Byte) (key : KeyBytes),
      (∀ j (h : j < ks.length), v.getLsbD j = (ks[j].get k).getLsbD j) ∧
        runMicros (readByteSeq as bs) s =
          { s with
            eng := Engine.assign
              { s.eng.assign none as with dio := ⟨.out, none⟩, i := 8, acc := v } none bs
            peer := { s.peer with key := key, kidx := k + 1, kbit := 0, drive := none }
            keypad := rest
            trace := s.trace ++ readByteEvents v } := by
  obtain ⟨hc, hm, hs, hw, ht, hd, hki, hkb⟩ := h
  match ks, hl with
  | [k0, k1, k2, k3, k4, k5, k6, k7], _ =>
  have hb := getLsbD_joinBits ((k0.get k).getLsbD 0) ((k1.get k).getLsbD 1) ((k2.get k).getLsbD 2)
    ((k3.get k).getLsbD 3) ((k4.get k).getLsbD 4) ((k5.get k).getLsbD 5) ((k6.get k).getLsbD 6) ((k7.get k).getLsbD 7)
  generalize hv : joinBits _ _ _ _ _ _ _ _ = v at hb
  unfold joinBits at hv
  refine ⟨v, k7, ?_, ?_⟩
  · intro j hj
    match j, hj with
    | 0, _ => exact hb.1
    | 1, _ => exact hb.2.1
    | 2, _ => exact hb.2.2.1
    | 3, _ => exact hb.2.2.2.1
    | 4, _ => exact hb.2.2.2.2.1
    | 5, _ => exact hb.2.2.2.2.2.1
    | 6, _ => exact hb.2.2.2.2.2.2.1
    | 7, _ => exact hb.2.2.2.2.2.2.2
  · have ha := Engine.assign_frame s.eng none as
    rw [readByteSeq, runMicros_cons, runMicros_append, performMicro_cfgIn_dio, flatMap_range8, Engine.assign_clearAcc,
      Engine.assign_dio, readByteEvents, flatMap_range8]
    simp only [runMicros_append, hb]
    obtain ⟨par, eng, peer, pend, rep, tr, kp, dr⟩ := s
    obtain ⟨disp, key, rw, am, ptr, on, pbri, win, nbytes, nbits, sh, cmd, ptx, kidx, kbit, drive, undef⟩ := peer
    dsimp only at ha hc hm hs hw ht hd hki hkb hkp
    subst hw ht hd hki hkb hkp
    dsimp only [State.setEng, State.record]
    generalize eng.assign none as = e at *
    have hce : e.clk = ⟨.out, some true⟩ := by rw [ha.2.2.2.1, hc]
    have hdm : PinMode.inp ≠ PinMode.out := by decide
    simp only [List.cons_append, List.nil_append]
    generalize hs0 : State.mk _ _ _ _ _ _ _ _ = s0
    rw [runMicros_readCycle_keys k0 _ s0 (by rw [← hs0]) (by rw [← hs0]; exact hce) (by rw [← hs0]; exact hdm)
      (by rw [← hs0]) (by rw [← hs0]) (by rw [← hs0]; exact hk), ← hs0]
    clear hs0
    dsimp only
    generalize hs1 : State.mk _ _ _ _ _ _ _ _ = s1
    rw [runMicros_readCycle_keys k1 _ s1 (by rw [← hs1]) (by rw [← hs1]; exact hce) (by rw [← hs1]; exact hdm)
      (by rw [← hs1]) (by rw [← hs1]) (by rw [← hs1]; exact hk), ← hs1]
    clear hs1
    dsimp only
    generalize hs2 : State.mk _ _ _ _ _ _ _ _ = s2
    rw [runMicros_readCycle_keys k2 _ s2 (by rw [← hs2]) (by rw [← hs2]; exact hce) (by rw [← hs2]; exact hdm)
      (by rw [← hs2]) (by rw [← hs2]) (by rw [← hs2]; exact hk), ← hs2]
    clear hs2
    dsimp only
    generalize hs3 : State.mk _ _ _ _ _ _ _ _ = s3
    rw [runMicros_readCycle_keys k3 _ s3 (by rw [← hs3]) (by rw [← hs3]; exact hce) (by rw [← hs3]; exact hdm)
      (by rw [← hs3]) (by rw [← hs3]) (by rw [← hs3]; exact hk), ← hs3]
    clear hs3
    dsimp only
    generalize hs4 : State.mk _ _ _ _ _ _ _ _ = s4
    rw [runMicros_readCycle_keys k4 _ s4 (by rw [← hs4]) (by rw [← hs4]; exact hce) (by rw [← hs4]; exact hdm)
      (by rw [← hs4]) (by rw [← hs4]) (by rw [← hs4]; exact hk), ← hs4]
    clear hs4
    dsimp only
    generalize hs5 : State.mk _ _ _ _ _ _ _ _ = s5
    rw [runMicros_readCycle_keys k5 _ s5 (by rw [← hs5]) (by rw [← hs5]; exact hce) (by rw [← hs5]; exact hdm)
      (by rw [← hs5]) (by rw [← hs5]) (by rw [← hs5]; exact hk), ← hs5]
    clear hs5
    dsimp only
    generalize hs6 : State.mk _ _ _ _ _ _ _ _ = s6
    rw [runMicros_readCycle_keys k6 _ s6 (by rw [← hs6]) (by rw [← hs6]; exact hce) (by rw [← hs6]; exact hdm)
      (by rw [← hs6]) (by rw [← hs6]) (by rw [← hs6]; exact hk), ← hs6]
    clear hs6
    dsimp only
    generalize hs7 : State.mk _ _ _ _ _ _ _ _ = s7
    rw [runMicros_readCycle_keys k7 _ s7 (by rw [← hs7]) (by rw [← hs7]; exact hce) (by rw [← hs7]; exact hdm)
      (by rw [← hs7]) (by rw [← hs7]) (by rw [← hs7]; exact hk), ← hs7]
    clear hs7
    dsimp only
    simp only [runMicros_cons, runMicros_nil]
    rw [performMicro_cfgOut_dio _ _ rfl]
    simp [State.setEng, State.record, ← hv]

/-! ## The strobes -/

/-- STROBE_LOW on a ready machine opens a window (R57, R107). -/
theorem runMicros_strobeLow (s : State) (h : Ready s) :
    runMicros strobeLowSeq s =
      { s with
        eng := { s.eng with stb := ⟨.out, some false⟩ }
        peer := s.peer.openWindow
        trace := s.trace ++ [.wr .stb false] } := by
  obtain ⟨⟨hc, hs, hm⟩, hw, ht, hd⟩ := h
  simp only [strobeLowSeq, runMicros_cons, runMicros_nil, emit, performMicro, performAct]
  rw [doWr_stb false true s hs, flagContention_eq]
  · simp [wireChange, reactStb, Peer.onStb, hw, Engine.assign, State.setEng, State.record, State.setPeer]
  · right; simp [wireChange, reactStb, Peer.onStb, hw, Peer.openWindow]

/-- A window just opened takes bytes. -/
theorem receiving_of_strobeLow (s : State) (h : Ready s) : Receiving (runMicros strobeLowSeq s) := by
  rw [runMicros_strobeLow s h]
  exact ⟨h.1.1, h.1.2.2, rfl, rfl, rfl, rfl, rfl, rfl⟩

/-- STROBE_HIGH inside a window closes it (R67, R108). -/
theorem runMicros_strobeHigh (as : List Assign) (s : State) (hs : s.eng.stb = ⟨.out, some false⟩)
    (hw : s.peer.win = true) :
    runMicros (strobeHighSeq as) s =
      { s with
        eng := Engine.assign { s.eng with stb := ⟨.out, some true⟩ } none as
        peer := s.peer.closeWindow
        trace := s.trace ++ [.wr .stb true] } := by
  simp only [strobeHighSeq, runMicros_cons, runMicros_nil, performMicro, performAct]
  rw [doWr_stb true false s hs, flagContention_eq]
  · simp [wireChange, reactStb, Peer.onStb, hw, State.setEng, State.record, State.setPeer]
  · right; simp [wireChange, reactStb, Peer.onStb, hw, Peer.closeWindow]

/-! ## A payload byte, and the bytes of a trace -/

/-- A payload byte in write mode with auto-increment, at a pointer in range (R64). -/
theorem Peer.byteDone_payload (lay : DataLayout) (d : Byte) (p : Nat) (t : Peer) (hb : t.nbytes ≠ 0)
    (hc : t.cmd = .addr) (hr : t.rw = some .write) (hm : t.am = some .auto) (hp : t.ptr = some p) (hl : p ≤ 15) :
    { t with sh := d }.byteDone lay =
      { t with disp := t.disp.write p d, ptr := some (p + 1), nbytes := t.nbytes + 1, nbits := 0, sh := 0 } := by
  obtain ⟨disp, key, rw, am, ptr, on, pbri, win, nbytes, nbits, sh, cmd, ptx, kidx, kbit, drive, undef⟩ := t
  dsimp only at hb hc hr hm hp
  subst hc hr hm hp
  have h : Peer.storeAddr ⟨disp, key, some .write, some .auto, some p, on, pbri, win, nbytes, nbits, d, .addr, ptx, kidx,
    kbit, drive, undef⟩ = some p := Peer.storeAddr_of _ _ rfl rfl rfl rfl hl
  simp only [Peer.byteDone, Peer.bytePos, hb, if_false, decodeByte, Peer.runByte, Peer.payload, h, Peer.nextPtr, if_true]

/-- A reader of the trace finds the byte that WRITE_BYTE sent (R93). -/
theorem scan_writeByteEvents (v : Byte) (c : Scan) (ho : c.opened = true) (hb : c.bits = []) :
    (writeByteEvents v).foldl Scan.event c =
      { c with last := (false, v.getLsbD 7), bytes := c.bytes ++ [.sent v] } := by
  obtain ⟨stb, o, last, bits, bytes, done⟩ := c
  dsimp only at ho hb
  subst ho hb
  have h := joinBits_getLsbD v
  unfold joinBits at h
  rw [writeByteEvents, flatMap_range8]
  simp [writeCycleEvents, Scan.event, Scan.clkRise, winByte, byteOfBits, List.zipIdx]
  simpa using h

/-- A reader of the trace finds the byte that READ_BYTE received (R93). -/
theorem scan_readByteEvents (v : Byte) (c : Scan) (ho : c.opened = true) (hb : c.bits = []) :
    (readByteEvents v).foldl Scan.event c =
      { c with last := (true, v.getLsbD 7), bytes := c.bytes ++ [.recv v] } := by
  obtain ⟨stb, o, last, bits, bytes, done⟩ := c
  dsimp only at ho hb
  subst ho hb
  have h := joinBits_getLsbD v
  unfold joinBits at h
  rw [readByteEvents, flatMap_range8]
  simp [readCycleEvents, Scan.event, Scan.clkRise, winByte, byteOfBits, List.zipIdx]
  simpa using h

end Sys2Proof.Machine
end

