-- ==== Sys2Proof/Tests/Slice0.lean ====
section
/-! SUPPORT. The model's own tests: well-formedness, decoding of words written out from the spec, at most two small tests of one step per instruction, and a witness for the hypotheses of every statement. Expected values are from spec/95_test_vectors.md and the rules named. -/

open Sys2Proof Sys2Proof.Machine

namespace Sys2Proof.Tests

/-! ## Small states -/

/-- Between requests, configured, with `E.en = 1` and `E.bri = 3` (the start of V-F). -/
def idle : State := State.reset.setEng { State.reset.eng with
  cfg := true, en := true, bri := 3, clk := ⟨.out, some true⟩, dio := ⟨.out, some true⟩, stb := ⟨.out, some true⟩ }

/-- `idle` while a request is in progress. -/
def busy : State := idle.setEng { idle.eng with busy := true, seq := [emit .delay] }

/-- `idle` with `P_STRICT` true. -/
def strict : State := { idle with par := { idle.par with strict := true } }

/-- `idle` with the other data layout. -/
def sheet : State := { idle with par := { idle.par with layout := .datasheet } }

/-- In a write window, `n` bits into a byte after `k` bytes, with CLK at `c`; the peer in write mode at pointer 15. -/
def receiving (c : Level) (k n : Nat) : State :=
  (idle.setEng { idle.eng with clk := ⟨.out, some c⟩, stb := ⟨.out, some false⟩ }).setPeer { idle.peer with
    win := true, nbytes := k, nbits := n, cmd := .addr, rw := some .write, am := some .auto, ptr := some 15
    disp := [(15, 0x11)] }

/-- In a read window before key byte `k`, bit `n`, with CLK at `c` and DIO as given. -/
def transmitting (c : Level) (d : PinState) (k n : Nat) : State :=
  (idle.setEng { idle.eng with clk := ⟨.out, some c⟩, dio := d, stb := ⟨.out, some false⟩ }).setPeer { idle.peer with
    win := true, nbytes := 1, cmd := .dataR, tx := true, kidx := k, kbit := n }

/-- The peer with a payload address. -/
def atPointer (am : AddrMode) (p : Nat) : State :=
  idle.setPeer { idle.peer with cmd := .addr, rw := some .write, am := some am, ptr := some p }

/-- The keypad of E5: key byte 3 is 0x80. -/
def keys80 : KeyBytes := ⟨0, 0, 0, 0x80⟩

/-- What holds of the next state, when there is one. -/
def after (i : Instr) (s : State) (p : State → Bool) : Bool :=
  match exec i s with
  | .next t => p t
  | .fault _ => false
  | .refused _ => false

/-! ## Well-formedness: an ill-formed term for each check -/

theorem test_wf_reserved_data_is_defined :
    (Instr.reservedData 0 false 0).wf .doc = false ∧ (Instr.reservedData 0 true 0).wf .datasheet = false ∧
      (Instr.reservedData 0 true 1).wf .doc = true := by decide
theorem test_wf_reserved_ctrl_addr_is_defined : (Instr.reservedCtrlAddr false 0 5).wf .doc = false := by decide
theorem test_wf_rd_of_clk : (Instr.rd .clk).wf .doc = false ∧ (Instr.rd .stb).wf .doc = false := by decide
theorem test_wf_writeOp_empty : (Instr.writeOp 0 []).wf .doc = false := by decide
theorem test_wf_writeOp_past_the_end : (Instr.writeOp 15 [1, 2]).wf .doc = false := by decide
theorem test_wf_init_brightness : (Instr.init true 8).wf .doc = false := by decide
theorem test_wf_setBrightness_width : (Instr.setBrightness 256).wf .doc = false := by decide
theorem test_wf_writeReg_address_width : (Instr.writeReg 256 0).wf .doc = false := by decide
theorem test_wf_writeReg_value_width : (Instr.writeReg 0 256).wf .doc = false := by decide
theorem test_wf_writeBuf_address_width : (Instr.writeBuf 256 1 [0]).wf .doc = false := by decide
theorem test_wf_writeBuf_length_width : (Instr.writeBuf 0 256 (List.replicate 256 0)).wf .doc = false := by decide
theorem test_wf_writeBuf_byte_width : (Instr.writeBuf 0 1 [256]).wf .doc = false := by decide
theorem test_wf_writeBuf_too_few_bytes : (Instr.writeBuf 0 3 [1, 2]).wf .doc = false := by decide
theorem test_params_pins_distinct :
    Params.default.wf ∧ ¬Params.wf { Params.default with pinStb := 0 } := by decide

/-! ## Decoding: words written out from R77 to R81 and R86 -/

theorem test_decode_write_auto :
    decodeTableWord 8 0b01000000 = some .cmdWriteAuto ∧ decodeByte .datasheet .command 0b01000000#8 = .cmdWriteAuto := by
  decide
theorem test_decode_read_keys :
    decodeTableWord 8 0b01000100 = some .cmdReadKeys ∧ decodeByte .datasheet .command 0b01000010#8 = .cmdReadKeys := by
  decide
theorem test_decode_write_fixed :
    decodeTableWord 8 0b01000001 = some .cmdWriteFixed ∧ decodeByte .datasheet .command 0b01000100#8 = .cmdWriteFixed := by
  decide
theorem test_decode_ctrl :
    decodeTableWord 8 0b10001101 = some (.ctrl true 5) ∧ decodeTableWord 8 0b10000111 = some (.ctrl false 7) := by decide
theorem test_decode_addr :
    decodeTableWord 8 0b11000111 = some (.addr 7) ∧ decodeTableWord 8 0b11001111 = some (.addr 15) := by decide
theorem test_decode_class00 : decodeTableWord 8 0b00111111 = some (.reservedClass00 0b111111) := by decide
theorem test_decode_reserved_data :
    decodeTableWord 8 0b01000101 = some (.reservedData 0 true 0b01) ∧
      decodeTableWord 8 0b01000010 = some (.reservedData 0 false 0b10) ∧
      decodeTableWord 8 0b01001000 = some (.reservedData 0b001 false 0) ∧
      decodeByte .datasheet .command 0b01000001#8 = .reservedData 0 false 0b01 := by decide
theorem test_decode_reserved_ctrl_addr :
    decodeTableWord 8 0b10010000 = some (.reservedCtrlAddr false 0b01 0) ∧
      decodeTableWord 8 0b11100000 = some (.reservedCtrlAddr true 0b10 0) := by decide
theorem test_decode_payload : decodeByte .doc .payload 0b01000000#8 = .payload 0x40 := by decide
theorem test_decode_window :
    decodeWindow .doc [0xC2#8, 0x3F#8, 0x40#8] = .ok [.addr 2, .payload 0x3F, .payload 0x40] := by decide
theorem test_decode_empty : decode .doc .command [] = .error .noByte := by decide
theorem test_decode_needs_eight_bits : decodeTableWord 16 0x40 = none := by decide
theorem test_encode :
    encode .doc .cmdReadKeys = some 0x44#8 ∧ encode .datasheet .cmdReadKeys = some 0x42#8 ∧
      encode .doc (.ctrl true 3) = some 0x8B#8 ∧ encode .doc (.addr 15) = some 0xCF#8 ∧
      encode .doc (.reservedData 0 true 0b01) = some 0x45#8 ∧ encode .doc .delay = none := by decide

/-! ## Command bytes (V-D) -/

theorem test_cmdWriteAuto :
    after .cmdWriteAuto idle (fun t => t.peer.rw == some .write && t.peer.am == some .auto && t.peer.cmd == .dataW) := by
  decide
theorem test_cmdWriteFixed : after .cmdWriteFixed idle (fun t => t.peer.am == some .fixed && !t.peer.undef) := by decide
theorem test_cmdReadKeys : after .cmdReadKeys idle (fun t => t.peer.rw == some .read && t.peer.tx) := by decide
theorem test_ctrl : after (.ctrl true 5) idle (fun t => t.peer.on && t.peer.bri == 5 && t.peer.cmd == .ctrl) := by decide
theorem test_addr : after (.addr 7) idle (fun t => t.peer.ptr == some 7 && t.peer.cmd == .addr) := by decide
theorem test_reservedClass00 : after (.reservedClass00 0) idle (fun t => t.peer.undef) := by decide
theorem test_reservedData : after (.reservedData 0 true 1) idle (fun t => t.peer.undef && t.peer.rw == none) := by decide
theorem test_reservedCtrlAddr : after (.reservedCtrlAddr false 1 0) idle (fun t => t.peer.undef && !t.peer.on) := by
  decide
theorem test_payload_auto :
    after (.payload 0xEE) (atPointer .auto 15)
      (fun t => t.peer.disp.read 15 == 0xEE && t.peer.ptr == some 16 && !t.peer.undef) := by decide
theorem test_payload_past_the_end :
    after (.payload 0xEE) (atPointer .auto 16) (fun t => t.peer.undef && t.peer.disp == []) := by decide

/-! ## Bus actions (V-A) -/

theorem test_cfgOut :
    after (.cfgOut .stb) (idle.setEng { idle.eng with stb := ⟨.unconf, some true⟩ })
      (fun t => level t .stb == some true && !t.peer.win) := by decide
theorem test_cfgIn : after (.cfgIn .clk) idle (fun t => t.eng.clk == ⟨.inp, none⟩ && !t.peer.undef) := by decide
theorem test_wr_not_out :
    after (.wr .stb true) State.reset (fun t => t.eng.stb == ⟨.unconf, some true⟩ && level t .stb == none) := by decide
theorem test_wr_eighth_bit :
    after (.wr .clk true) (receiving false 1 7) (fun t => t.peer.disp.read 15 == 0x80 && t.peer.nbytes == 2) := by
  decide
theorem test_rd :
    after (.rd .dio)
      ((transmitting false ⟨.inp, none⟩ 0 0).setPeer { (transmitting false ⟨.inp, none⟩ 0 0).peer with drive := some true })
      (fun t => t.trace == [.rd .dio true] && t.drawn == 0 && lastAnswer t.trace == some true) := by decide
theorem test_delay : after .delay idle (fun t => t.trace == [.delay] && t.eng == idle.eng && t.peer == idle.peer) := by
  decide

/-! ## Procedures (V-B, V-C, V-E) -/

theorem test_writeByte_bits :
    after (.writeByte 0xA5) (receiving true 0 0) (fun t => t.trace.filterMap (fun e => match e with
      | .wr .dio l => some l
      | _ => none) == [true, false, true, false, false, true, false, true]) := by decide +kernel
theorem test_readByte :
    after .readByte { transmitting true ⟨.out, none⟩ 3 0 with keypad := List.replicate 8 keys80 }
      (fun t => t.eng.acc == 0x80 && t.eng.dio == ⟨.out, none⟩ && t.peer.kidx == 4 && !t.peer.undef) := by decide +kernel
theorem test_strobeLow : after .strobeLow idle (fun t => t.peer.win && t.trace == [.wr .stb false]) := by decide
theorem test_strobeLow_overwrites_the_window :
    after .strobeLow (idle.setPeer { idle.peer with kidx := 4, kbit := 3, nbits := 2, cmd := .dataR })
      (fun t => t.peer.kidx == 0 && t.peer.kbit == 0 && t.peer.nbits == 0 && t.peer.cmd == .none) := by decide
theorem test_strobeHigh :
    after .strobeHigh (receiving true 1 0) (fun t => !t.peer.win && !t.peer.undef && t.trace == [.wr .stb true]) := by
  decide
theorem test_writeCommand :
    after (.writeCommand 0x8B) idle (fun t => t.peer.on && t.peer.bri == 3 && t.trace.length == 42) := by decide +kernel
theorem test_writeOp :
    actionsOf (writeOpSeq .doc 2 [0x3F]) = Spec.writeOpActions 0x40#8 2 [0x3F] ∧
      (actionsOf (writeOpSeq .doc 15 [0xEE])).length = 124 := by decide +kernel
theorem test_readWindow :
    (actionsOf (readWindowSeq .doc [])).length = 210 ∧ (actionsOf (readWindowSeq .doc []))[205]? = some (.rd .dio) := by
  decide +kernel
theorem test_sendCtrl :
    after .sendCtrl (idle.setEng { idle.eng with en := false }) (fun t => !t.peer.on && t.peer.bri == 3) := by decide +kernel

/-! ## Requests (V-F) -/

theorem test_init :
    after (.init true 3) State.reset (fun t => t.eng.cfg && t.eng.en && t.eng.bri == 3 && t.eng.seq.length == 47) := by
  decide
theorem test_init_malformed :
    after (.init true 8) State.reset (fun t => t.reports == [.refused (.init true 8) .malformed] && !t.eng.cfg) := by
  decide
theorem test_shutdown :
    after .shutdown idle (fun t => !t.eng.cfg && actionsOf t.eng.seq ==
      [.cfgIn .clk, .wr .clk false, .cfgIn .dio, .wr .dio false, .cfgIn .stb, .wr .stb false]) := by decide
theorem test_displayOn : after .displayOn idle (fun t => t.eng.en && t.eng.seq == writeCommandSeq 0x8B) := by decide
theorem test_displayOff : after .displayOff idle (fun t => !t.eng.en && t.eng.seq == writeCommandSeq 0x83) := by decide
theorem test_displayOff_before_init :
    after .displayOff State.reset (fun t => t.reports == [.refused .displayOff .notInitialized]) := by decide
theorem test_setBrightness : after (.setBrightness 7) idle (fun t => t.eng.bri == 7 && t.eng.seq == writeCommandSeq 0x8F) := by
  decide
theorem test_setBrightness_dropped :
    after (.setBrightness 8) strict (fun t => t.eng.bri == 3 && !t.eng.busy && t.eng.rspStatus == some .invalidBrightness) := by
  decide
theorem test_clear : after .clear idle (fun t => t.eng.seq.length == 724) := by decide +kernel
theorem test_writeReg :
    after (.writeReg 15 0xFF) idle (fun t => t.eng.busy && t.eng.seq == writeOpSeq .doc 15 [0xFF]) := by decide
theorem test_writeReg_dropped :
    after (.writeReg 16 0xFF) idle (fun t => !t.eng.busy && t.trace == [] &&
      t.reports == [.dropped (.writeReg 16 0xFF) .invalidAddress none]) := by decide
theorem test_writeBuf :
    after (.writeBuf 2 2 [0x3F, 0x06, 0x99]) idle (fun t => t.eng.seq == writeOpSeq .doc 2 [0x3F, 0x06]) := by decide
theorem test_writeBuf_dropped_in_the_naturals :
    after (.writeBuf 1 255 (List.replicate 255 0)) strict (fun t => t.eng.rspStatus == some .invalidAddress) := by decide +kernel
theorem test_readKeys : after .readKeys idle (fun t => t.eng.busy && t.eng.seq.length == 210) := by decide +kernel
theorem test_readKeys_held : after .readKeys busy (fun t => t.pending == [.readKeys] && t.reports == []) := by decide
theorem test_key_mask : keyMask 0x12#8 0x34#8 0x56#8 0x78#8 = 0x78563412#32 := by decide
theorem test_status_codes :
    Status.code .ok = 0 ∧ Status.code .invalidAddress = 1 ∧ Status.code .invalidBrightness = 2 := by decide
theorem test_min_duration : minDuration Params.default [.delay, .wr .clk true, .delay] = 2000 := by decide
theorem test_params_of_the_other_layout : sheet.par.layout = .datasheet ∧ sheet.par.strict = false := by decide

/-! ## Steps -/

/-- Whether a step answers a next state of which `p` holds. -/
def stepped (s : State) (p : State → Bool) : Bool :=
  match step s with
  | .next t => p t
  | .fault _ => false
  | .refused _ => false

theorem test_step_idle : stepped State.reset (fun t => t == State.reset) := by decide
theorem test_step_request : stepped (State.reset.present [.init true 3]) (fun t => t.eng.busy && t.pending == []) := by
  decide
theorem test_step_completes :
    stepped busy (fun t => !t.eng.busy && t.trace == [.delay] && t.reports == [.completed none none]) := by decide
theorem test_step_fault : step (idle.setEng { idle.eng with busy := true }) = .fault .sequencerEmpty := rfl
theorem test_fetch_word :
    stepped (State.reset.withFetchWord 8 0b11000111) (fun t => t.peer.ptr == some 7 && t.peer.nbytes == 1) := by decide
theorem test_fetch_word_reserved : stepped (State.reset.withFetchWord 8 0) (fun t => t.peer.undef) := by decide

/-! ## Witnesses: for every statement with hypotheses, a state and operands that meet them, clause by clause -/

theorem witness_DecodeOfEncode :
    ((Instr.cmdWriteAuto).wf .doc = true ∧ Instr.cmdWriteAuto.pos = some .command) ∧
      ((Instr.reservedData 0 false 0b01).wf .datasheet = true ∧
        (Instr.reservedData 0 false 0b01).pos = some .command) ∧
      ((Instr.reservedCtrlAddr true 3 15).wf .doc = true ∧ (Instr.reservedCtrlAddr true 3 15).pos = some .command) ∧
      ((Instr.payload 0xFF).wf .doc = true ∧ (Instr.payload 0xFF).pos = some .payload) := by decide
theorem witness_CommandByteFollows : idle.par.layout = .doc ∧ sheet.par.layout = .datasheet := by decide
theorem witness_CfgOut :
    (idle.eng.pin .clk).mode = .out ∧ idle.peer.win = false ∧ idle.peer.drive = none ∧
      ((transmitting false ⟨.inp, none⟩ 0 0).setPeer
        { (transmitting false ⟨.inp, none⟩ 0 0).peer with drive := some true }).peer.drive ≠ none := by decide
theorem witness_Wr :
    (idle.eng.pin .clk).mode = .out ∧ (State.reset.eng.pin .stb).mode ≠ .out ∧
      (idle.eng.pin .clk).latch = some true := by decide
theorem witness_RdAnswers : level idle .dio = some true ∧ level State.reset .dio = none := by decide
theorem witness_BusActionsChangeNothingElse :
    (∃ t, exec (BusAction.wr .clk true).toInstr (receiving false 1 7) = .next t) ∧
      (receiving false 1 7).peer.storeAddr = some 15 ∧ (receiving false 1 7).peer.storeAddr ≠ some 14 ∧
      (∃ t, exec BusAction.delay.toInstr idle = .next t) := by
  refine ⟨⟨_, rfl⟩, by decide, by decide, ⟨_, rfl⟩⟩
theorem witness_StbFall : idle.eng.stb = ⟨.out, some true⟩ ∧ idle.peer.win = false := by decide
theorem witness_StbRise :
    ((receiving true 1 0).eng.stb = ⟨.out, some false⟩ ∧ (receiving true 1 0).peer.win = true ∧
        (receiving true 1 0).peer.nbits = 0) ∧
      ((receiving true 1 7).eng.stb = ⟨.out, some false⟩ ∧ (receiving true 1 7).peer.win = true ∧
        (receiving true 1 7).peer.nbits ≠ 0) := by decide
theorem witness_ClkRise (n : Nat) :
    (receiving false 0 n).eng.clk = ⟨.out, some false⟩ ∧ (receiving false 0 n).peer.win = true ∧
      (receiving false 0 n).peer.tx = false ∧ (receiving false 0 n).peer.nbits = n := ⟨rfl, rfl, rfl, rfl⟩
theorem witness_ClkRise_levels :
    level (receiving false 0 7) .dio = some true ∧
      level ((receiving false 0 6).setEng { (receiving false 0 6).eng with dio := ⟨.out, none⟩ }) .dio = none := by decide
theorem witness_ClkFall :
    (receiving true 0 6).eng.clk = ⟨.out, some true⟩ ∧ (receiving true 0 6).peer.win = true ∧
      (receiving true 0 6).peer.tx = false := by decide
theorem witness_KeyBits (k n : Nat) :
    ((transmitting true ⟨.inp, none⟩ k n).eng.clk = ⟨.out, some true⟩ ∧
        (transmitting true ⟨.inp, none⟩ k n).peer.win = true ∧ (transmitting true ⟨.inp, none⟩ k n).peer.tx = true ∧
        (transmitting true ⟨.inp, none⟩ k n).eng.dio.mode ≠ .out ∧
        (transmitting true ⟨.inp, none⟩ k n).peer.kidx = k) ∧
      ((transmitting false ⟨.inp, none⟩ k n).eng.clk = ⟨.out, some false⟩ ∧
        (transmitting false ⟨.inp, none⟩ k n).peer.win = true ∧ (transmitting false ⟨.inp, none⟩ k n).peer.tx = true ∧
        (transmitting false ⟨.inp, none⟩ k n).peer.kbit = n) :=
  ⟨⟨rfl, rfl, rfl, by simp [transmitting, State.setEng, State.setPeer], rfl⟩, rfl, rfl, rfl, rfl⟩
theorem witness_KeyBits_boundaries :
    (transmitting true ⟨.inp, none⟩ 3 7).peer.kidx < 4 ∧ 4 ≤ (transmitting true ⟨.inp, none⟩ 4 0).peer.kidx ∧
      (transmitting false ⟨.inp, none⟩ 3 7).peer.kbit + 1 = 8 ∧
      (transmitting false ⟨.inp, none⟩ 3 6).peer.kbit + 1 ≠ 8 := by decide
theorem witness_UncoveredEdges :
    (idle.eng.clk = ⟨.out, some (!false)⟩ ∧ idle.peer.win = false) ∧
      ((receiving true 0 0).setEng { (receiving true 0 0).eng with stb := ⟨.out, some true⟩ }).eng.stb =
        ⟨.out, some true⟩ ∧
      ((receiving true 0 0).eng.pin .stb = ⟨.out, some false⟩ ∧ (receiving true 0 0).peer.win = true) ∧
      ((receiving true 0 0).setEng { (receiving true 0 0).eng with clk := ⟨.inp, some true⟩ }).eng.clk =
        ⟨.inp, some true⟩ ∧
      ((idle.setEng { idle.eng with stb := ⟨.out, some false⟩ }).peer.win = false ∧
        contention (idle.setEng { idle.eng with stb := ⟨.out, some false⟩ }) = false) := by decide
theorem witness_UncoveredEdges_latch_unknown :
    ((receiving true 0 0).setEng { (receiving true 0 0).eng with clk := ⟨.out, none⟩ }).eng.pin .clk = ⟨.out, none⟩ ∧
      (receiving true 0 0).peer.win = true ∧
      (idle.setEng { idle.eng with stb := ⟨.out, none⟩ }).eng.pin .stb = ⟨.out, none⟩ ∧ idle.peer.win = false := by
  decide
theorem witness_Payload_stores :
    Spec.stores (atPointer .auto 0).peer 0 ∧ Spec.stores (atPointer .auto 15).peer 15 ∧
      Spec.stores (atPointer .fixed 15).peer 15 := by
  refine ⟨?_, ?_, ?_⟩ <;> exact ⟨rfl, rfl, by decide, rfl, by decide⟩
theorem witness_Payload_does_not_store : ∀ p, ¬Spec.stores (atPointer .auto 16).peer p := by
  rintro p ⟨_, _, _, h, hp⟩
  have : p = 16 := (Option.some.inj h).symm
  omega
theorem witness_StepRunsTheNext :
    (busy.eng.busy = true ∧ busy.eng.seq = emit .delay :: []) ∧
      ((idle.setPending [.clear]).eng.busy = false ∧ (idle.setPending [.clear]).pending = .clear :: []) ∧
      (State.reset.eng.busy = false ∧ State.reset.pending = []) := by decide
theorem witness_StepRunsTheDecodedByte :
    let s := idle.fetchReady 0xC7#8
    s.eng.busy = true ∧ (s.eng.seq.head?.map Micro.act) = some (.wr .clk true) ∧ s.eng.clk = ⟨.out, some false⟩ ∧
      s.eng.dio = ⟨.out, some true⟩ ∧ s.peer.win = true ∧ s.peer.tx = false ∧ s.peer.drive = none ∧
      s.peer.nbits = 7 := by decide
theorem witness_FetchedWord : idle.par.layout = .doc ∧ decodeTableWord 8 0x8D = some (.ctrl true 5) := by decide
theorem witness_StepStops :
    (∃ t, step State.reset = .next t) ∧ ¬(State.reset.eng.busy = true ∧ State.reset.eng.seq = []) :=
  ⟨⟨_, rfl⟩, by decide⟩
theorem witness_WriteByte : Receiving (receiving true 0 0) ∧ Receiving (receiving true 1 0) := by decide
theorem witness_ReadByte :
    Transmitting 0 (transmitting true ⟨.out, none⟩ 0 0) ∧ Transmitting 3 (transmitting true ⟨.out, none⟩ 3 0) ∧
      (List.replicate 8 keys80).length = 8 := by decide
theorem witness_Ready : Ready idle := by decide
theorem witness_WriteOp :
    (1 ≤ [0xEE#8].length ∧ (15#8).toNat + [0xEE#8].length ≤ 16) ∧
      (1 ≤ (List.replicate 16 0x00#8).length ∧ (0#8).toNat + (List.replicate 16 0x00#8).length ≤ 16) := by decide
theorem witness_ReadWindow :
    Ready { idle with keypad := List.replicate 32 keys80 ++ [] } ∧ (List.replicate 32 keys80).length = 32 := by decide
theorem witness_ProceduresLeaveTheRest :
    (∃ t, exec (.writeByte 0xEE) (receiving true 1 0) = .next t) ∧ (receiving true 1 0).peer.storeAddr ≠ some 14 ∧
      (∃ t, exec .sendCtrl idle = .next t) := ⟨⟨_, rfl⟩, by decide, ⟨_, rfl⟩⟩
theorem witness_BusyRequestsAreHeld_idle :
    (idle.setPending [.clear]).eng.busy = false ∧ (idle.setPending [.clear]).pending = .clear :: [] := by decide
theorem witness_BusyRequestsAreHeld : busy.eng.busy = true ∧ ∃ t, step busy = .next t := ⟨rfl, _, rfl⟩
theorem witness_Refusals_malformed : State.reset.eng.busy = false ∧ ¬Spec.fits (.init true 8) ∧
    ¬Spec.fits (.setBrightness 256) ∧ ¬Spec.fits (.writeReg 256 0) ∧ ¬Spec.fits (.writeBuf 0 3 [1, 2]) := by
  simp [Spec.fits, State.reset, Engine.reset]
theorem witness_Refusals_notInitialized :
    State.reset.eng.busy = false ∧ Spec.fits (.setBrightness 8) ∧ ¬Spec.anyCfg (.setBrightness 8) ∧
      State.reset.eng.cfg = false := by
  simp [Spec.fits, Spec.anyCfg, State.reset, Engine.reset]
theorem witness_Drops : idle.eng.busy = false ∧ idle.eng.cfg = true ∧
    (Spec.fits (.writeReg 16 0) ∧ Spec.dropped (.writeReg 16 0) .invalidAddress) ∧
    (Spec.fits (.writeBuf 0 0 []) ∧ Spec.dropped (.writeBuf 0 0 []) .invalidAddress) ∧
    (Spec.fits (.writeBuf 15 2 [1, 2]) ∧ Spec.dropped (.writeBuf 15 2 [1, 2]) .invalidAddress) ∧
    (Spec.fits (.setBrightness 8) ∧ Spec.dropped (.setBrightness 8) .invalidBrightness) := by
  simp [Spec.fits, Spec.dropped, idle, State.setEng, State.reset, Engine.reset]
theorem witness_NoDrop : (∀ st, ¬Spec.dropped (.writeReg 15 255) st) ∧ (∀ st, ¬Spec.dropped (.writeBuf 15 1 [0]) st) ∧
    (∀ st, ¬Spec.dropped (.setBrightness 7) st) ∧ (∀ st, ¬Spec.dropped .clear st) ∧ Spec.anyCfg (.init true 7) := by
  simp [Spec.dropped, Spec.anyCfg]
theorem witness_AddressRange :
    idle.eng.busy = false ∧ idle.eng.cfg = true ∧ (∀ d ∈ List.replicate 255 0, d ≤ 255) ∧
      255 ≤ (List.replicate 255 0).length := by decide +kernel
theorem witness_Accepted : State.reset.eng.busy = false ∧ idle.eng.busy = false ∧ idle.eng.cfg = true := by decide
theorem witness_Transfers :
    (1 ≤ 1 ∧ 15 + 1 ≤ 16 ∧ (∀ d ∈ [255], d ≤ 255) ∧ 1 ≤ [255].length) ∧
      (1 ≤ 16 ∧ 0 + 16 ≤ 16 ∧ (∀ d ∈ List.replicate 16 0, d ≤ 255) ∧ 16 ≤ (List.replicate 16 0).length) := by decide
theorem witness_Expansions : Spec.fits (.init true 7) ∧ Spec.fits (.writeReg 255 255) ∧ Spec.fits (.writeBuf 0 0 []) ∧
    Spec.fits (.setBrightness 255) ∧ Spec.fits .readKeys := by simp [Spec.fits]
theorem witness_Brightness : ∀ p ∈ [(Request.displayOff, Request.displayOn), (.displayOn, .displayOff)],
    (p.1 = .displayOff ∧ p.2 = .displayOn ∨ p.1 = .displayOn ∧ p.2 = .displayOff) ∧
      (idle.setPending [p.1, p.2]).eng.busy = false ∧ (idle.setPending [p.1, p.2]).eng.cfg = true ∧
      (idle.setPending [p.1, p.2]).pending = [p.1, p.2] ∧
      (idle.setPending [p.1, p.2]).eng.stb = ⟨.out, some true⟩ := by decide
theorem witness_Running : busy.eng.busy = true ∧ busy.eng.seq ≠ [] := by decide
theorem witness_Settled : Settled idle ∧ Settled State.reset := by decide
theorem witness_WriteBufRun : ∀ q ∈ [Request.writeBuf 15 1 [0xEE], .writeBuf 0 16 (List.replicate 16 0xEE),
      .writeReg 15 0xFF, .clear],
    Settled (idle.setPending [q]) ∧ (idle.setPending [q]).eng.busy = false ∧ (idle.setPending [q]).eng.cfg = true ∧
      (idle.setPending [q]).pending = q :: [] := by decide
theorem witness_ReadKeysRun :
    let s := { idle with pending := [.readKeys], keypad := List.replicate 32 keys80 ++ [keys80] }
    Settled s ∧ s.eng.busy = false ∧ s.eng.cfg = true ∧ s.pending = .readKeys :: [] := by decide
theorem witness_Lifecycle :
    Settled (State.reset.setPending [.init true 7]) ∧ Settled (idle.setPending [.shutdown]) ∧
      Settled (State.reset.setPending [.shutdown]) := ⟨by decide, by decide, by decide⟩
theorem witness_SafeRun : SafeRun State.reset ∧ SafeRun idle ∧ (∃ t, step idle = .next t) :=
  ⟨by decide, by decide, _, rfl⟩
theorem witness_PeerBounds :
    PeerBounds (atPointer .auto 15).peer ∧ ∃ t, exec (.payload 1) (atPointer .auto 15) = .next t := ⟨by decide, _, rfl⟩
theorem witness_Undef :
    let s := idle.setPeer { idle.peer with undef := true }
    s.peer.undef = true ∧ ∃ t, exec .cmdWriteAuto s = .next t := ⟨rfl, _, rfl⟩
theorem witness_ControlState :
    stepped (idle.setPending [.displayOff]) (fun t => t.eng.en != idle.eng.en) ∧
      stepped (idle.setPending [.setBrightness 0]) (fun t => t.eng.bri != idle.eng.bri) ∧
      stepped (idle.setPending [.shutdown]) (fun t => t.eng.cfg != idle.eng.cfg) := by decide
theorem witness_EachStep : (∃ t, step busy = .next t) ∧ (∃ t, step (idle.setPending [.clear]) = .next t) :=
  ⟨⟨_, rfl⟩, ⟨_, rfl⟩⟩
theorem witness_DisplayRegisters :
    let s := (receiving false 1 7).setEng { (receiving false 1 7).eng with
      busy := true, seq := [emit (.wr .clk true), emit .delay] }
    stepped s (fun t => t.peer.disp.read 15 != s.peer.disp.read 15) := by decide
theorem witness_Strict :
    let s := idle.setPending [.writeReg 16 0]
    let u := strict.setPending [.writeReg 16 0]
    u = { s with
      par := { s.par with strict := u.par.strict }
      eng := { s.eng with rspStatus := u.eng.rspStatus }
      reports := u.reports } ∧ ∃ t, step s = .next t := ⟨by decide, _, rfl⟩
theorem witness_EngineIgnoresThePeer :
    let s := busy
    let u := busy.setPeer (atPointer .auto 3).peer
    (s.par = u.par ∧ s.pending = u.pending ∧ s.trace.map BusEvent.action = u.trace.map BusEvent.action ∧
      s.eng = { u.eng with
        tx := s.eng.tx, i := s.eng.i, acc := s.eng.acc, kacc := s.eng.kacc, k := s.eng.k
        rspKeys := s.eng.rspKeys }) ∧
      (∃ t, step s = .next t) ∧ ∃ v, step u = .next v := ⟨by decide, ⟨_, rfl⟩, ⟨_, rfl⟩⟩

end Sys2Proof.Tests
end

section
/-! PROOF. What two machines that agree on `E.busy` and `E.cfg` do with a request: the same outcome. -/

namespace Sys2Proof.Machine

/-- With nothing in progress and nothing waiting a step changes nothing (R154). -/
theorem step_of_idle (s : State) (hb : s.eng.busy = false) (hp : s.pending = []) : step s = .next s := by
  simp [step, nextWork, hb, hp]

/-- The outcome of a request is decided by its operands, `E.busy` and `E.cfg` alone (R119, R138 to R141): two machines
that agree on these two take the same one. -/
theorem processRequest_sameOutcome (q : Request) (s u : State) (hb : u.eng.busy = s.eng.busy)
    (hc : u.eng.cfg = s.eng.cfg) :
    (processRequest q s = holdRequest q s ∧ processRequest q u = holdRequest q u) ∨
      (∃ r, processRequest q s = refuseRequest q r s ∧ processRequest q u = refuseRequest q r u) ∨
      (∃ r, processRequest q s = dropRequest q r s ∧ processRequest q u = dropRequest q r u) ∨
      (processRequest q s = acceptRequest q s ∧ processRequest q u = acceptRequest q u) := by
  unfold processRequest
  rw [hb, hc]
  split
  · exact .inl ⟨rfl, rfl⟩
  · split
    · exact .inr (.inl ⟨.malformed, rfl, rfl⟩)
    · split
      · exact .inr (.inl ⟨.notInitialized, rfl, rfl⟩)
      · cases q.dropReason with
        | some r => exact .inr (.inr (.inl ⟨r, rfl, rfl⟩))
        | none => exact .inr (.inr (.inr ⟨rfl, rfl⟩))

end Sys2Proof.Machine
end

section
/-! PROOF. `P_STRICT` and the responses (R5, R137): every part of a step commutes with replacing them. -/

namespace Sys2Proof.Machine

/-- `s` with other values of what `P_STRICT` may touch: the parameter itself, `E.rsp_status` and the reports. -/
def State.withStrict (s : State) (b : Bool) (st : Option Status) (rs : List Report) : State :=
  { s with par := { s.par with strict := b }, eng := { s.eng with rspStatus := st }, reports := rs }

section
variable (s : State) (b : Bool) (st : Option Status) (rs : List Report)

@[simp] theorem State.withStrict_peer : (s.withStrict b st rs).peer = s.peer := rfl
@[simp] theorem State.withStrict_layout : (s.withStrict b st rs).par.layout = s.par.layout := rfl
@[simp] theorem State.withStrict_trace : (s.withStrict b st rs).trace = s.trace := rfl
@[simp] theorem State.withStrict_pin (p : Pin) : (s.withStrict b st rs).eng.pin p = s.eng.pin p := by
  cases p <;> rfl

/-! ## The parts of the state and the draws -/

@[simp] theorem State.withStrict_setPeer (t : Peer) :
    (s.withStrict b st rs).setPeer t = (s.setPeer t).withStrict b st rs := rfl
@[simp] theorem State.withStrict_setPending (qs : List Request) :
    (s.withStrict b st rs).setPending qs = (s.setPending qs).withStrict b st rs := rfl
@[simp] theorem State.withStrict_record (e : BusEvent) :
    (s.withStrict b st rs).record e = (s.record e).withStrict b st rs := rfl
@[simp] theorem State.withStrict_setPin (p : Pin) (q : PinState) :
    (s.withStrict b st rs).setEng ((s.withStrict b st rs).eng.setPin p q) =
      (s.setEng (s.eng.setPin p q)).withStrict b st rs := by
  cases p <;> rfl
@[simp] theorem State.withStrict_drawKeys :
    (s.withStrict b st rs).drawKeys = (s.drawKeys.1, s.drawKeys.2.withStrict b st rs) := by
  obtain ⟨par, eng, peer, pend, rep, tr, kp, dr⟩ := s
  cases kp <;> rfl

theorem State.withStrict_ite (c : Prop) [Decidable c] (u : State) :
    (if c then s else u).withStrict b st rs = if c then s.withStrict b st rs else u.withStrict b st rs :=
  apply_ite (State.withStrict · b st rs) c s u

/-! ## The wires and the peer's reactions -/

@[simp] theorem level_withStrict (p : Pin) : level (s.withStrict b st rs) p = level s p := by
  cases p <;> rfl

theorem flagContention_withStrict :
    flagContention (s.withStrict b st rs) = (flagContention s).withStrict b st rs :=
  (State.withStrict_ite (s.setPeer s.peer.setUndef) b st rs (contention s = true) s).symm

theorem reactClk_withStrict (c : WireChange) :
    reactClk c (s.withStrict b st rs) = (reactClk c s).withStrict b st rs := by
  cases c with
  | none => rfl
  | blur => exact (State.withStrict_ite (s.setPeer s.peer.setUndef) b st rs (s.peer.win = true) s).symm
  | rise =>
    simp only [reactClk, State.withStrict_peer, State.withStrict_setPeer, State.withStrict_layout, level_withStrict,
      State.withStrict_ite]
  | fall =>
    simp only [reactClk, State.withStrict_peer, State.withStrict_setPeer, State.withStrict_drawKeys,
      State.withStrict_ite]

theorem react_withStrict (old new : State) :
    react (old.withStrict b st rs) (new.withStrict b st rs) = (react old new).withStrict b st rs := by
  simp only [react, reactStb, level_withStrict, State.withStrict_peer, State.withStrict_setPeer, reactClk_withStrict,
    flagContention_withStrict]

/-! ## One bus action -/

theorem actOnPin_withStrict (p : Pin) (q : PinState) (ev : BusEvent) :
    actOnPin p q ev (s.withStrict b st rs) = (actOnPin p q ev s).withStrict b st rs := by
  simp only [actOnPin, State.withStrict_setPin, State.withStrict_record, react_withStrict]

theorem doRd_withStrict (p : Pin) : doRd p (s.withStrict b st rs) = (doRd p s).withStrict b st rs := by
  unfold doRd sampleWire
  rw [level_withStrict]
  cases level s p <;> rfl

theorem performAct_withStrict (a : BusAction) :
    performAct a (s.withStrict b st rs) = (performAct a s).withStrict b st rs := by
  cases a with
  | cfgOut p => simp only [performAct, doCfgOut, State.withStrict_pin, actOnPin_withStrict]
  | cfgIn p => exact actOnPin_withStrict s b st rs p _ _
  | wr p l => simp only [performAct, doWr, State.withStrict_pin, actOnPin_withStrict]
  | rd p => exact doRd_withStrict s b st rs p
  | delay => rfl

/-! ## What follows the bus action -/

/-- The assignments do not look at the status. -/
theorem Engine.assign_rspStatus (d : Option Level) (as : List Assign) (e : Engine) :
    Engine.assign { e with rspStatus := st } d as = { e.assign d as with rspStatus := st } := by
  unfold Engine.assign
  induction as generalizing e with
  | nil => rfl
  | cons a as ih =>
    have ha : Assign.apply d { e with rspStatus := st } a = { Assign.apply d e a with rspStatus := st } := by
      cases a <;> cases d <;> rfl
    rw [List.foldl_cons, List.foldl_cons, ha, ih]

theorem finishMicro_withStrict (m : Micro) (rest : List Micro) :
    ∃ st' rs', finishMicro m rest (s.withStrict b st rs) = (finishMicro m rest s).withStrict b st' rs' := by
  have ha : (s.withStrict b st rs).eng.assign (lastAnswer s.trace) m.asg =
      { s.eng.assign (lastAnswer s.trace) m.asg with rspStatus := st } := Engine.assign_rspStatus st _ _ _
  by_cases h : rest = []
  · subst h
    rw [finishMicro_last, finishMicro_last, State.withStrict_trace, ha]
    exact ⟨_, _, rfl⟩
  · rw [finishMicro_more _ _ _ h, finishMicro_more _ _ _ h, State.withStrict_trace, ha]
    exact ⟨_, _, rfl⟩

/-! ## The outcomes of a request -/

theorem acceptRequest_withStrict (q : Request) :
    acceptRequest q (s.withStrict b st rs) = (acceptRequest q s).withStrict b st (rs ++ [.accepted q]) := by
  cases q <;> rfl

theorem processRequest_withStrict (q : Request) :
    ∃ st' rs', processRequest q (s.withStrict b st rs) = (processRequest q s).withStrict b st' rs' := by
  obtain ⟨h, h'⟩ | ⟨r, h, h'⟩ | ⟨r, h, h'⟩ | ⟨h, h'⟩ :=
    processRequest_sameOutcome q s (s.withStrict b st rs) rfl rfl <;> rw [h, h']
  · exact ⟨_, _, rfl⟩
  · exact ⟨_, _, rfl⟩
  · exact ⟨_, _, rfl⟩
  · exact ⟨_, _, acceptRequest_withStrict s b st rs q⟩

/-! ## The step -/

/-- A step from other values of `P_STRICT`, status and reports is the same step, with other status and reports. -/
theorem step_withStrict (t : State) (h : step s = .next t) :
    ∃ st' rs', step (s.withStrict b st rs) = .next (t.withStrict b st' rs') := by
  obtain ⟨m, rest, hb, hs, rfl⟩ | ⟨q, rest, hb, hp, rfl⟩ | ⟨hb, hp, rfl⟩ := step_cases s t h
  · obtain ⟨st', rs', hf⟩ := finishMicro_withStrict (performAct m.act s) b st rs m rest
    exact ⟨st', rs', by rw [step_of_busy (s.withStrict b st rs) m rest hb hs, performAct_withStrict, hf]⟩
  · obtain ⟨st', rs', hq⟩ := processRequest_withStrict (s.setPending rest) b st rs q
    exact ⟨st', rs', by rw [step_of_pending (s.withStrict b st rs) q rest hb hp, State.withStrict_setPending, hq]⟩
  · exact ⟨st, rs, step_of_idle _ hb hp⟩

end

/-- Settles O59: the premise says that the second machine is the first `withStrict`, with which a step commutes. -/
theorem strictChangesOnlyTheResponses : Obligations.StrictChangesOnlyTheResponses := by
  intro s u t hu h
  change u = s.withStrict u.par.strict u.eng.rspStatus u.reports at hu
  obtain ⟨st, rs, hv⟩ := step_withStrict s u.par.strict u.eng.rspStatus u.reports t h
  rw [← hu] at hv
  exact ⟨_, hv, rfl⟩

end Sys2Proof.Machine
end

section
/-! PROOF. The engine and the peer (R12, R142): what the engine does is a function of its control part, which holds
everything but the transient datapath and the key response. -/

namespace Sys2Proof.Machine

/-! ## The control part of the engine -/

/-- The engine with the transient datapath and the key response blanked: what is left is its control part. -/
def Engine.control (e : Engine) : Engine := { e with tx := 0, i := 0, acc := 0, kacc := 0, k := 0, rspKeys := 0 }

/-- Two engines have the same control part exactly when they differ in the datapath and the key response only. -/
theorem Engine.control_eq_iff (e f : Engine) :
    e.control = f.control ↔
      e = { f with tx := e.tx, i := e.i, acc := e.acc, kacc := e.kacc, k := e.k, rspKeys := e.rspKeys } := by
  cases e; cases f; simp [Engine.control]

theorem Engine.control_setPin (e : Engine) (p : Pin) (q : PinState) :
    (e.setPin p q).control = e.control.setPin p q := by
  cases p <;> rfl

theorem Engine.control_pin (e : Engine) (p : Pin) : e.control.pin p = e.pin p := by cases p <;> rfl

/-- The assignments write the datapath and the key response only. -/
theorem Engine.control_assign (d : Option Level) (as : List Assign) (e : Engine) :
    (e.assign d as).control = e.control := by
  unfold Engine.assign
  induction as generalizing e with
  | nil => rfl
  | cons a as ih =>
    have ha : (Assign.apply d e a).control = e.control := by cases a <;> cases d <;> rfl
    rw [List.foldl_cons, ih, ha]

/-! ## One bus action -/

/-- What a bus action does to the engine (R95 to R99): it sets one pin, or nothing. -/
def BusAction.onEngine (e : Engine) : BusAction → Engine
  | .cfgOut p => e.setPin p { mode := .out, latch := (e.pin p).latch }
  | .cfgIn p => e.setPin p { mode := .inp, latch := none }
  | .wr p l => e.setPin p { mode := (e.pin p).mode, latch := some l }
  | .rd _ => e
  | .delay => e

/-- The engine after a bus action does not depend on the peer. -/
theorem performAct_onEngine (a : BusAction) (s : State) : (performAct a s).eng = a.onEngine s.eng := by
  cases a with
  | cfgOut p => exact actOnPin_eng p _ _ s
  | cfgIn p => exact actOnPin_eng p _ _ s
  | wr p l => exact actOnPin_eng p _ _ s
  | rd p => exact (doRd_frame p s).2.1
  | delay => rfl

theorem BusAction.control_onEngine (a : BusAction) (e : Engine) :
    (a.onEngine e).control = a.onEngine e.control := by
  cases a <;> simp only [BusAction.onEngine, Engine.control_setPin, Engine.control_pin]

@[simp] theorem BusAction.event_action (a : BusAction) (b : Level) : (a.event b).action = a := by cases a <;> rfl

/-- A bus action leaves itself in the trace, whatever an `RD` answers (R153). -/
theorem performAct_actions (a : BusAction) (s : State) :
    (performAct a s).trace.map BusEvent.action = s.trace.map BusEvent.action ++ [a] := by
  obtain ⟨b, h⟩ := performAct_trace a s
  simp [h]

/-! ## Completion, a drop and acceptance -/

theorem completeRequest_control (m : Micro) (s : State) :
    (completeRequest m s).eng.control =
      { s.eng.control with busy := false, rspStatus := nextStatus s.par .ok s.eng.control.rspStatus } := rfl

theorem dropRequest_control (q : Request) (r : DropReason) (s : State) :
    (dropRequest q r s).eng.control =
      { s.eng.control with rspStatus := nextStatus s.par r.status s.eng.control.rspStatus } := rfl

/-- An expansion is a function of the control part, of which it reads `E.en` and `E.bri` only (R12). -/
theorem acceptRequest_control (q : Request) (s : State) :
    (acceptRequest q s).eng.control =
      { q.update s.eng.control with seq := q.expansion s.par.layout (q.update s.eng.control), busy := true } := by
  cases q <;> rfl

/-! ## Twins: machines that differ in what was read from DIO and in their peers -/

/-- Same parameters, waiting requests and actions so far, and engines with the same control part; the peers are any. -/
structure EngineTwin (s u : State) : Prop where
  par     : s.par = u.par
  pending : s.pending = u.pending
  actions : s.trace.map BusEvent.action = u.trace.map BusEvent.action
  control : s.eng.control = u.eng.control

section
variable {s u : State}

theorem EngineTwin.busy (h : EngineTwin s u) : s.eng.busy = u.eng.busy :=
  show s.eng.control.busy = u.eng.control.busy by rw [h.control]
theorem EngineTwin.cfg (h : EngineTwin s u) : s.eng.cfg = u.eng.cfg :=
  show s.eng.control.cfg = u.eng.control.cfg by rw [h.control]
theorem EngineTwin.seq (h : EngineTwin s u) : s.eng.seq = u.eng.seq :=
  show s.eng.control.seq = u.eng.control.seq by rw [h.control]

theorem EngineTwin.performAct (h : EngineTwin s u) (a : BusAction) :
    EngineTwin (performAct a s) (performAct a u) where
  par := by rw [(performAct_frame a s).1, (performAct_frame a u).1, h.par]
  pending := by rw [(performAct_frame a s).2.1, (performAct_frame a u).2.1, h.pending]
  actions := by rw [performAct_actions, performAct_actions, h.actions]
  control := by
    rw [performAct_onEngine, performAct_onEngine, BusAction.control_onEngine, BusAction.control_onEngine, h.control]

/-- Twins stay twins when both take the rest of the sequence, whatever was assigned to the datapath. -/
theorem EngineTwin.assign (h : EngineTwin s u) (d d' : Option Level) (as : List Assign) (rest : List Micro) :
    EngineTwin (s.setEng { s.eng.assign d as with seq := rest })
      (u.setEng { u.eng.assign d' as with seq := rest }) where
  par := h.par
  pending := h.pending
  actions := h.actions
  control := by
    have hc : (s.eng.assign d as).control = (u.eng.assign d' as).control := by
      rw [Engine.control_assign, Engine.control_assign, h.control]
    exact congrArg (fun e => { e with seq := rest }) hc

theorem EngineTwin.completeRequest (h : EngineTwin s u) (m : Micro) :
    EngineTwin (completeRequest m s) (completeRequest m u) where
  par := h.par
  pending := h.pending
  actions := h.actions
  control := by rw [completeRequest_control, completeRequest_control, h.control, h.par]

theorem EngineTwin.finishMicro (h : EngineTwin s u) (m : Micro) (rest : List Micro) :
    EngineTwin (finishMicro m rest s) (finishMicro m rest u) := by
  have ha := h.assign (lastAnswer s.trace) (lastAnswer u.trace) m.asg rest
  by_cases hr : rest = []
  · subst hr
    exact ha.completeRequest m
  · rw [finishMicro_more _ _ _ hr, finishMicro_more _ _ _ hr]
    exact ha

theorem EngineTwin.setPending (h : EngineTwin s u) (qs : List Request) :
    EngineTwin (s.setPending qs) (u.setPending qs) :=
  ⟨h.par, rfl, h.actions, h.control⟩

theorem EngineTwin.processRequest (h : EngineTwin s u) (q : Request) :
    EngineTwin (processRequest q s) (processRequest q u) := by
  obtain ⟨hs, hu⟩ | ⟨r, hs, hu⟩ | ⟨r, hs, hu⟩ | ⟨hs, hu⟩ :=
    processRequest_sameOutcome q s u h.busy.symm h.cfg.symm <;> rw [hs, hu]
  · exact ⟨h.par, congrArg (· ++ [q]) h.pending, h.actions, h.control⟩
  · exact ⟨h.par, h.pending, h.actions, h.control⟩
  · exact ⟨h.par, h.pending, h.actions, by rw [dropRequest_control, dropRequest_control, h.control, h.par]⟩
  · exact ⟨h.par, h.pending, h.actions, by rw [acceptRequest_control, acceptRequest_control, h.control, h.par]⟩

/-! ## The step -/

/-- Twins do the same in a step: the same bus action, the same request, or nothing. -/
theorem EngineTwin.step {t v : State} (h : EngineTwin s u) (hs : step s = .next t) (hu : step u = .next v) :
    EngineTwin t v := by
  obtain ⟨m, rest, hb, hq, rfl⟩ | ⟨q, rest, hb, hp, rfl⟩ | ⟨hb, hp, rfl⟩ := step_cases s t hs
  · rw [step_of_busy u m rest (h.busy ▸ hb) (h.seq ▸ hq)] at hu
    cases hu
    exact (h.performAct m.act).finishMicro m rest
  · rw [step_of_pending u q rest (h.busy ▸ hb) (h.pending ▸ hp)] at hu
    cases hu
    exact (h.setPending rest).processRequest q
  · rw [step_of_idle u (h.busy ▸ hb) (h.pending ▸ hp)] at hu
    cases hu
    exact h

end

/-- Settles O60: the two machines are twins, and a step keeps twins. -/
theorem engineIgnoresThePeer : Obligations.EngineIgnoresThePeer := by
  rintro s u t v ⟨hpar, hpend, htr, heng⟩ hs hu
  have h : EngineTwin s u := ⟨hpar, hpend, htr, (Engine.control_eq_iff _ _).2 heng⟩
  have ht : EngineTwin t v := h.step hs hu
  exact ⟨ht.par, ht.pending, ht.actions, (Engine.control_eq_iff _ _).1 ht.control⟩

end Sys2Proof.Machine
end

section
/-! PROOF. The expansions (R12, R163, R174): the entries of each procedure carry the spec's list of actions, and the
spec's lists have the spec's counts. -/

namespace Sys2Proof.Machine

/-! ## The actions of the procedures -/

theorem actionsOf_append (ms ns : List Micro) : actionsOf (ms ++ ns) = actionsOf ms ++ actionsOf ns :=
  List.map_append

theorem actionsOf_flatMap {α : Type} (f : α → List Micro) (l : List α) :
    actionsOf (l.flatMap f) = l.flatMap (fun x => actionsOf (f x)) :=
  List.map_flatMap

/-- R100: the spec's 40 actions, the least significant bit first. -/
theorem actionsOf_writeByteSeq (v : Byte) : actionsOf (writeByteSeq v) = Spec.writeByteActions v :=
  actionsOf_flatMap (writeCycle v) (List.range 8)

/-- R101: the assignments before and after are no actions. -/
theorem actionsOf_readByteSeq (before after : List Assign) :
    actionsOf (readByteSeq before after) = Spec.readByteActions := rfl

/-- R109: one byte between two strobes. -/
theorem actionsOf_writeCommandSeq (c : Byte) : actionsOf (writeCommandSeq c) = Spec.writeCommandActions c := by
  rw [writeCommandSeq, actionsOf_append, actionsOf_append, actionsOf_writeByteSeq]
  rfl

/-- `ADDR(a)` takes the low four bits of the address (R112). -/
theorem addrByte_ofNat (a : Nat) :
    addrByte ((BitVec.ofNat 8 a).extractLsb' 0 4) = 0xC0#8 ||| (BitVec.ofNat 4 a).setWidth 8 := by
  have h : (BitVec.ofNat 8 a).extractLsb' 0 4 = BitVec.ofNat 4 a := by
    apply BitVec.eq_of_toNat_eq
    simp only [BitVec.extractLsb'_toNat, BitVec.toNat_ofNat, Nat.shiftRight_zero]
    omega
  rw [h, addrByte]

theorem cmdWriteAutoByte_eq (lay : DataLayout) : cmdWriteAutoByte lay = Spec.writeAuto lay := by cases lay <;> rfl

theorem cmdReadKeysByte_eq (lay : DataLayout) : cmdReadKeysByte lay = Spec.readKeys lay := by cases lay <;> rfl

/-- R116: the write-mode window, then the address and the data. -/
theorem actionsOf_writeOpSeq (lay : DataLayout) (a : Nat) (d : List Byte) :
    actionsOf (writeOpSeq lay (BitVec.ofNat 8 a) d) =
      Spec.writeOpActions (Spec.writeAuto lay) (BitVec.ofNat 4 a) d := by
  simp only [writeOpSeq, actionsOf_append, actionsOf_flatMap, actionsOf_writeCommandSeq, actionsOf_writeByteSeq,
    addrByte_ofNat, cmdWriteAutoByte_eq, Spec.writeOpActions, List.append_assoc]
  rfl

/-- R117: the command byte, then the four key bytes. -/
theorem actionsOf_readWindowSeq (lay : DataLayout) (after : List Assign) :
    actionsOf (readWindowSeq lay after) = Spec.readWindowActions (Spec.readKeys lay) := by
  simp only [readWindowSeq, actionsOf_append, actionsOf_readByteSeq, actionsOf_writeByteSeq, cmdReadKeysByte_eq,
    Spec.readWindowActions, List.append_assoc]
  rfl

/-- `CTRL(e, b)` is `1000EBBB` in bits (R111). -/
theorem ctrlByte_eq (e : Bool) (b : BitVec 3) : ctrlByte e b = Spec.ctrl e b := by
  revert b; cases e <;> decide

/-- R118: the display-control command for `E.en` and `E.bri`. -/
theorem actionsOf_sendCtrlSeq (e : Engine) :
    actionsOf (sendCtrlSeq e) = Spec.writeCommandActions (Spec.ctrl e.en e.bri) := by
  rw [sendCtrlSeq, actionsOf_writeCommandSeq, ctrlByte_eq]

/-- The expansion of every request, well-formed or not, is the spec's list (R121 to R129). -/
theorem actionsOf_expansion (lay : DataLayout) (e : Engine) (q : Request) :
    actionsOf (q.expansion lay e) = Spec.actions lay e.en e.bri q := by
  cases q with
  | init on b =>
    rw [Request.expansion, initSeq, actionsOf_append, actionsOf_sendCtrlSeq]
    rfl
  | shutdown => rfl
  | displayOn => exact actionsOf_sendCtrlSeq e
  | displayOff => exact actionsOf_sendCtrlSeq e
  | setBrightness b => exact actionsOf_sendCtrlSeq e
  | clear => exact actionsOf_writeOpSeq lay 0 (List.replicate 16 0x00#8)
  | writeReg a v => exact actionsOf_writeOpSeq lay a [BitVec.ofNat 8 v]
  | writeBuf a n bytes => exact actionsOf_writeOpSeq lay a (bufBytes n bytes)
  | readKeys => exact actionsOf_readWindowSeq lay [.returnKeys]

/-! ## The counts of the spec's lists (R174) -/

theorem delayCount_append (as bs : List BusAction) : delayCount (as ++ bs) = delayCount as + delayCount bs :=
  List.count_append

/-- A byte takes 40 actions, of which 16 are `DELAY`. -/
theorem writeByteActions_counts (v : Byte) :
    (Spec.writeByteActions v).length = 40 ∧ delayCount (Spec.writeByteActions v) = 16 := ⟨rfl, rfl⟩

theorem writeBytesActions_counts (d : List Byte) :
    (d.flatMap Spec.writeByteActions).length = 40 * d.length ∧
      delayCount (d.flatMap Spec.writeByteActions) = 16 * d.length := by
  induction d with
  | nil => exact ⟨rfl, rfl⟩
  | cons v d ih =>
    obtain ⟨hl, hd⟩ := ih
    obtain ⟨hl1, hd1⟩ := writeByteActions_counts v
    rw [List.flatMap_cons, List.length_append, delayCount_append, List.length_cons, hl, hl1, hd, hd1]
    omega

theorem writeCommandActions_counts (c : Byte) :
    (Spec.writeCommandActions c).length = 42 ∧ delayCount (Spec.writeCommandActions c) = 16 := ⟨rfl, rfl⟩

theorem writeOpActions_counts (w : Byte) (a : BitVec 4) (d : List Byte) :
    (Spec.writeOpActions w a d).length = 84 + 40 * d.length ∧
      delayCount (Spec.writeOpActions w a d) = 32 + 16 * d.length := by
  obtain ⟨hl, hd⟩ := writeBytesActions_counts d
  have hs (l : Level) : delayCount [.wr .stb l] = 0 := rfl
  simp only [Spec.writeOpActions, List.length_append, delayCount_append, writeCommandActions_counts,
    writeByteActions_counts, hl, hd, hs, List.length_singleton]
  omega

theorem readByteActions_counts :
    Spec.readByteActions.length = 42 ∧ delayCount Spec.readByteActions = 16 := ⟨rfl, rfl⟩

theorem readWindowActions_counts (w : Byte) :
    (Spec.readWindowActions w).length = 210 ∧ delayCount (Spec.readWindowActions w) = 80 := by
  have h4 (l : List BusAction) : (List.range 4).flatMap (fun _ => l) = l ++ (l ++ (l ++ (l ++ []))) := rfl
  simp only [Spec.readWindowActions, h4, List.length_append, delayCount_append, writeByteActions_counts,
    readByteActions_counts]
  exact ⟨rfl, rfl⟩

/-- The spec's lists have R174's counts; WRITE_BUF needs its `n` bytes (R88). -/
theorem actions_counts (lay : DataLayout) (en : Bool) (bri : BitVec 3) (q : Request) (hq : Spec.fits q) :
    (Spec.actions lay en bri q).length = Spec.actionCount q ∧
      delayCount (Spec.actions lay en bri q) = Spec.delays q := by
  cases q with
  | init on b => exact ⟨rfl, rfl⟩
  | shutdown => exact ⟨rfl, rfl⟩
  | displayOn => exact writeCommandActions_counts _
  | displayOff => exact writeCommandActions_counts _
  | setBrightness b => exact writeCommandActions_counts _
  | clear => exact writeOpActions_counts _ _ _
  | writeReg a v => exact writeOpActions_counts _ _ _
  | writeBuf a n bytes =>
    obtain ⟨_, _, _, hn⟩ := hq
    have h := writeOpActions_counts (Spec.writeAuto lay) (BitVec.ofNat 4 a) ((bytes.take n).map (BitVec.ofNat 8))
    rwa [List.length_map, List.length_take, Nat.min_eq_left hn] at h
  | readKeys => exact readWindowActions_counts _

/-- Settles O43: the expansion is the spec's list, which has the spec's counts. -/
theorem expansionsAreTheSpecsActions : Obligations.ExpansionsAreTheSpecsActions := by
  intro lay e q hq
  rw [actionsOf_expansion]
  exact ⟨rfl, actions_counts lay e.en e.bri q hq⟩

end Sys2Proof.Machine
end

section
/-! PROOF. The step and its parts: what follows a bus action, what processing a request leaves alone, and what `exec`
can do. -/

namespace Sys2Proof.Machine

/-! ## What follows the bus action -/

/-- What follows the bus action of an entry leaves the bus, the record of actions and the control registers alone, and
takes the entry from the sequencer (R29). -/
theorem finishMicro_frame (m : Micro) (rest : List Micro) (s : State) :
    (finishMicro m rest s).par = s.par ∧ (finishMicro m rest s).peer = s.peer ∧
      (finishMicro m rest s).trace = s.trace ∧ (finishMicro m rest s).eng.seq = rest ∧
      (finishMicro m rest s).eng.cfg = s.eng.cfg ∧ (finishMicro m rest s).eng.en = s.eng.en ∧
      (finishMicro m rest s).eng.bri = s.eng.bri := by
  obtain ⟨hcfg, hen, hbri, -⟩ := Engine.assign_frame s.eng (lastAnswer s.trace) m.asg
  obtain ⟨_, _, _, _, _, _, _, _, _, h⟩ := finishMicro_spec m rest s
  rw [h]
  exact ⟨rfl, rfl, rfl, rfl, hcfg, hen, hbri⟩

/-- The request stays in progress exactly while entries are left (R27, R29). -/
theorem finishMicro_busy (m : Micro) (rest : List Micro) (s : State) (hb : s.eng.busy = true) :
    (finishMicro m rest s).eng.busy = true ↔ rest ≠ [] := by
  by_cases h : rest = []
  · subst h
    rw [finishMicro_last]
    simp [completeRequest]
  · obtain ⟨-, -, -, -, -, -, hbusy, -⟩ := Engine.assign_frame s.eng (lastAnswer s.trace) m.asg
    rw [finishMicro_more m rest s h]
    simp [hbusy, hb, h]

/-- An entry and what follows it, while entries are left: the whole entry, then `E.seq <- rest` (R29). -/
theorem finishMicro_performAct (m : Micro) (rest : List Micro) (s : State) (h : rest ≠ []) :
    finishMicro m rest (performAct m.act s) =
      (performMicro m s).setEng { (performMicro m s).eng with seq := rest } :=
  finishMicro_more m rest (performAct m.act s) h

/-! ## What processing a request leaves alone -/

/-- No outcome of a request performs a bus action or changes a parameter (R119, R136, R138 to R140). -/
theorem processRequest_frame (q : Request) (s : State) :
    (processRequest q s).par = s.par ∧ (processRequest q s).peer = s.peer ∧ (processRequest q s).trace = s.trace ∧
      ∀ p, (processRequest q s).eng.pin p = s.eng.pin p := by
  obtain ⟨-, h⟩ | ⟨-, -, h⟩ | ⟨-, -, -, -, h⟩ | ⟨-, -, -, r, -, h⟩ | ⟨-, -, -, -, h⟩ := processRequest_cases q s <;>
    rw [h] <;> exact ⟨rfl, rfl, rfl, fun p => by cases p <;> rfl⟩

/-- The control registers take a request's values when it is accepted, with which the record grows by exactly that
report, and keep theirs in every other outcome (R119, R120, R136, R138 to R140). -/
theorem processRequest_control (q : Request) (s : State) :
    ((processRequest q s).eng.cfg = s.eng.cfg ∧ (processRequest q s).eng.en = s.eng.en ∧
        (processRequest q s).eng.bri = s.eng.bri) ∨
      ((processRequest q s).reports = s.reports ++ [.accepted q] ∧
        (processRequest q s).eng.cfg = q.nextCfg s.eng.cfg ∧ (processRequest q s).eng.en = q.nextEn s.eng.en ∧
        (processRequest q s).eng.bri = q.nextBri s.eng.bri) := by
  obtain ⟨-, h⟩ | ⟨-, -, h⟩ | ⟨-, -, -, -, h⟩ | ⟨-, -, -, r, -, h⟩ | ⟨-, -, -, -, h⟩ := processRequest_cases q s <;>
    rw [h]
  · exact .inl ⟨rfl, rfl, rfl⟩
  · exact .inl ⟨rfl, rfl, rfl⟩
  · exact .inl ⟨rfl, rfl, rfl⟩
  · exact .inl ⟨rfl, rfl, rfl⟩
  · exact .inr ⟨rfl, rfl, rfl, rfl⟩

/-! ## Which requests write which control register -/

theorem Request.nextEn_ne (q : Request) (en : Bool) (h : q.nextEn en ≠ en) :
    (∃ on b, q = .init on b) ∨ q = .displayOn ∨ q = .displayOff := by
  cases q with
  | init on b => exact .inl ⟨on, b, rfl⟩
  | displayOn => exact .inr (.inl rfl)
  | displayOff => exact .inr (.inr rfl)
  | _ => exact absurd rfl h

theorem Request.nextBri_ne (q : Request) (bri : BitVec 3) (h : q.nextBri bri ≠ bri) :
    (∃ on b, q = .init on b) ∨ ∃ b, q = .setBrightness b := by
  cases q with
  | init on b => exact .inl ⟨on, b, rfl⟩
  | setBrightness b => exact .inr ⟨b, rfl⟩
  | _ => exact absurd rfl h

theorem Request.nextCfg_ne (q : Request) (cfg : Bool) (h : q.nextCfg cfg ≠ cfg) :
    (∃ on b, q = .init on b) ∨ q = .shutdown := by
  cases q with
  | init on b => exact .inl ⟨on, b, rfl⟩
  | shutdown => exact .inr rfl
  | _ => exact absurd rfl h

/-! ## The statements about one step -/

/-- Settles O22, by the equation of `step` for each kind of work. -/
theorem stepRunsTheNextInstruction : Obligations.StepRunsTheNextInstruction := by
  intro s
  refine ⟨fun m rest hb hs => ?_, fun q rest hb hp => ?_, step_of_idle s⟩
  · exact ⟨performAct m.act s, exec_action m.act s, step_of_busy s m rest hb hs⟩
  · rw [step_of_pending s q rest hb hp]
    exact (exec_request q _).symm

/-- Settles O26: a step with `E.busy = 1` needs a head of `E.seq`, and every other kind of work has an equation. -/
theorem stepStopsOnlyWhereR27Fails : Obligations.StepStopsOnlyWhereR27Fails := by
  intro s
  constructor
  · rintro ⟨t, h⟩ ⟨hb, hs⟩
    obtain ⟨m, rest, -, hs', -⟩ | ⟨q, rest, hb', -⟩ | ⟨hb', -⟩ := step_cases s t h
    · exact absurd (hs.symm.trans hs') (List.cons_ne_nil m rest).symm
    · exact absurd (hb.symm.trans hb') (by decide)
    · exact absurd (hb.symm.trans hb') (by decide)
  · intro h
    cases hb : s.eng.busy with
    | true =>
      obtain ⟨m, rest, hs⟩ := List.exists_cons_of_ne_nil fun hs => h ⟨hb, hs⟩
      exact ⟨_, step_of_busy s m rest hb hs⟩
    | false =>
      cases hp : s.pending with
      | nil => exact ⟨s, step_of_idle s hb hp⟩
      | cons q rest => exact ⟨_, step_of_pending s q rest hb hp⟩

/-- Settles O57: only an engine micro-step performs an action, that of the head of `E.seq`. -/
theorem eachStepPerformsTheHeadAction : Obligations.EachStepPerformsTheHeadAction := by
  intro s t h
  obtain ⟨m, rest, hb, hs, rfl⟩ | ⟨q, rest, hb, -, rfl⟩ | ⟨hb, -, rfl⟩ := step_cases s t h
  · refine ⟨fun _ => ?_, fun hb' => absurd (hb.symm.trans hb') (by decide)⟩
    obtain ⟨-, -, htr, hseq, -⟩ := finishMicro_frame m rest (performAct m.act s)
    obtain ⟨b, hev⟩ := performAct_trace m.act s
    have hbusy : (performAct m.act s).eng.busy = true := by
      obtain ⟨c, d, e, he⟩ := performAct_eng m.act s
      rw [he]
      exact hb
    refine ⟨m, b, by rw [hs, hseq], htr.trans hev, ?_⟩
    rw [hseq]
    exact finishMicro_busy m rest _ hbusy
  · refine ⟨fun hb' => absurd (hb'.symm.trans hb) (by decide), fun _ => ?_⟩
    obtain ⟨-, hpeer, htr, hpin⟩ := processRequest_frame q (s.setPending rest)
    exact ⟨htr, hpeer, hpin⟩
  · exact ⟨fun hb' => absurd (hb'.symm.trans hb) (by decide), fun _ => ⟨rfl, rfl, fun _ => rfl⟩⟩

/-- Settles O56: a bus action leaves the control registers alone, and a request writes them only when accepted. -/
theorem controlStateChangesOnlyByItsRequests : Obligations.ControlStateChangesOnlyByItsRequests := by
  intro s t h
  obtain ⟨m, rest, -, -, rfl⟩ | ⟨q, rest, hb, hp, rfl⟩ | ⟨-, -, rfl⟩ := step_cases s t h
  · obtain ⟨hpar, -, -, -, hcfg, hen, hbri⟩ := finishMicro_frame m rest (performAct m.act s)
    obtain ⟨c, d, e, he⟩ := performAct_eng m.act s
    rw [he] at hcfg hen hbri
    exact ⟨hpar.trans (performAct_frame m.act s).1, absurd hen, absurd hbri, absurd hcfg⟩
  · refine ⟨(processRequest_frame q (s.setPending rest)).1, ?_⟩
    obtain ⟨hcfg, hen, hbri⟩ | ⟨hrep, hcfg, hen, hbri⟩ := processRequest_control q (s.setPending rest)
    · exact ⟨absurd hen, absurd hbri, absurd hcfg⟩
    · rw [hcfg, hen, hbri]
      exact ⟨fun hne => ⟨hb, q, rest, hp, hrep, q.nextEn_ne _ hne⟩,
        fun hne => ⟨hb, q, rest, hp, hrep, q.nextBri_ne _ hne⟩,
        fun hne => ⟨hb, q, rest, hp, hrep, q.nextCfg_ne _ hne⟩⟩
  · exact ⟨rfl, absurd rfl, absurd rfl, absurd rfl⟩

end Sys2Proof.Machine
end

section
/-! PROOF. A request in progress (R27, R29, R72): a bus action does not see `E.seq`, so performing the entries one step
at a time is performing the list. -/

namespace Sys2Proof.Machine

/-! ## What a bus action does not see -/

/-- `φ` changes a state only where no bus action looks: it keeps the layout, the pins, the peer and the trace, and it
commutes with the updates that bus actions are made of. -/
structure BusBlind (φ : State → State) : Prop where
  layout   : ∀ s, (φ s).par.layout = s.par.layout
  pin      : ∀ s p, (φ s).eng.pin p = s.eng.pin p
  peer     : ∀ s, (φ s).peer = s.peer
  setPin   : ∀ s p q, (φ s).setEng ((φ s).eng.setPin p q) = φ (s.setEng (s.eng.setPin p q))
  setPeer  : ∀ s t, (φ s).setPeer t = φ (s.setPeer t)
  record   : ∀ s e, (φ s).record e = φ (s.record e)
  drawBit  : ∀ s, (φ s).drawBit = (s.drawBit.1, φ s.drawBit.2)
  drawKeys : ∀ s, (φ s).drawKeys = (s.drawKeys.1, φ s.drawKeys.2)

section
variable {φ : State → State}

theorem BusBlind.level (h : BusBlind φ) (s : State) (p : Pin) : level (φ s) p = level s p := by
  simp only [Machine.level, h.pin, h.peer]

theorem BusBlind.flagContention (h : BusBlind φ) (s : State) : flagContention (φ s) = φ (flagContention s) := by
  have hc : contention (φ s) = contention s := by
    have hd : (φ s).eng.dio = s.eng.dio := h.pin s .dio
    rw [contention, contention, hd, h.peer]
  simp only [Machine.flagContention, hc, h.peer, h.setPeer, apply_ite φ]

theorem BusBlind.reactClk (h : BusBlind φ) (c : WireChange) (s : State) : reactClk c (φ s) = φ (reactClk c s) := by
  cases c with
  | none => rfl
  | blur => simp only [Machine.reactClk, h.peer, h.setPeer, apply_ite φ]
  | rise => simp only [Machine.reactClk, h.peer, h.setPeer, h.layout, h.level, apply_ite φ]
  | fall => simp only [Machine.reactClk, h.peer, h.setPeer, h.drawKeys, apply_ite φ]

theorem BusBlind.actOnPin (h : BusBlind φ) (p : Pin) (q : PinState) (ev : BusEvent) (s : State) :
    actOnPin p q ev (φ s) = φ (actOnPin p q ev s) := by
  simp only [Machine.actOnPin, react, reactStb, h.setPin, h.record, h.level, h.peer, h.setPeer, h.reactClk,
    h.flagContention]

theorem BusBlind.doRd (h : BusBlind φ) (p : Pin) (s : State) : doRd p (φ s) = φ (doRd p s) := by
  unfold Machine.doRd sampleWire
  rw [h.level]
  cases Machine.level s p with
  | some b => exact h.record s _
  | none =>
    dsimp only
    rw [h.drawBit, h.record]

/-- A bus action commutes with every change that it does not see. -/
theorem BusBlind.performAct (h : BusBlind φ) (a : BusAction) (s : State) :
    performAct a (φ s) = φ (performAct a s) := by
  cases a with
  | cfgOut p => simp only [Machine.performAct, doCfgOut, h.pin, h.actOnPin]
  | cfgIn p => exact h.actOnPin p _ _ s
  | wr p l => simp only [Machine.performAct, doWr, h.pin, h.actOnPin]
  | rd p => exact h.doRd p s
  | delay => exact h.record s .delay

end

/-! ## The sequencer's list -/

/-- `s` with another list in `E.seq`. -/
def State.withSeq (q : List Micro) (s : State) : State := s.setEng { s.eng with seq := q }

theorem busBlind_withSeq (q : List Micro) : BusBlind (State.withSeq q) where
  layout _ := rfl
  pin _ p := by cases p <;> rfl
  peer _ := rfl
  setPin _ p _ := by cases p <;> rfl
  setPeer _ _ := rfl
  record _ _ := rfl
  drawBit _ := rfl
  drawKeys s := by
    obtain ⟨par, eng, peer, pend, rep, tr, kp, dr⟩ := s
    cases kp <;> rfl

/-- The assignments do not look at `E.seq`. -/
theorem Engine.assign_seq (q : List Micro) (d : Option Level) (as : List Assign) (e : Engine) :
    Engine.assign { e with seq := q } d as = { e.assign d as with seq := q } := by
  unfold Engine.assign
  refine List.foldl_hom (fun e : Engine => { e with seq := q }) fun _ a => ?_
  cases a <;> cases d <;> rfl

theorem performMicro_withSeq (m : Micro) (q : List Micro) (s : State) :
    performMicro m (s.withSeq q) = (performMicro m s).withSeq q := by
  unfold performMicro
  rw [(busBlind_withSeq q).performAct]
  exact congrArg (performAct m.act s).setEng (Engine.assign_seq q _ m.asg _)

/-- What a list of entries does is the same whatever `E.seq` holds. -/
theorem runMicros_withSeq (ms q : List Micro) (s : State) :
    runMicros ms (s.withSeq q) = (runMicros ms s).withSeq q :=
  List.foldl_hom (State.withSeq q) fun u m => performMicro_withSeq m q u

/-! ## Stepping to the end -/

/-- `t` is `s` with its request, the one of the response `keys`, over: the sequencer is empty, one response has been
delivered, with the status `OK` under `P_STRICT`, and the datapath and the count of draws are any (R29, R30, R90). -/
def Completed (keys : Option (BitVec 32)) (s t : State) : Prop :=
  t = { s with
    eng := { s.eng with
      busy := false, seq := [], rspStatus := nextStatus s.par .ok s.eng.rspStatus
      tx := t.eng.tx, i := t.eng.i, acc := t.eng.acc, kacc := t.eng.kacc, k := t.eng.k }
    drawn := t.drawn
    reports := s.reports ++ [.completed keys (statusIf s.par .ok)] }

theorem completed_withSeq (keys : Option (BitVec 32)) (q : List Micro) (s t : State) :
    Completed keys (s.withSeq q) t ↔ Completed keys s t := Iff.rfl

theorem runSteps_succ (n : Nat) (s t : State) (h : step s = .next t) : runSteps (n + 1) s = runSteps n t := by
  rw [runSteps, h]

/-- The last entry completes the request. -/
theorem completed_finishMicro_last (m : Micro) (s : State) :
    ∃ keys, Completed keys (performMicro m s) (finishMicro m [] (performAct m.act s)) :=
  ⟨_, rfl⟩

/-- Stepping a request in progress performs its entries, all of them and in order, and completes it. -/
theorem runSteps_seq (ms : List Micro) (s : State) (hb : s.eng.busy = true) (hs : s.eng.seq = ms) (hne : ms ≠ []) :
    ∃ t keys, runSteps ms.length s = .next t ∧ Completed keys (runMicros ms s) t := by
  induction ms generalizing s with
  | nil => exact absurd rfl hne
  | cons m rest ih =>
    have hstep := step_of_busy s m rest hb hs
    rw [List.length_cons, runSteps_succ rest.length s _ hstep, runMicros_cons]
    by_cases hr : rest = []
    · subst hr
      obtain ⟨keys, h⟩ := completed_finishMicro_last m s
      exact ⟨_, keys, rfl, h⟩
    · obtain ⟨-, -, -, hbusy, -⟩ := performMicro_eng m s
      have hu : finishMicro m rest (performAct m.act s) = (performMicro m s).withSeq rest :=
        finishMicro_performAct m rest s hr
      rw [hu]
      obtain ⟨t, keys, ht, hc⟩ := ih ((performMicro m s).withSeq rest) (hbusy.trans hb) rfl hr
      rw [runMicros_withSeq, completed_withSeq] at hc
      exact ⟨t, keys, ht, hc⟩

/-- Settles O46: the entries leave the parameters, the reports and the status alone, so the response is the one of the
state the request began in. -/
theorem runningTheSequenceIsPerformingIt : Obligations.RunningTheSequenceIsPerformingIt := by
  intro s hb hne
  obtain ⟨t, keys, ht, hc⟩ := runSteps_seq s.eng.seq s hb rfl hne
  obtain ⟨hpar, -, hrep⟩ := runMicros_frame s.eng.seq s
  obtain ⟨-, -, -, -, -, hst⟩ := runMicros_eng s.eng.seq s
  rw [← hpar, ← hrep, ← hst]
  exact ⟨t, keys, ht, hc⟩

end Sys2Proof.Machine
end

section
/-! PROOF. The peer through a step (R32, R35, R39, R44, R64): each of its reactions keeps the sticky flag and the
bounds, and only the rise of CLK that completes a payload byte writes a display register. -/

namespace Sys2Proof.Machine

/-! ## What every reaction of the peer keeps -/

/-- From `t` to `t'` the peer has not cleared `T.undef` (R39) and has kept its bounds (R35, R44). -/
structure Peer.Keeps (t t' : Peer) : Prop where
  undef  : t.undef = true → t'.undef = true
  bounds : PeerBounds t → PeerBounds t'

theorem Peer.Keeps.refl (t : Peer) : t.Keeps t := ⟨id, id⟩

theorem Peer.Keeps.trans {t u v : Peer} (h : t.Keeps u) (h' : u.Keeps v) : t.Keeps v :=
  ⟨h'.undef ∘ h.undef, h'.bounds ∘ h.bounds⟩

/-- A reaction that leaves the display registers and the pointer alone need only keep the flag. -/
theorem Peer.Keeps.of_same {t t' : Peer} (hd : t'.disp = t.disp) (hp : t'.ptr = t.ptr)
    (hu : t.undef = true → t'.undef = true) : t.Keeps t' where
  undef := hu
  bounds h := by rwa [PeerBounds, hd, hp]

theorem Peer.keeps_setUndef (t : Peer) : t.Keeps t.setUndef := .of_same rfl rfl fun _ => rfl

/-- A payload byte is stored at an address of DSP, after which the pointer is at most one more (R64). -/
theorem Peer.payload_bounds (d : Byte) (t : Peer) (h : PeerBounds t) : PeerBounds (t.payload d) := by
  obtain ⟨hm, hp⟩ := h
  unfold Peer.payload
  cases hs : t.storeAddr with
  | none => exact ⟨hm, hp⟩
  | some a =>
    obtain ⟨ha, -⟩ := t.storeAddr_spec a hs
    refine ⟨Memory.write_wf t.disp a d hm (Nat.lt_succ_of_le ha), fun p h => ?_⟩
    dsimp only [Peer.nextPtr] at h
    split at h
    · cases h
      omega
    · exact hp p h

theorem Peer.keeps_runByte (i : Instr) (t : Peer) : t.Keeps (t.runByte i) where
  undef := t.runByte_undef i
  bounds h := by
    cases i with
    | payload d => exact t.payload_bounds d h
    | addr a =>
      refine ⟨h.1, fun p hp => ?_⟩
      cases hp
      have := a.isLt
      omega
    | _ => exact h

theorem Peer.keeps_byteDone (lay : DataLayout) (t : Peer) : t.Keeps (t.byteDone lay) :=
  (t.keeps_runByte (decodeByte lay t.bytePos t.sh)).trans (.of_same rfl rfl id)

theorem Peer.keeps_shiftIn (lay : DataLayout) (d : Option Level) (t : Peer) : t.Keeps (t.shiftIn lay d) := by
  cases d with
  | none => exact t.keeps_setUndef
  | some b =>
    by_cases h : t.nbits = 7
    · rw [t.shiftIn_last lay b h]
      have hsh : t.Keeps { t with sh := t.sh ||| bitAt b 7, nbits := 8 } := .of_same rfl rfl id
      exact hsh.trans (Peer.keeps_byteDone lay _)
    · rw [t.shiftIn_partial lay b (by omega)]
      exact .of_same rfl rfl id

theorem Peer.releaseKey_spec (t : Peer) :
    t.releaseKey.disp = t.disp ∧ t.releaseKey.ptr = t.ptr ∧ t.releaseKey.undef = t.undef := by
  unfold Peer.releaseKey
  split <;> exact ⟨rfl, rfl, rfl⟩

theorem Peer.keeps_releaseKey (t : Peer) : t.Keeps t.releaseKey :=
  have ⟨hd, hp, hu⟩ := t.releaseKey_spec
  .of_same hd hp hu.trans

/-- What a change of STB can do to the peer (R56, R57, R67). -/
theorem Peer.onStb_cases (c : WireChange) (t : Peer) :
    t.onStb c = t ∨ t.onStb c = t.setUndef ∨ t.onStb c = t.openWindow ∨ t.onStb c = t.closeWindow := by
  cases c with
  | none => exact .inl rfl
  | fall =>
    dsimp only [Peer.onStb]
    split
    · exact .inr (.inl rfl)
    · exact .inr (.inr (.inl rfl))
  | rise =>
    dsimp only [Peer.onStb]
    split
    · exact .inr (.inr (.inr rfl))
    · exact .inl rfl
  | blur =>
    dsimp only [Peer.onStb]
    split
    · exact .inr (.inl rfl)
    · exact .inl rfl

theorem Peer.keeps_onStb (c : WireChange) (t : Peer) : t.Keeps (t.onStb c) := by
  obtain h | h | h | h := t.onStb_cases c <;> rw [h]
  · exact .refl t
  · exact t.keeps_setUndef
  · exact .of_same rfl rfl id
  · exact .of_same rfl rfl fun hu => by simp [Peer.closeWindow, hu]

/-- What a change of CLK can do to the peer (R56, R58, R66, R70). -/
theorem reactClk_peer_cases (c : WireChange) (s : State) :
    (reactClk c s).peer = s.peer ∨ (reactClk c s).peer = s.peer.setUndef ∨
      (reactClk c s).peer = s.peer.releaseKey ∨ (∃ ks, (reactClk c s).peer = s.peer.driveKey ks) ∨
      (c = .rise ∧ s.peer.win = true ∧ s.peer.tx = false ∧
        (reactClk c s).peer = s.peer.shiftIn s.par.layout (level s .dio)) := by
  cases c with
  | none => exact .inl rfl
  | blur =>
    dsimp only [reactClk]
    split
    · exact .inr (.inl rfl)
    · exact .inl rfl
  | rise =>
    dsimp only [reactClk]
    split
    · next hw =>
      split
      · exact .inr (.inr (.inl rfl))
      · next ht => exact .inr (.inr (.inr (.inr ⟨rfl, hw, Bool.eq_false_of_not_eq_true ht, rfl⟩)))
    · exact .inr (.inl rfl)
  | fall =>
    dsimp only [reactClk]
    split
    · split
      · split
        · exact .inr (.inl rfl)
        · exact .inr (.inr (.inr (.inl ⟨_, rfl⟩)))
      · exact .inl rfl
    · exact .inr (.inl rfl)

theorem reactClk_keeps (c : WireChange) (s : State) : s.peer.Keeps (reactClk c s).peer := by
  obtain h | h | h | ⟨ks, h⟩ | ⟨-, -, -, h⟩ := reactClk_peer_cases c s <;> rw [h]
  · exact .refl _
  · exact s.peer.keeps_setUndef
  · exact s.peer.keeps_releaseKey
  · exact .of_same rfl rfl id
  · exact s.peer.keeps_shiftIn _ _

theorem flagContention_peer_cases (s : State) :
    (flagContention s).peer = s.peer ∨ (flagContention s).peer = s.peer.setUndef := by
  unfold flagContention
  split
  · exact .inr rfl
  · exact .inl rfl

theorem flagContention_keeps (s : State) : s.peer.Keeps (flagContention s).peer := by
  obtain h | h := flagContention_peer_cases s <;> rw [h]
  · exact .refl _
  · exact s.peer.keeps_setUndef

theorem react_keeps (old new : State) : new.peer.Keeps (react old new).peer :=
  (new.peer.keeps_onStb _).trans ((reactClk_keeps _ (reactStb _ new)).trans (flagContention_keeps _))

theorem actOnPin_keeps (p : Pin) (q : PinState) (ev : BusEvent) (s : State) :
    s.peer.Keeps (actOnPin p q ev s).peer :=
  react_keeps s ((s.setEng (s.eng.setPin p q)).record ev)

/-! ## Through a bus action, a list of entries, an instruction -/

theorem performAct_keeps (a : BusAction) (s : State) : s.peer.Keeps (performAct a s).peer := by
  cases a with
  | cfgOut p => exact actOnPin_keeps p _ _ s
  | cfgIn p => exact actOnPin_keeps p _ _ s
  | wr p l => exact actOnPin_keeps p _ _ s
  | rd p =>
    obtain ⟨-, -, hpeer, -⟩ := doRd_frame p s
    rw [performAct, hpeer]
    exact .refl _
  | delay => exact .refl _

theorem runMicros_keeps (ms : List Micro) (s : State) : s.peer.Keeps (runMicros ms s).peer := by
  induction ms generalizing s with
  | nil => exact .refl _
  | cons m ms ih => exact (performAct_keeps m.act s).trans (ih (performMicro m s))

/-- Every instruction is a bus action, a request, a byte, or a procedure, whose meaning is to run its entries. -/
theorem exec_kind_cases (i : Instr) (s : State) :
    (∃ a : BusAction, i = a.toInstr) ∨ (∃ q : Request, i = q.toInstr) ∨ i.pos.isSome = true ∨
      ∃ ms, exec i s = .next (runMicros ms s) := by
  cases i with
  | cfgOut p => exact .inl ⟨.cfgOut p, rfl⟩
  | cfgIn p => exact .inl ⟨.cfgIn p, rfl⟩
  | wr p l => exact .inl ⟨.wr p l, rfl⟩
  | rd p => exact .inl ⟨.rd p, rfl⟩
  | delay => exact .inl ⟨.delay, rfl⟩
  | init on b => exact .inr (.inl ⟨.init on b, rfl⟩)
  | shutdown => exact .inr (.inl ⟨.shutdown, rfl⟩)
  | displayOn => exact .inr (.inl ⟨.displayOn, rfl⟩)
  | displayOff => exact .inr (.inl ⟨.displayOff, rfl⟩)
  | setBrightness b => exact .inr (.inl ⟨.setBrightness b, rfl⟩)
  | clear => exact .inr (.inl ⟨.clear, rfl⟩)
  | writeReg a v => exact .inr (.inl ⟨.writeReg a v, rfl⟩)
  | writeBuf a n bytes => exact .inr (.inl ⟨.writeBuf a n bytes, rfl⟩)
  | readKeys => exact .inr (.inl ⟨.readKeys, rfl⟩)
  | writeByte | readByte | strobeLow | strobeHigh | writeCommand | writeOp | readWindow | sendCtrl =>
    exact .inr (.inr (.inr ⟨_, rfl⟩))
  | _ => exact .inr (.inr (.inl rfl))

theorem exec_keeps (i : Instr) (s t : State) (h : exec i s = .next t) : s.peer.Keeps t.peer := by
  obtain ⟨a, rfl⟩ | ⟨q, rfl⟩ | hp | ⟨ms, hms⟩ := exec_kind_cases i s
  · rw [exec_action] at h
    cases h
    exact performAct_keeps a s
  · obtain ⟨-, hpeer, -⟩ := processRequest_frame q s
    rw [exec_request] at h
    cases h
    rw [hpeer]
    exact .refl _
  · rw [exec_byte i s hp] at h
    cases h
    exact s.peer.keeps_runByte i
  · rw [hms] at h
    cases h
    exact runMicros_keeps ms s

/-- Settles O54: every reaction of the peer keeps the bounds. -/
theorem peerBoundsAreKept : Obligations.PeerBoundsAreKept :=
  fun i s t h he => (exec_keeps i s t he).bounds h

/-- Settles O55: no reaction of the peer clears `T.undef`. -/
theorem undefIsSticky : Obligations.UndefIsSticky :=
  fun i s t h he => (exec_keeps i s t he).undef h

/-! ## What writes a display register -/

/-- A complete byte writes a display register only as payload, and only the one at the store address (R59, R64). -/
theorem Peer.byteDone_read_ne (lay : DataLayout) (t : Peer) (a : Nat)
    (h : (t.byteDone lay).disp.read a ≠ t.disp.read a) : t.nbytes ≠ 0 ∧ t.storeAddr = some a := by
  change (t.runByte (decodeByte lay t.bytePos t.sh)).disp.read a ≠ _ at h
  by_cases hn : t.nbytes = 0
  · have hpos := decodeByte_pos lay t.bytePos t.sh
    rw [show t.bytePos = .command from if_pos hn] at h hpos
    refine absurd (congrArg (·.read a) (Peer.runByte_disp _ t fun d hd => ?_)) h
    rw [hd] at hpos
    cases hpos
  · rw [show t.bytePos = .payload from if_neg hn] at h
    change (t.payload t.sh).disp.read a ≠ _ at h
    refine ⟨hn, ?_⟩
    obtain ⟨b, hb, hd⟩ | ⟨-, hu⟩ := t.payload_disp t.sh
    · by_cases hab : a = b
      · rw [hab, hb]
      · rw [hd, Memory.read_write_other t.disp b a t.sh hab] at h
        exact absurd rfl h
    · rw [hu] at h
      exact absurd rfl h

/-- A rise of CLK writes a display register only when its bit is the eighth of a payload byte (R58, R64). -/
theorem Peer.shiftIn_read_ne (lay : DataLayout) (d : Option Level) (t : Peer) (a : Nat)
    (h : (t.shiftIn lay d).disp.read a ≠ t.disp.read a) :
    t.nbits = 7 ∧ t.nbytes ≠ 0 ∧ t.storeAddr = some a := by
  cases d with
  | none => exact absurd rfl h
  | some b =>
    by_cases hn : t.nbits = 7
    · rw [t.shiftIn_last lay b hn] at h
      exact ⟨hn, Peer.byteDone_read_ne lay { t with sh := t.sh ||| bitAt b 7, nbits := 8 } a h⟩
    · rw [t.shiftIn_partial lay b (by omega)] at h
      exact absurd rfl h

/-- Of the changes of CLK only a rise while the peer receives can write a display register (R58, R66). -/
theorem reactClk_read_ne (c : WireChange) (s : State) (a : Nat)
    (h : (reactClk c s).peer.disp.read a ≠ s.peer.disp.read a) :
    c = .rise ∧ s.peer.win = true ∧ s.peer.tx = false ∧ s.peer.nbits = 7 ∧ s.peer.nbytes ≠ 0 ∧
      s.peer.storeAddr = some a := by
  obtain hc | hc | hc | ⟨ks, hc⟩ | ⟨hrise, hw, ht, hc⟩ := reactClk_peer_cases c s <;> rw [hc] at h
  · exact absurd rfl h
  · exact absurd rfl h
  · rw [s.peer.releaseKey_spec.1] at h
    exact absurd rfl h
  · exact absurd rfl h
  · exact ⟨hrise, hw, ht, Peer.shiftIn_read_ne _ _ s.peer a h⟩

theorem Peer.onStb_disp (c : WireChange) (t : Peer) : (t.onStb c).disp = t.disp := by
  obtain h | h | h | h := t.onStb_cases c <;> exact (congrArg Peer.disp h).trans rfl

theorem flagContention_disp (s : State) : (flagContention s).peer.disp = s.peer.disp := by
  obtain h | h := flagContention_peer_cases s <;> exact (congrArg Peer.disp h).trans rfl

theorem wireChange_eq_rise {l l' : Option Level} (h : wireChange l l' = .rise) : l = some false ∧ l' = some true := by
  revert l l'
  decide

/-- The engine drives a wire with the latch of its pin (R25, R26). -/
theorem PinState.latch_of_driven {q : PinState} {l : Level} (h : q.driven = some l) : q.latch = some l := by
  obtain ⟨mode, latch⟩ := q
  cases mode with
  | out => exact h
  | inp => cases h
  | unconf => cases h

/-- An action on a pin writes a display register only when the pin is CLK and its wire rises. -/
theorem actOnPin_read_ne (p : Pin) (q : PinState) (ev : BusEvent) (s : State) (a : Nat)
    (h : (actOnPin p q ev s).peer.disp.read a ≠ s.peer.disp.read a) :
    (p = .clk ∧ s.eng.clk.driven = some false ∧ q.driven = some true) ∧
      s.peer.win = true ∧ s.peer.tx = false ∧ s.peer.nbits = 7 ∧ s.peer.nbytes ≠ 0 ∧ s.peer.storeAddr = some a := by
  rw [actOnPin, react, flagContention_disp, ← Peer.onStb_disp _ s.peer] at h
  obtain ⟨hrise, hpeer⟩ := reactClk_read_ne _ _ a h
  rw [level_clk, level_clk] at hrise
  cases p with
  | dio => exact absurd ((wireChange_self _).symm.trans hrise) (by decide)
  | stb => exact absurd ((wireChange_self _).symm.trans hrise) (by decide)
  | clk =>
    obtain ⟨hold, hnew⟩ := wireChange_eq_rise hrise
    rw [level_stb, level_stb, show ((s.setEng (s.eng.setPin .clk q)).record ev).eng.stb = s.eng.stb from rfl,
      wireChange_self, reactStb_none] at hpeer
    exact ⟨⟨rfl, hold, hnew⟩, hpeer⟩

/-- Of the bus actions only `WR(CLK, 1)` writes a display register, where it completes a payload byte (R32, R64). -/
theorem performAct_read_ne (act : BusAction) (s : State) (a : Nat)
    (h : (performAct act s).peer.disp.read a ≠ s.peer.disp.read a) :
    act = .wr .clk true ∧ s.peer.win = true ∧ s.peer.tx = false ∧ s.peer.nbits = 7 ∧ s.peer.nbytes ≠ 0 ∧
      s.peer.storeAddr = some a := by
  cases act with
  | cfgOut p =>
    obtain ⟨⟨rfl, hold, hnew⟩, -⟩ := actOnPin_read_ne p _ _ s a h
    have hlatch : s.eng.clk.latch = some true := hnew
    rw [PinState.latch_of_driven hold] at hlatch
    cases hlatch
  | cfgIn p =>
    obtain ⟨⟨-, -, hnew⟩, -⟩ := actOnPin_read_ne p _ _ s a h
    cases hnew
  | wr p l =>
    obtain ⟨⟨rfl, -, hnew⟩, hpeer⟩ := actOnPin_read_ne p _ _ s a h
    cases PinState.latch_of_driven hnew
    exact ⟨rfl, hpeer⟩
  | rd p =>
    obtain ⟨-, -, hpeer, -⟩ := doRd_frame p s
    rw [performAct, hpeer] at h
    exact absurd rfl h
  | delay => exact absurd rfl h

/-- Settles O58: of the parts of a step only the bus action writes a display register. -/
theorem displayRegistersChangeOnlyByPayload : Obligations.DisplayRegistersChangeOnlyByPayload := by
  intro s t a h hne
  obtain ⟨m, rest, hb, hs, rfl⟩ | ⟨q, rest, -, -, rfl⟩ | ⟨-, -, rfl⟩ := step_cases s t h
  · obtain ⟨-, hpeer, -⟩ := finishMicro_frame m rest (performAct m.act s)
    rw [hpeer] at hne
    obtain ⟨hact, hstore⟩ := performAct_read_ne m.act s a hne
    exact ⟨hb, by rw [hs, ← hact]; rfl, hstore⟩
  · obtain ⟨-, hpeer, -⟩ := processRequest_frame q (s.setPending rest)
    rw [hpeer] at hne
    exact absurd rfl hne
  · exact absurd rfl hne

end Sys2Proof.Machine
end

section
/-! PROOF. The effect of a byte on the peer (R59 to R65): the command byte against the pseudocode on its bits, the
payload byte, and the byte rows as instructions. -/

namespace Sys2Proof.Machine

/-! ## The command byte (R59 to R63) -/

/-- The class of a byte is its bits 7 and 6 (R76). -/
theorem extractLsb'_class (c : Byte) :
    c.extractLsb' 6 2 = BitVec.ofBool (c.getLsbD 7) ++ BitVec.ofBool (c.getLsbD 6) := by
  revert c
  decide

/-- The lowest field of a class-01 byte is its bits 1 and 0 (R77). -/
theorem extractLsb'_mode (c : Byte) :
    c.extractLsb' 0 2 = BitVec.ofBool (c.getLsbD 1) ++ BitVec.ofBool (c.getLsbD 0) := by
  revert c
  decide

/-- A class-01 byte whose bits 5:3 are not 0 has no meaning (R60). -/
theorem decodeData_reserved (lay : DataLayout) (z : BitVec 3) (r : Bool) (m : BitVec 2) (hz : z ≠ 0#3) :
    decodeData lay z r m = .reservedData z r m := by
  cases lay <;> simp [decodeData, hz]

/-- A class-01 byte has the effect of R60: none but `T.undef` when bits 5:3 are not 0, and otherwise by bits 2, 1
and 0. -/
theorem Peer.runByte_decodeData (lay : DataLayout) (c : Byte) (t : Peer) :
    t.runByte (decodeData lay (c.extractLsb' 3 3) (c.getLsbD 2) (c.extractLsb' 0 2)) = Spec.dataCommand lay c t := by
  unfold Spec.dataCommand
  rw [extractLsb'_mode]
  by_cases hz : c.extractLsb' 3 3 = 0#3
  · rw [hz]
    cases lay <;> cases c.getLsbD 2 <;> cases c.getLsbD 1 <;> cases c.getLsbD 0 <;> rfl
  · rw [decodeData_reserved lay _ _ _ hz]
    cases lay <;> simp [hz, Peer.runByte, Peer.setUndef]

/-- A command byte has the effect of R59 to R63, by its class. -/
theorem Peer.runByte_decodeCommand (lay : DataLayout) (c : Byte) (t : Peer) :
    t.runByte (decodeCommand lay c) = Spec.command lay c t := by
  unfold decodeCommand Spec.command
  rw [extractLsb'_class]
  cases c.getLsbD 7 <;> cases c.getLsbD 6
  case false.false => rfl
  case false.true => exact t.runByte_decodeData lay c
  case true.false | true.true =>
    by_cases hz : c.extractLsb' 4 2 = 0#2
    · exact (congrArg t.runByte (if_pos hz)).trans (if_neg fun h => h hz).symm
    · exact (congrArg t.runByte (if_neg hz)).trans (if_pos hz).symm

/-- A byte that the decoder reads gives the peer the byte's effect, and nothing else. -/
theorem exec_decodeByte (lay : DataLayout) (pos : BytePos) (b : Byte) (s : State) :
    exec (decodeByte lay pos b) s = .next (s.setPeer (s.peer.runByte (decodeByte lay pos b))) :=
  exec_byte _ s (by rw [decodeByte_pos]; rfl)

/-- Settles O4: the byte is executed by its effect on the peer, which is that of the pseudocode. -/
theorem commandByteFollowsThePseudocode : Obligations.CommandByteFollowsThePseudocode := by
  intro lay c s _
  rw [exec_decodeByte]
  exact congrArg (fun t => Host.Outcome.next (s.setPeer t)) (s.peer.runByte_decodeCommand lay c)

/-! ## The payload byte (R64, R65) -/

/-- The store address is the pointer exactly under the conditions of R64. -/
theorem Peer.storeAddr_eq_some_iff (t : Peer) (p : Nat) : t.storeAddr = some p ↔ Spec.stores t p := by
  constructor
  · intro h
    obtain ⟨hp, hptr, hcmd, hrw, ham⟩ := t.storeAddr_spec p h
    exact ⟨hcmd, hrw, Option.isSome_iff_ne_none.1 ham, hptr, hp⟩
  · rintro ⟨hcmd, hrw, ham, hptr, hp⟩
    exact t.storeAddr_of p hcmd hrw (Option.isSome_iff_ne_none.2 ham) hptr hp

theorem Peer.payload_of_storeAddr (d : Byte) (t : Peer) (p : Nat) (h : t.storeAddr = some p) :
    t.payload d = { t with disp := t.disp.write p d, ptr := t.nextPtr p } := by
  simp [Peer.payload, h]

/-- The pointer after a byte stored at the pointer `p` (R64). -/
theorem Peer.nextPtr_of_ptr (t : Peer) (p : Nat) (h : t.ptr = some p) :
    t.nextPtr p = if t.am = some .auto then some (p + 1) else some p := by
  rw [Peer.nextPtr, h]

/-- A payload byte writes no display register but the one at the store address (R64, R65). -/
theorem Peer.payload_read_other (d : Byte) (t : Peer) (a : Nat) (h : t.storeAddr ≠ some a) :
    (t.payload d).disp.read a = t.disp.read a := by
  obtain ⟨p, hp, hdisp⟩ | ⟨-, hundef⟩ := t.payload_disp d
  · rw [hdisp]
    exact Memory.read_write_other t.disp p a d fun hap => h (by rw [hp, hap])
  · rw [hundef, Peer.setUndef_disp]

/-- Settles O18: by whether the peer has a store address. -/
theorem payloadIsWrittenAtThePointer : Obligations.PayloadIsWrittenAtThePointer := by
  intro d s
  refine ⟨s.setPeer (s.peer.payload d), rfl, rfl, s.peer.storeAddr_eq_some_iff, fun p h => ?_,
    fun a => s.peer.payload_read_other d a, fun h => ?_⟩
  · have ⟨_, _, _, hptr, _⟩ := h
    rw [State.setPeer_peer, s.peer.payload_of_storeAddr d p ((s.peer.storeAddr_eq_some_iff p).2 h),
      s.peer.nextPtr_of_ptr p hptr]
    exact ⟨rfl, Memory.read_write_same _ p d⟩
  · obtain ⟨p, hp, -⟩ | ⟨-, hundef⟩ := s.peer.payload_disp d
    · exact absurd ((s.peer.storeAddr_eq_some_iff p).1 hp) (h p)
    · exact hundef

/-! ## The byte rows as instructions -/

/-- Settles O19: the effect of each data command, written out. -/
theorem dataCommandsSetTheModes : Obligations.DataCommandsSetTheModes :=
  fun _ => ⟨rfl, rfl, rfl⟩

/-- Settles O20: the effect of the two commands, written out. -/
theorem ctrlAndAddrSetTheirRegisters : Obligations.CtrlAndAddrSetTheirRegisters :=
  fun _ => ⟨fun _ _ => rfl, fun _ => rfl⟩

/-- Settles O21: the effect of the three reserved rows, written out. -/
theorem reservedBytesSetUndef : Obligations.ReservedBytesSetUndef :=
  fun _ => ⟨fun _ => rfl, fun _ _ _ => rfl, fun _ _ _ => rfl⟩

end Sys2Proof.Machine
end

section
/-! PROOF. The peer's reactions to edges (R56 to R58, R66 to R68, R70): what one change of CLK or STB does, contention
after it, and the bus actions that make the change. -/

namespace Sys2Proof.Machine

/-! ## Contention (R68) -/

theorem flagContention_peer (s : State) :
    (flagContention s).peer = if contention s then s.peer.setUndef else s.peer :=
  apply_ite State.peer (contention s = true) (s.setPeer s.peer.setUndef) s

theorem flagContention_keypad (s : State) : (flagContention s).keypad = s.keypad :=
  have ⟨_, _, _, _, _, h, _⟩ := flagContention_frame s
  h

/-- Contention adds nothing when `T.undef` has just been set. -/
theorem flagContention_setUndef_peer (s : State) :
    (flagContention (s.setPeer s.peer.setUndef)).peer = s.peer.setUndef := by
  rw [flagContention_peer]
  exact ite_self _

/-- Contention depends on the direction of DIO and on the peer's drive only: where both are as in `s`, it is flagged as
in `s`. -/
theorem flagContention_peer_congr (s u : State) (hm : u.eng.dio = s.eng.dio) (hd : u.peer.drive = s.peer.drive) :
    (flagContention u).peer = if contention s then u.peer.setUndef else u.peer := by
  rw [flagContention_peer, contention, contention, hm, hd]

/-- Where DIO has a level there is no contention (R26, R68). -/
theorem contention_of_level_dio (s : State) (d : Level) (h : level s .dio = some d) : contention s = false := by
  by_cases hm : s.eng.dio.mode = .out
  · cases hd : s.peer.drive with
    | none => simp [contention, hd]
    | some b =>
      rw [level_dio_of_driven s b hd, if_pos hm] at h
      cases h
  · simp [contention, hm]

/-! ## The reaction to each change of CLK (R58, R66, R70) -/

section
variable (s : State)

theorem reactClk_rise_receiving (hw : s.peer.win = true) (ht : s.peer.tx = false) :
    reactClk .rise s = s.setPeer (s.peer.shiftIn s.par.layout (level s .dio)) := by
  simp [reactClk, hw, ht]

theorem reactClk_fall_receiving (hw : s.peer.win = true) (ht : s.peer.tx = false) : reactClk .fall s = s := by
  simp [reactClk, hw, ht]

theorem reactClk_fall_transmitting (hw : s.peer.win = true) (ht : s.peer.tx = true) (hk : s.peer.kidx < 4) :
    reactClk .fall s = s.drawKeys.2.setPeer (s.peer.driveKey s.drawKeys.1) := by
  simp [reactClk, hw, ht, Nat.not_le.2 hk]

theorem reactClk_fall_fifthByte (hw : s.peer.win = true) (ht : s.peer.tx = true) (hk : 4 ≤ s.peer.kidx) :
    reactClk .fall s = s.setPeer s.peer.setUndef := by
  simp [reactClk, hw, ht, hk]

/-- An edge of CLK outside a window, in either direction. -/
theorem reactClk_edge_outside (l : Level) (hw : s.peer.win = false) :
    reactClk (wireChange (some (!l)) (some l)) s = s.setPeer s.peer.setUndef := by
  cases l <;> simp [wireChange, reactClk, hw]

end

/-! ## The edges of STB (R57, R67) -/

/-- An edge of STB that takes the peer to `t`; contention is noticed after it (R56, R68). -/
theorem doWr_stb_of_onStb (l : Level) (s : State) (t : Peer) (hstb : s.eng.stb = ⟨.out, some (!l)⟩)
    (ht : s.peer.onStb (wireChange (some (!l)) (some l)) = t) :
    doWr .stb l s =
      flagContention (((s.setEng { s.eng with stb := ⟨.out, some l⟩ }).record (.wr .stb l)).setPeer t) := by
  subst ht
  exact doWr_stb l (!l) s hstb

/-- Settles O13: in the window just opened the peer does not drive DIO, so that nothing contends. -/
theorem stbFallOpensAWindow : Obligations.StbFallOpensAWindow := by
  intro s hstb hw
  refine ⟨doWr .stb false s, rfl, ?_⟩
  rw [doWr_stb_of_onStb false s s.peer.openWindow hstb (by simp [wireChange, Peer.onStb, hw]),
    flagContention_eq _ (.inr rfl)]
  rfl

/-- Settles O14: after the window the peer does not drive DIO, so that nothing contends. -/
theorem stbRiseClosesTheWindow : Obligations.StbRiseClosesTheWindow := by
  intro s hstb hw
  have hpeer : (doWr .stb true s).peer = s.peer.closeWindow := by
    rw [doWr_stb_of_onStb true s s.peer.closeWindow hstb (by simp [wireChange, Peer.onStb, hw]),
      flagContention_eq _ (.inr rfl)]
    rfl
  refine ⟨doWr .stb true s, rfl, fun hn => ?_, fun hn => ?_⟩ <;>
    exact hpeer.trans (by simp [Peer.closeWindow, hn])

/-! ## The edges of CLK while the peer receives (R58) -/

/-- The bit shifted in at a rise of CLK (R58): before the eighth it is only counted, at the eighth the byte is
complete. -/
theorem Peer.shiftIn_bit (lay : DataLayout) (d : Level) (t : Peer) :
    t.shiftIn lay (some d) =
      if t.nbits + 1 = 8 then { t with sh := t.sh ||| bitAt d t.nbits, nbits := t.nbits + 1 }.byteDone lay
      else { t with sh := t.sh ||| bitAt d t.nbits, nbits := t.nbits + 1 } := rfl

/-- `WR(CLK, 1)` while the peer receives, whatever DIO carries: the peer shifts in the level of DIO, and where that is
`⊥` contention adds nothing (R58, R68). -/
theorem doWr_clk_rise_receiving_peer (s : State) (hclk : s.eng.clk = ⟨.out, some false⟩) (hw : s.peer.win = true)
    (ht : s.peer.tx = false) : (doWr .clk true s).peer = s.peer.shiftIn s.par.layout (level s .dio) := by
  rw [doWr_clk true false s hclk, wireChange, reactClk_rise_receiving _ (by exact hw) (by exact ht)]
  change (flagContention (State.setPeer _ (s.peer.shiftIn s.par.layout (level s .dio)))).peer = _
  cases hdio : level s .dio with
  | none => exact flagContention_setUndef_peer _
  | some d =>
    rw [flagContention_peer_congr s _ (by rfl) (by exact s.peer.shiftIn_drive _ _), contention_of_level_dio s d hdio]
    rfl

/-- Settles O15: a rise shifts in the level of DIO; at a fall the peer sees only contention. -/
theorem clkRiseShiftsInOneBit : Obligations.ClkRiseShiftsInOneBit := by
  refine ⟨fun s hclk hw ht => ?_, fun s hclk hw ht => ⟨doWr .clk false s, rfl, ?_⟩⟩
  · have hpeer := doWr_clk_rise_receiving_peer s hclk hw ht
    refine ⟨fun hdio => ⟨doWr .clk true s, rfl, ?_⟩,
      fun d hdio => ⟨doWr .clk true s, rfl, fun hn => ?_, fun hn => ?_⟩⟩
    · rw [hpeer, hdio]
      rfl
    · rw [hpeer, hdio, Peer.shiftIn_bit, if_neg hn]
      rfl
    · rw [hpeer, hdio, Peer.shiftIn_bit, if_pos hn]
      rfl
  · rw [doWr_clk false true s hclk, wireChange, reactClk_fall_receiving _ (by exact hw) (by exact ht)]
    exact ⟨flagContention_keypad _, flagContention_peer _⟩

/-! ## The edges of CLK while the peer transmits (R66) -/

/-- The keypad that the peer sees does not depend on the engine and on what has been recorded. -/
theorem State.drawKeys_setEng_record (s : State) (e : Engine) (ev : BusEvent) :
    ((s.setEng e).record ev).drawKeys = (s.drawKeys.1, (s.drawKeys.2.setEng e).record ev) := by
  obtain ⟨par, eng, peer, pend, rep, tr, kp, dr⟩ := s
  cases kp <;> rfl

/-- `WR(CLK, 0)` while the peer transmits, before the fifth byte: the peer drives the next key bit, and against an
engine that drives DIO that is contention (R66, R68). -/
theorem doWr_clk_fall_transmitting_peer (s : State) (hclk : s.eng.clk = ⟨.out, some true⟩) (hw : s.peer.win = true)
    (ht : s.peer.tx = true) (hk : s.peer.kidx < 4) :
    (doWr .clk false s).peer =
        { s.peer.driveKey s.drawKeys.1 with undef := s.peer.undef || decide (s.eng.dio.mode = .out) } ∧
      (doWr .clk false s).keypad = s.drawKeys.2.keypad := by
  rw [doWr_clk false true s hclk, wireChange,
    reactClk_fall_transmitting _ (by exact hw) (by exact ht) (by exact hk), State.drawKeys_setEng_record]
  refine ⟨?_, flagContention_keypad _⟩
  rw [flagContention_peer]
  by_cases hm : s.eng.dio.mode = .out <;> simp [contention, hm, Peer.driveKey, Peer.setUndef]

/-- Settles O16: at a fall the peer drives the next key bit or has none left; at a rise it releases DIO. -/
theorem keyBitsAreDrivenAndReleased : Obligations.KeyBitsAreDrivenAndReleased := by
  refine ⟨fun s hclk hw ht => ⟨fun hk => ⟨doWr .clk false s, rfl, ?_⟩, fun hk => ?_⟩,
    fun s hclk hw ht => ⟨doWr .clk true s, rfl, ?_⟩⟩
  · rw [doWr_clk false true s hclk, wireChange, reactClk_fall_fifthByte _ (by exact hw) (by exact ht) (by exact hk)]
    exact flagContention_setUndef_peer _
  · obtain ⟨hpeer, hkeypad⟩ := doWr_clk_fall_transmitting_peer s hclk hw ht hk
    refine ⟨doWr .clk false s, s.drawKeys.1, rfl, hpeer, fun k rest hs => ?_⟩
    rw [hkeypad, s.drawKeys_cons k rest hs]
    exact ⟨rfl, rfl⟩
  · rw [doWr_clk_rise_transmitting s hclk hw ht, State.setPeer_peer, Peer.releaseKey]
    exact ⟨fun hb => if_pos hb, fun hb => if_neg hb⟩

/-! ## Changes that the peer's rules do not cover (R56, R70) -/

/-- The peer's reaction to a change of one pin's wire; DIO is no clock and no strobe (R56). -/
def reactPin : Pin → WireChange → State → State
  | .clk, c, s => reactClk c s
  | .dio, _, s => s
  | .stb, c, s => reactStb c s

/-- An action on a pin: the peer reacts to the change of that pin's wire, and then contention is noticed (R56, R68). -/
theorem actOnPin_eq_reactPin (p : Pin) (q : PinState) (ev : BusEvent) (s : State) :
    actOnPin p q ev s = flagContention
      (reactPin p (wireChange (s.eng.pin p).driven q.driven) ((s.setEng (s.eng.setPin p q)).record ev)) := by
  cases p <;> simp [actOnPin, react, reactPin, level_clk, level_stb]

/-- A change from or to `⊥` of CLK or STB: inside a window it sets `T.undef` (R56). -/
theorem reactPin_blur (p : Pin) (hp : p ≠ .dio) (s : State) :
    reactPin p .blur s = if s.peer.win then s.setPeer s.peer.setUndef else s := by
  cases p with
  | clk => rfl
  | dio => exact absurd rfl hp
  | stb => exact apply_ite s.setPeer (s.peer.win = true) s.peer.setUndef s.peer

theorem reactPin_none (p : Pin) (s : State) : reactPin p .none s = s := by
  cases p <;> rfl

section
variable (p : Pin) (q : PinState) (ev : BusEvent) (s : State) (hp : p ≠ .dio)
include hp

/-- Inside a window a change from or to `⊥` of CLK or STB sets `T.undef`, and contention adds nothing (R56, R68). -/
theorem actOnPin_blur_inside (hc : wireChange (s.eng.pin p).driven q.driven = .blur) (hw : s.peer.win = true) :
    (actOnPin p q ev s).peer = s.peer.setUndef := by
  rw [actOnPin_eq_reactPin, hc, reactPin_blur p hp, if_pos (by exact hw)]
  exact flagContention_setUndef_peer _

/-- Outside a window the peer sees of a change of CLK or STB that is no edge only contention (R56, R68). -/
theorem actOnPin_nonEdge_outside
    (hc : wireChange (s.eng.pin p).driven q.driven = .blur ∨ wireChange (s.eng.pin p).driven q.driven = .none)
    (hw : s.peer.win = false) :
    (actOnPin p q ev s).peer = if contention s then s.peer.setUndef else s.peer := by
  have hreact : reactPin p (wireChange (s.eng.pin p).driven q.driven) ((s.setEng (s.eng.setPin p q)).record ev) =
      (s.setEng (s.eng.setPin p q)).record ev := by
    obtain hc | hc := hc <;> rw [hc]
    · rw [reactPin_blur p hp, if_neg (by simp [hw])]
    · exact reactPin_none p _
  have hdio : (s.eng.setPin p q).dio = s.eng.dio := Engine.setPin_pin_other s.eng p .dio q hp.symm
  rw [actOnPin_eq_reactPin, hreact]
  exact flagContention_peer_congr s _ hdio rfl

end

theorem wireChange_from_unknown (l : Option Level) : wireChange none l = .blur ∨ wireChange none l = .none := by
  revert l
  decide

theorem wireChange_to_unknown (l : Option Level) : wireChange l none = .blur ∨ wireChange l none = .none := by
  revert l
  decide

/-- A pin that is not `Out` is not driven by the engine (R26). -/
theorem PinState.driven_of_not_out (q : PinState) (h : q.mode ≠ .out) : q.driven = none := by
  obtain ⟨mode, latch⟩ := q
  cases mode with
  | out => exact absurd rfl h
  | inp => rfl
  | unconf => rfl

/-- `CFG_OUT` makes no edge: the wire keeps its level, or comes from `⊥` (R56, R95). -/
theorem wireChange_cfgOut (q : PinState) :
    wireChange q.driven q.latch = .blur ∨ wireChange q.driven q.latch = .none := by
  by_cases hm : q.mode = .out
  · have hd : q.driven = q.latch := by rw [PinState.driven, hm]
    rw [hd, wireChange_self]
    exact .inr rfl
  · rw [q.driven_of_not_out hm]
    exact wireChange_from_unknown q.latch

/-- Settles O17: edges by the reaction to CLK or STB, changes from or to `⊥` by that of either pin. -/
theorem uncoveredEdgesSetUndef : Obligations.UncoveredEdgesSetUndef := by
  intro s
  refine ⟨fun l hclk hw => ⟨_, rfl, ?clkEdgeOutside⟩, fun hstb hw => ⟨_, rfl, ?stbFallInside⟩,
    fun p b hp hpin hw => ⟨_, rfl, ?cfgInInside⟩, fun p b hp hm hl hw => ⟨_, rfl, ?cfgOutInside⟩,
    fun hstb hw hn => ⟨_, rfl, ?stbRiseOutside⟩, fun p l hp hpin hw => ⟨_, rfl, ?wrInside⟩,
    fun p l hp hpin hw => ⟨_, rfl, ?wrOutside⟩,
    fun p hp hw => ⟨⟨_, rfl, ?cfgInOutside⟩, ⟨_, rfl, ?cfgOutOutside⟩⟩⟩
  case clkEdgeOutside =>
    rw [doWr_clk l (!l) s hclk, reactClk_edge_outside _ l (by exact hw)]
    exact flagContention_setUndef_peer _
  case stbFallInside =>
    rw [doWr_stb_of_onStb false s s.peer.setUndef hstb (by simp [wireChange, Peer.onStb, hw])]
    exact flagContention_setUndef_peer _
  case cfgInInside =>
    refine actOnPin_blur_inside p _ _ s hp ?_ hw
    rw [hpin]
    cases b <;> rfl
  case cfgOutInside =>
    refine actOnPin_blur_inside p _ _ s hp ?_ hw
    rw [PinState.driven_of_not_out _ hm, hl]
    rfl
  case stbRiseOutside =>
    rw [doWr_stb_of_onStb true s s.peer hstb (by simp [wireChange, Peer.onStb, hw]),
      flagContention_peer_congr s _ (by rfl) (by rfl), hn]
    rfl
  case wrInside =>
    refine actOnPin_blur_inside p _ _ s hp ?_ hw
    rw [hpin]
    rfl
  case wrOutside =>
    refine actOnPin_nonEdge_outside p _ _ s hp (.inl ?_) hw
    rw [hpin]
    rfl
  case cfgInOutside => exact actOnPin_nonEdge_outside p _ _ s hp (wireChange_to_unknown _) hw
  case cfgOutOutside => exact actOnPin_nonEdge_outside p _ _ s hp (wireChange_cfgOut _) hw

end Sys2Proof.Machine
end

section
/-! PROOF. The step that completes a byte (R58, R59), and the byte placed for it (log entry 5). -/

namespace Sys2Proof.Machine

/-- The step that performs the rise of CLK at the eighth bit of a byte: the peer has received the whole byte, the bit on
DIO its last (R29, R58). -/
theorem step_lastRise (s : State) (m : Micro) (rest : List Micro) (d : Level) (hb : s.eng.busy = true)
    (hs : s.eng.seq = m :: rest) (hm : m.act = .wr .clk true) (hclk : s.eng.clk = ⟨.out, some false⟩)
    (hdio : s.eng.dio = ⟨.out, some d⟩) (hw : s.peer.win = true) (ht : s.peer.tx = false) (hd : s.peer.drive = none)
    (hn : s.peer.nbits = 7) :
    ∃ t, step s = .next t ∧
      t.peer = { s.peer with sh := s.peer.sh ||| bitAt d 7, nbits := 8 }.byteDone s.par.layout := by
  refine ⟨_, step_of_busy s m rest hb hs, ?_⟩
  obtain ⟨-, hpeer, -⟩ := finishMicro_frame m rest (performAct m.act s)
  have hmode : s.eng.dio.mode = .out := by rw [hdio]
  rw [hpeer, hm, performAct, doWr_clk_rise_receiving s hclk hw ht hd hmode, hdio]
  exact s.peer.shiftIn_last s.par.layout d hn

/-- Settles O23: the complete byte is run by its effect on the peer, which is what `exec` of its reading gives. -/
theorem stepRunsTheDecodedByte : Obligations.StepRunsTheDecodedByte := by
  intro s m rest d hb hs hm hclk hdio hw ht hd hn
  obtain ⟨t, hstep, hpeer⟩ := step_lastRise s m rest d hb hs hm hclk hdio hw ht hd hn
  exact ⟨t, _, hstep, exec_decodeByte _ _ _ _, hpeer⟩

/-! ## A byte placed by `withFetchWord` -/

/-- The peer's registers and its flag, without the window state: what a command byte can read and write but for the
command's class and the transmission (R59 to R63). -/
structure Peer.SameRegisters (t u : Peer) : Prop where
  disp : t.disp = u.disp
  rw : t.rw = u.rw
  am : t.am = u.am
  ptr : t.ptr = u.ptr
  on : t.on = u.on
  bri : t.bri = u.bri
  undef : t.undef = u.undef

/-- The effect of a command byte on the registers does not depend on the window state. -/
theorem Peer.SameRegisters.runByte {t u : Peer} (h : t.SameRegisters u) (i : Instr) (hi : i.pos = some .command) :
    (t.runByte i).SameRegisters (u.runByte i) := by
  cases i with
  | cmdWriteAuto | cmdWriteFixed | cmdReadKeys => exact { h with rw := rfl, am := rfl }
  | ctrl e b => exact { h with on := rfl, bri := rfl }
  | addr a => exact { h with ptr := rfl }
  | payload d => cases hi
  | _ => exact { h with undef := rfl }

/-- Seven bits of a byte and its eighth bit make the byte (R58). -/
theorem lowBits_or_bitAt_seven (c : Byte) : c &&& 0x7F#8 ||| bitAt (c.getLsbD 7) 7 = c := by
  revert c
  decide

/-- The step from a placed byte: the peer has received the whole byte. -/
theorem step_fetchReady (s : State) (c : Byte) :
    ∃ t, step (s.fetchReady c) = .next t ∧
      t.peer = { s.peer.beforeLastRise c with sh := c, nbits := 8 }.byteDone s.par.layout := by
  obtain ⟨t, hstep, hpeer⟩ := step_lastRise (s.fetchReady c) _ _ _ rfl rfl rfl rfl rfl rfl rfl rfl rfl
  exact ⟨t, hstep, hpeer.trans (congrArg
    (fun v => Peer.byteDone s.par.layout { s.peer.beforeLastRise c with sh := v, nbits := 8 })
    (lowBits_or_bitAt_seven c))⟩

/-- Settles O24: the placed byte is run as a command byte, with the effect on the registers that it has from `s`. -/
theorem fetchedWordRunsNext : Obligations.FetchedWordRunsNext := by
  intro s w i hlay hword
  obtain rfl : decodeByte .doc .command (BitVec.ofNat 8 w) = i := Option.some.inj hword
  obtain ⟨t, hstep, hpeer⟩ := step_fetchReady s (BitVec.ofNat 8 w)
  refine ⟨t, _, hstep, exec_decodeByte .doc .command _ s, ?_⟩
  have hsame : Peer.SameRegisters { s.peer.beforeLastRise (BitVec.ofNat 8 w) with sh := BitVec.ofNat 8 w, nbits := 8 }
      s.peer := ⟨rfl, rfl, rfl, rfl, rfl, rfl, rfl⟩
  obtain ⟨hdisp, hrw, ham, hptr, hon, hbri, hundef⟩ :=
    hsame.runByte _ (decodeByte_pos .doc .command (BitVec.ofNat 8 w))
  rw [hpeer, hlay]
  exact ⟨hdisp, hrw, ham, hptr, hon, hbri, hundef⟩

end Sys2Proof.Machine
end

section
/-! PROOF. READ_BYTE inside a read window (R66, R101). -/

namespace Sys2Proof.Machine

/-- Settles O29: the byte that READ_BYTE assembles inside a read window. -/
theorem readByteReceivesAKeyByte : Obligations.ReadByteReceivesAKeyByte := by
  intro k ks rest s h hk hl hkp
  obtain ⟨v, key, hbits, hrun⟩ := runMicros_readByteSeq [] [] k ks rest s h hk hl hkp
  exact ⟨_, congrArg Host.Outcome.next hrun, hbits, rfl, rfl⟩

end Sys2Proof.Machine
end

section
/-! PROOF. The address ranges at acceptance (R50, R51, R135). -/

namespace Sys2Proof.Machine

/-- A well-formed request to a configured idle engine is accepted, or dropped where it has a drop condition (R119,
R135). -/
theorem processRequest_of_configured (q : Request) (s : State) (hb : s.eng.busy = false) (hc : s.eng.cfg = true)
    (hw : q.wellFormed = true) :
    (q.dropReason = none → processRequest q s = acceptRequest q s) ∧
      ∀ r, q.dropReason = some r → processRequest q s = dropRequest q r s := by
  constructor
  · intro hd
    simp [processRequest, hb, hc, hw, hd]
  · intro r hd
    simp [processRequest, hb, hc, hw, hd]

/-- A well-formed request to a configured idle engine, whose addresses are in range exactly when `valid` holds: it is
accepted then and dropped otherwise (R135). -/
theorem exec_request_of_addressCheck (q : Request) (valid : Prop) (s : State) (hb : s.eng.busy = false)
    (hc : s.eng.cfg = true) (hw : q.wellFormed = true) (hv : valid → q.dropReason = none)
    (hn : ¬valid → q.dropReason = some .invalidAddress) :
    ∃ t, exec q.toInstr s = .next t ∧
      (valid → t.eng.busy = true ∧ t.reports = s.reports ++ [.accepted q]) ∧
      (¬valid → t.eng.busy = false ∧ ∃ st, t.reports = s.reports ++ [.dropped q .invalidAddress st]) := by
  obtain ⟨haccept, hdrop⟩ := processRequest_of_configured q s hb hc hw
  refine ⟨_, exec_request q s, fun h => ?_, fun h => ?_⟩
  · rw [haccept (hv h)]
    exact ⟨rfl, rfl⟩
  · rw [hdrop _ (hn h)]
    exact ⟨hb, _, rfl⟩

/-- Settles O39: the checks on the operands are those of R50 and R51 in the naturals. -/
theorem addressRangeIsCheckedInTheNaturals : Obligations.AddressRangeIsCheckedInTheNaturals := by
  intro s hb hc
  refine ⟨fun a v ha hv => ?_, fun a n bytes ha hn hbytes hl => ?_⟩
  · have hw : (Request.writeReg a v).wellFormed = true := by
      simp only [Request.wellFormed, Bool.and_eq_true, decide_eq_true_eq]
      omega
    exact exec_request_of_addressCheck (.writeReg a v) (a ≤ 15) s hb hc hw
      (fun h => by simp [Request.dropReason, regAddrValid, h]) (fun h => by simp [Request.dropReason, regAddrValid, h])
  · have hw : (Request.writeBuf a n bytes).wellFormed = true := by
      simp only [Request.wellFormed, Bool.and_eq_true, decide_eq_true_eq, List.all_eq_true]
      exact ⟨⟨⟨by omega, by omega⟩, fun d hd => Nat.lt_succ_of_le (hbytes d hd)⟩, hl⟩
    exact exec_request_of_addressCheck (.writeBuf a n bytes) (1 ≤ n ∧ a + n ≤ 16) s hb hc hw
      (fun h => by simp [Request.dropReason, bufRangeValid, h])
      (fun h => by
        have hr : bufRangeValid a n = false := by simpa [bufRangeValid] using h
        simp [Request.dropReason, hr])

end Sys2Proof.Machine
end

section
/-! PROOF. The encoding of a byte instruction and the reading of a byte (R75 to R86). -/

namespace Sys2Proof

/-! ## Encoding, then decoding -/

/-- Every well-formed instruction that is a byte is read back from its byte. -/
theorem map_decodeByte_encode (i : Instr) : Laws.RoundTrip.Statement i := by
  cases i with
  | cmdWriteAuto => exact Laws.RoundTrip.cmdWriteAuto
  | cmdReadKeys => exact Laws.RoundTrip.cmdReadKeys
  | cmdWriteFixed => exact Laws.RoundTrip.cmdWriteFixed
  | ctrl e b => exact Laws.RoundTrip.ctrl e b
  | addr a => exact Laws.RoundTrip.addr a
  | reservedClass00 x => exact Laws.RoundTrip.reservedClass00 x
  | reservedData z r m => exact Laws.RoundTrip.reservedData z r m
  | reservedCtrlAddr x z low => exact Laws.RoundTrip.reservedCtrlAddr x z low
  | payload d => exact Laws.RoundTrip.payload d
  | _ => exact fun _ _ _ h => nomatch h

/-- Settles O2: the instruction's byte is decoded back to it, and no byte is left over. -/
theorem decodeOfEncodeIsTheInstruction : Obligations.DecodeOfEncodeIsTheInstruction := by
  intro lay pos i hwf hpos
  obtain ⟨b, hb, hi⟩ := Option.map_eq_some_iff.mp (map_decodeByte_encode i lay pos hwf hpos)
  exact ⟨b, hb, congrArg (fun j => Except.ok (j, [])) hi⟩

/-- Settles O1: each word is decoded by its class and its fields. -/
theorem commandBytesReadAsTheTableSays : Obligations.CommandBytesReadAsTheTableSays := by
  unfold Obligations.CommandBytesReadAsTheTableSays
  decide

/-! ## The fields of a byte -/

/-- A bit of a word is the word's field of that one bit. -/
theorem ofBool_getLsbD {w : Nat} (c : BitVec w) (i : Nat) : BitVec.ofBool (c.getLsbD i) = c.extractLsb' i 1 := by
  refine BitVec.eq_of_getLsbD_eq fun j hj => ?_
  obtain rfl : j = 0 := by omega
  simp

/-- A byte is its class, bits 7:6 (R76), and its bits 5:0. -/
theorem class_append_low (c : Byte) :
    BitVec.ofBool (c.getLsbD 7) ++ BitVec.ofBool (c.getLsbD 6) ++ c.extractLsb' 0 6 = c := by
  simp only [ofBool_getLsbD]
  iterate 2 rw [BitVec.extractLsb'_append_extractLsb'_eq_extractLsb']
  exacts [BitVec.extractLsb'_eq_self, rfl, rfl]

/-- A byte is its class and the fields of a class-01 byte: bits 5:3, bit 2 and bits 1:0 (R77). -/
theorem class_append_dataFields (c : Byte) :
    BitVec.ofBool (c.getLsbD 7) ++ BitVec.ofBool (c.getLsbD 6) ++ c.extractLsb' 3 3 ++ BitVec.ofBool (c.getLsbD 2) ++
      c.extractLsb' 0 2 = c := by
  simp only [ofBool_getLsbD]
  iterate 4 rw [BitVec.extractLsb'_append_extractLsb'_eq_extractLsb']
  exacts [BitVec.extractLsb'_eq_self, rfl, rfl, rfl, rfl]

/-- A byte is its class and the fields of a class-10 or class-11 byte: bits 5:4 and bits 3:0 (R78, R79). -/
theorem class_append_ctrlAddrFields (c : Byte) :
    BitVec.ofBool (c.getLsbD 7) ++ BitVec.ofBool (c.getLsbD 6) ++ c.extractLsb' 4 2 ++ c.extractLsb' 0 4 = c := by
  simp only [ofBool_getLsbD]
  iterate 3 rw [BitVec.extractLsb'_append_extractLsb'_eq_extractLsb']
  exacts [BitVec.extractLsb'_eq_self, rfl, rfl, rfl]

/-- `CTRL(e, b)` is class 10, bits 5:4 of 0, bit 3 and bits 2:0 (R78). -/
theorem ctrlByte_eq_append (e : Bool) (b : BitVec 3) :
    ctrlByte e b = 1#1 ++ 0#1 ++ 0#2 ++ (BitVec.ofBool e ++ b) := by
  revert e b
  decide

/-- `ADDR(a)` is class 11, bits 5:4 of 0 and bits 3:0 (R79). -/
theorem addrByte_eq_append (a : BitVec 4) : addrByte a = 1#1 ++ 1#1 ++ 0#2 ++ a := by
  revert a
  decide

/-! ## Decoding, then encoding -/

/-- The byte of whatever a class-01 byte is read as: the class 01, then the fields (R77, R81). -/
theorem encode_decodeData (lay : DataLayout) (z : BitVec 3) (r : Bool) (m : BitVec 2) :
    encode lay (decodeData lay z r m) = some (1#2 ++ z ++ BitVec.ofBool r ++ m) := by
  by_cases hz : z = 0#3
  · subst hz
    revert r m
    cases lay <;> decide
  · rw [Machine.decodeData_reserved lay z r m hz]
    rfl

/-- A class-01 byte is read as a reserved row only where no other row holds it (R60, R86). -/
theorem decodeData_wf (lay : DataLayout) (z : BitVec 3) (r : Bool) (m : BitVec 2) :
    (decodeData lay z r m).wf lay = true := by
  by_cases hz : z = 0#3
  · subst hz
    revert r m
    cases lay <;> decide
  · rw [Machine.decodeData_reserved lay z r m hz]
    cases lay <;> simp [Instr.wf, dataByteDefined, hz]

/-- A class-10 or class-11 byte is read as CTRL or ADDR when bits 5:4 are 0, and otherwise as the reserved row of those
classes (R78, R79, R86). -/
theorem decodeCommand_of_ctrlAddr (lay : DataLayout) (c : Byte) (h7 : c.getLsbD 7 = true) :
    decodeCommand lay c =
      if c.extractLsb' 4 2 = 0 then
        if c.getLsbD 6 then .addr (c.extractLsb' 0 4) else .ctrl (c.getLsbD 3) (c.extractLsb' 0 3)
      else .reservedCtrlAddr (c.getLsbD 6) (c.extractLsb' 4 2) (c.extractLsb' 0 4) := by
  unfold decodeCommand
  rw [h7]

/-- The byte of whatever a class-10 or class-11 byte is read as is that byte (R78, R79). -/
theorem encode_decodeCommand_of_ctrlAddr (lay : DataLayout) (c : Byte) (h7 : c.getLsbD 7 = true) :
    encode lay (decodeCommand lay c) = some c := by
  have hc := class_append_ctrlAddrFields c
  rw [decodeCommand_of_ctrlAddr lay c h7]
  rw [h7] at hc
  by_cases hz : c.extractLsb' 4 2 = 0
  · rw [hz] at hc
    rw [if_pos hz]
    cases h6 : c.getLsbD 6 <;> rw [h6] at hc
    · have hlow : BitVec.ofBool (c.getLsbD 3) ++ c.extractLsb' 0 3 = c.extractLsb' 0 4 := by
        rw [ofBool_getLsbD]
        exact BitVec.extractLsb'_append_extractLsb'_eq_extractLsb' rfl
      rw [← hlow] at hc
      exact congrArg some ((ctrlByte_eq_append ..).trans hc)
    · exact congrArg some ((addrByte_eq_append _).trans hc)
  · rw [if_neg hz]
    exact congrArg some hc

/-- Every command byte is the byte of the instruction it is read as (R76, R86). -/
theorem encode_decodeCommand (lay : DataLayout) (c : Byte) : encode lay (decodeCommand lay c) = some c := by
  cases h7 : c.getLsbD 7
  case true => exact encode_decodeCommand_of_ctrlAddr lay c h7
  case false =>
    have hlow := class_append_low c
    have hdata := class_append_dataFields c
    unfold decodeCommand
    rw [h7] at hlow hdata ⊢
    cases h6 : c.getLsbD 6
    · rw [h6] at hlow
      exact congrArg some hlow
    · rw [h6] at hdata
      exact (encode_decodeData ..).trans (congrArg some hdata)

/-- Every command byte is read as a well-formed instruction (R76, R86). -/
theorem decodeCommand_wf (lay : DataLayout) (c : Byte) : (decodeCommand lay c).wf lay = true := by
  cases h7 : c.getLsbD 7
  case true =>
    rw [decodeCommand_of_ctrlAddr lay c h7]
    by_cases hz : c.extractLsb' 4 2 = 0
    · rw [if_pos hz]
      cases c.getLsbD 6 <;> rfl
    · rw [if_neg hz]
      exact bne_iff_ne.mpr hz
  case false =>
    unfold decodeCommand
    rw [h7]
    cases c.getLsbD 6
    · rfl
    · exact decodeData_wf ..

/-- Settles O3: by the position, a command byte by its class and a payload byte as it is. -/
theorem everyByteHasOneReading : Obligations.EveryByteHasOneReading := by
  intro lay pos b
  refine ⟨?_, Machine.decodeByte_pos lay pos b, ?_⟩ <;> cases pos
  · exact decodeCommand_wf lay b
  · rfl
  · exact encode_decodeCommand lay b
  · rfl

end Sys2Proof
end

section
/-! PROOF. The five bus actions (R95 to R99): what each does to its pin, to the wire and to the peer, and what it leaves
alone. -/

namespace Sys2Proof.Machine

/-! ## Actions that make no edge (R56, R68) -/

theorem flagContention_cases (s : State) : flagContention s = s ∨ flagContention s = s.setPeer s.peer.setUndef := by
  unfold flagContention
  split
  · exact .inr rfl
  · exact .inl rfl

/-- A change of a wire that is no edge can only set `T.undef`. -/
theorem reactPin_nonEdge (p : Pin) (c : WireChange) (s : State) (hc : c = .blur ∨ c = .none) :
    reactPin p c s = s ∨ reactPin p c s = s.setPeer s.peer.setUndef := by
  obtain rfl | rfl := hc
  · by_cases hp : p = .dio
    · subst hp
      exact .inl rfl
    · rw [reactPin_blur p hp]
      split
      · exact .inr rfl
      · exact .inl rfl
  · exact .inl (reactPin_none p s)

/-- An action that makes no edge sets its pin and is recorded; in the peer it can only set `T.undef`. -/
theorem actOnPin_nonEdge (p : Pin) (q : PinState) (ev : BusEvent) (s : State)
    (hc : wireChange (s.eng.pin p).driven q.driven = .blur ∨ wireChange (s.eng.pin p).driven q.driven = .none) :
    ∃ t, (t = s.peer ∨ t = s.peer.setUndef) ∧
      actOnPin p q ev s = ((s.setEng (s.eng.setPin p q)).record ev).setPeer t := by
  rw [actOnPin_eq_reactPin]
  obtain h | h := reactPin_nonEdge p _ ((s.setEng (s.eng.setPin p q)).record ev) hc <;> rw [h]
  · obtain h | h := flagContention_cases ((s.setEng (s.eng.setPin p q)).record ev) <;> rw [h]
    · exact ⟨s.peer, .inl rfl, rfl⟩
    · exact ⟨_, .inr rfl, rfl⟩
  · obtain h | h := flagContention_cases
      (((s.setEng (s.eng.setPin p q)).record ev).setPeer s.peer.setUndef) <;> exact ⟨_, .inr rfl, h⟩

/-- The peer does not notice such an action while it is outside a window and does not drive DIO. -/
theorem actOnPin_nonEdge_quiet (p : Pin) (q : PinState) (ev : BusEvent) (s : State)
    (hc : p = .dio ∨ wireChange (s.eng.pin p).driven q.driven = .blur ∨
      wireChange (s.eng.pin p).driven q.driven = .none)
    (hw : s.peer.win = false) (hd : s.peer.drive = none) : (actOnPin p q ev s).peer = s.peer := by
  by_cases hp : p = .dio
  · subst hp
    rw [actOnPin_dio, flagContention_eq _ (.inr (by exact hd))]
    rfl
  · have hn : contention s = false := by simp [contention, hd]
    rw [actOnPin_nonEdge_outside p q ev s hp (hc.resolve_left hp) hw, hn]
    rfl

/-- Where the wires of CLK and STB keep their levels the peer sees of an action only contention. -/
theorem actOnPin_sameWire (p : Pin) (q : PinState) (ev : BusEvent) (s : State)
    (h : p = .dio ∨ q.driven = (s.eng.pin p).driven) :
    actOnPin p q ev s = flagContention ((s.setEng (s.eng.setPin p q)).record ev) := by
  obtain rfl | h := h
  · exact actOnPin_dio q ev s
  · rw [actOnPin_eq_reactPin, h, wireChange_self, reactPin_none]

/-! ## The level of a wire (R26) -/

theorem level_of_out (s : State) (p : Pin) (h : (s.eng.pin p).mode = .out) :
    level s p = if peerDrives s.peer p then none else (s.eng.pin p).latch :=
  if_pos h

theorem level_of_not_out (s : State) (p : Pin) (h : (s.eng.pin p).mode ≠ .out) :
    level s p = if peerDrives s.peer p then s.peer.drive else none :=
  if_neg h

theorem peerDrives_congr {t u : Peer} (h : t.drive = u.drive) (p : Pin) : peerDrives t p = peerDrives u p := by
  cases p with
  | dio => rw [peerDrives, peerDrives, h]
  | clk => rfl
  | stb => rfl

/-! ## `CFG_OUT` and `CFG_IN` (R95, R96) -/

/-- Settles O7: `CFG_OUT` makes no edge, and on DIO it is contention exactly when the peer drives. -/
theorem cfgOutDrivesThePinWithItsLatch : Obligations.CfgOutDrivesThePinWithItsLatch := by
  intro p s
  obtain ⟨t, ht, hact⟩ := actOnPin_nonEdge p ⟨.out, (s.eng.pin p).latch⟩ (.cfgOut p) s (wireChange_cfgOut _)
  have hdrive : t.drive = s.peer.drive := by obtain rfl | rfl := ht <;> rfl
  have hpin : (doCfgOut p s).eng.pin p = ⟨.out, (s.eng.pin p).latch⟩ := by
    rw [doCfgOut, actOnPin_eng, Engine.setPin_pin]
  refine ⟨doCfgOut p s, rfl, ?_, fun hm => ?_, ?_, ?_, ?_, ?_, ?_⟩
  · rw [doCfgOut, hact]
    rfl
  · rw [doCfgOut, actOnPin_eng, ← hm]
    exact s.eng.setPin_self p
  · rw [level_of_out _ p (by rw [hpin]), hpin, ← peerDrives_congr hdrive p, doCfgOut, hact]
    rfl
  · rw [doCfgOut, hact]
    exact ht
  · exact actOnPin_nonEdge_quiet p _ _ s (.inr (wireChange_cfgOut _))
  · rintro rfl hd
    rw [doCfgOut, actOnPin_dio, flagContention_eq _ (.inr (by exact hd))]
    rfl
  · rintro rfl hd
    rw [doCfgOut, actOnPin_dio, flagContention_peer, if_pos]
    · rfl
    · simpa [contention, Option.isSome_iff_ne_none] using hd

/-- Settles O8: `CFG_IN` leads to `⊥`, which is no edge. -/
theorem cfgInReleasesThePin : Obligations.CfgInReleasesThePin := by
  intro p s
  obtain ⟨t, ht, hact⟩ := actOnPin_nonEdge p ⟨.inp, none⟩ (.cfgIn p) s (wireChange_to_unknown _)
  have hdrive : t.drive = s.peer.drive := by obtain rfl | rfl := ht <;> rfl
  have hpin : (doCfgIn p s).eng.pin p = ⟨.inp, none⟩ := by
    rw [doCfgIn, actOnPin_eng, Engine.setPin_pin]
  refine ⟨doCfgIn p s, rfl, ?_, ?_, ?_, ?_⟩
  · rw [doCfgIn, hact]
    rfl
  · rw [level_of_not_out _ p (by rw [hpin]; decide), ← peerDrives_congr hdrive p, ← hdrive, doCfgIn, hact]
    rfl
  · rw [doCfgIn, hact]
    exact ht
  · exact actOnPin_nonEdge_quiet p _ _ s (.inr (wireChange_to_unknown _))

/-! ## `WR` (R97) -/

/-- A `WR` on a pin that is not `Out`, or to the level that the latch has already, leaves the level that the engine
gives the wire. -/
theorem PinState.driven_setLatch (q : PinState) (l : Level) (h : q.mode ≠ .out ∨ q.latch = some l) :
    PinState.driven ⟨q.mode, some l⟩ = q.driven := by
  obtain ⟨mode, latch⟩ := q
  cases mode with
  | out =>
    obtain h | rfl := h
    · exact absurd rfl h
    · rfl
  | inp => rfl
  | unconf => rfl

/-- Of a `WR` that makes no edge of CLK or STB the peer sees only contention that was there before (R56, R68). -/
theorem doWr_edgeless (p : Pin) (l : Level) (s : State)
    (h : p = .dio ∨ (s.eng.pin p).mode ≠ .out ∨ (s.eng.pin p).latch = some l) :
    (doWr p l s).keypad = s.keypad ∧ (doWr p l s).drawn = s.drawn ∧
      (doWr p l s).peer = if contention s then s.peer.setUndef else s.peer := by
  rw [doWr, actOnPin_sameWire p _ _ s (h.imp_right ((s.eng.pin p).driven_setLatch l))]
  generalize hu : State.record _ _ = u
  obtain ⟨-, -, -, -, -, hkeypad, hdrawn⟩ := flagContention_frame u
  have hcont : contention u = contention s := by subst hu; cases p <;> rfl
  rw [hkeypad, hdrawn, flagContention_peer, hcont]
  subst hu
  exact ⟨rfl, rfl, rfl⟩

/-- Settles O9: the wire follows the latch of a pin that is `Out`, and no other. -/
theorem wrSetsTheLatch : Obligations.WrSetsTheLatch := by
  intro p l s
  have hpin : (doWr p l s).eng.pin p = ⟨(s.eng.pin p).mode, some l⟩ := by
    rw [doWr, actOnPin_eng, Engine.setPin_pin]
  refine ⟨doWr p l s, rfl, actOnPin_eng .., actOnPin_trace .., fun hm => ?_, fun hm => ?_, fun h => ?_⟩
  · rw [level_of_out _ p (by rw [hpin]; exact hm), hpin]
  · have hdrive : (doWr p l s).peer.drive = s.peer.drive := by
      rw [(doWr_edgeless p l s (.inr (.inl hm))).2.2]
      split <;> rfl
    rw [level_of_not_out _ p (by rw [hpin]; exact hm), level_of_not_out s p hm, peerDrives_congr hdrive p, hdrive]
  · exact doWr_edgeless p l s (or_left_comm.1 h)

/-! ## `RD` and `DELAY` (R98, R99) -/

/-- Settles O10: by the level of the wire. -/
theorem rdAnswersTheLevel : Obligations.RdAnswersTheLevel := by
  intro p s
  refine ⟨fun b hb => ?_, fun hn => ⟨Config.freeBit s.drawn, ?_⟩⟩
  · exact congrArg Host.Outcome.next (by rw [doRd, sampleWire, hb]; rfl)
  · exact congrArg Host.Outcome.next (by rw [doRd, sampleWire, hn]; rfl)

/-- Settles O11: the state after `DELAY`, written out. -/
theorem delayOnlyTakesItsPlace : Obligations.DelayOnlyTakesItsPlace :=
  fun _ => rfl

/-! ## How an action reaches the peer -/

/-- The pin that an action sets. -/
def BusAction.setsPin : BusAction → Option Pin
  | .cfgOut p => some p
  | .cfgIn p => some p
  | .wr p _ => some p
  | .rd _ => none
  | .delay => none

theorem BusAction.onEngine_pin_other (a : BusAction) (e : Engine) (p : Pin) (h : a.setsPin ≠ some p) :
    (a.onEngine e).pin p = e.pin p := by
  cases a with
  | cfgOut p' | cfgIn p' | wr p' l => exact e.setPin_pin_other p' p _ fun hp => h (congrArg some hp.symm)
  | rd p' => rfl
  | delay => rfl

theorem wireChange_eq_fall {l l' : Option Level} (h : wireChange l l' = .fall) :
    l = some true ∧ l' = some false := by
  revert l l'
  decide

/-- What an action can do to the peer and the keypad: nothing, or the reaction to a change of its pin's wire, followed
by contention; a rise of CLK comes from `WR(CLK, 1)` only and a fall from `WR(CLK, 0)` only (R56, R68). -/
theorem performAct_cases (a : BusAction) (s : State) :
    ((performAct a s).peer = s.peer ∧ (performAct a s).keypad = s.keypad) ∨
      ∃ p c u, performAct a s = flagContention (reactPin p c u) ∧ u.peer = s.peer ∧ u.keypad = s.keypad ∧
        a.setsPin = some p ∧
        (p = .clk → (c = .rise → a = .wr .clk true) ∧ (c = .fall → a = .wr .clk false)) := by
  have hno {c : WireChange} {P Q : Prop} (h : c = .blur ∨ c = .none) : (c = .rise → P) ∧ (c = .fall → Q) := by
    obtain rfl | rfl := h
    · exact ⟨nofun, nofun⟩
    · exact ⟨nofun, nofun⟩
  cases a with
  | cfgOut p =>
    exact .inr ⟨p, _, _, actOnPin_eq_reactPin p _ _ s, rfl, rfl, rfl, fun _ => hno (wireChange_cfgOut _)⟩
  | cfgIn p =>
    exact .inr ⟨p, _, _, actOnPin_eq_reactPin p _ _ s, rfl, rfl, rfl, fun _ => hno (wireChange_to_unknown _)⟩
  | wr p l =>
    refine .inr ⟨p, _, _, actOnPin_eq_reactPin p _ _ s, rfl, rfl, rfl, fun hp => ⟨fun hc => ?_, fun hc => ?_⟩⟩
    · cases PinState.latch_of_driven (wireChange_eq_rise hc).2
      rw [hp]
    · cases PinState.latch_of_driven (wireChange_eq_fall hc).2
      rw [hp]
  | rd p =>
    obtain ⟨-, -, hpeer, -, -, -, hkeypad⟩ := doRd_frame p s
    exact .inl ⟨hpeer, hkeypad⟩
  | delay => exact .inl ⟨rfl, rfl⟩

/-! ## What the peer's reactions leave alone -/

/-- A command byte writes no display register (R32). -/
theorem Peer.byteDone_disp_of_command (lay : DataLayout) (t : Peer) (h : t.nbytes = 0) :
    (t.byteDone lay).disp = t.disp := by
  refine t.runByte_disp _ fun d hd => ?_
  have hpos := decodeByte_pos lay t.bytePos t.sh
  rw [hd, Peer.bytePos, if_pos h] at hpos
  cases hpos

/-- Unless it completes a byte, a rise of CLK only shifts in a bit, or sets `T.undef` (R58). -/
theorem Peer.shiftIn_form (lay : DataLayout) (d : Option Level) (t : Peer) (h : t.nbits ≠ 7) :
    ∃ sh n u, t.shiftIn lay d = { t with sh := sh, nbits := n, undef := u } ∧ n ≤ t.nbits + 1 := by
  cases d with
  | none => exact ⟨t.sh, t.nbits, true, rfl, Nat.le_succ _⟩
  | some b => exact ⟨_, t.nbits + 1, t.undef, t.shiftIn_partial lay b (by omega), le_rfl⟩

theorem Peer.shiftIn_key (lay : DataLayout) (d : Option Level) (t : Peer) : (t.shiftIn lay d).key = t.key := by
  cases d with
  | none => rfl
  | some b =>
    rw [Peer.shiftIn_bit]
    split
    · exact Peer.byteDone_key lay _
    · rfl

theorem Peer.shiftIn_disp_of_command (lay : DataLayout) (d : Option Level) (t : Peer) (h : t.nbytes = 0) :
    (t.shiftIn lay d).disp = t.disp := by
  cases d with
  | none => rfl
  | some b =>
    rw [Peer.shiftIn_bit]
    split
    · exact Peer.byteDone_disp_of_command lay _ h
    · rfl

/-- From `s` to `t` the peer's registers change only where a byte completes, at a rise of CLK if `rise` says that there
is one, the display registers only where that byte is payload (R32, R58, R64); and the keypad is looked at only by a
peer that transmits, at a fall of CLK if `fall` says that there is one (R66). -/
structure ClkEffect (fall rise : Prop) (s t : State) : Prop where
  disp : ¬(rise ∧ s.peer.win = true ∧ s.peer.tx = false ∧ s.peer.nbits = 7 ∧ s.peer.nbytes ≠ 0) →
    t.peer.disp = s.peer.disp
  regs : ¬(rise ∧ s.peer.win = true ∧ s.peer.tx = false ∧ s.peer.nbits = 7) →
    t.peer.rw = s.peer.rw ∧ t.peer.am = s.peer.am ∧ t.peer.ptr = s.peer.ptr ∧ t.peer.on = s.peer.on ∧
      t.peer.bri = s.peer.bri
  keys : ¬(fall ∧ s.peer.win = true ∧ s.peer.tx = true) → t.peer.key = s.peer.key ∧ t.keypad = s.keypad

section
variable {fall rise : Prop} {s t u : State}

theorem ClkEffect.of_same (hp : t.peer = s.peer) (hk : t.keypad = s.keypad) : ClkEffect fall rise s t := by
  refine ⟨fun _ => ?_, fun _ => ?_, fun _ => ⟨?_, hk⟩⟩ <;> rw [hp]
  exact ⟨rfl, rfl, rfl, rfl, rfl⟩

theorem ClkEffect.mono {fall' rise' : Prop} (h : ClkEffect fall rise s t) (hf : fall → fall') (hr : rise → rise') :
    ClkEffect fall' rise' s t :=
  ⟨fun hn => h.disp fun hc => hn (hc.imp_left hr), fun hn => h.regs fun hc => hn (hc.imp_left hr),
    fun hn => h.keys fun hc => hn (hc.imp_left hf)⟩

theorem ClkEffect.setUndef (h : ClkEffect fall rise s t) : ClkEffect fall rise s (t.setPeer t.peer.setUndef) :=
  ⟨h.disp, h.regs, h.keys⟩

theorem ClkEffect.flagContention (h : ClkEffect fall rise s t) : ClkEffect fall rise s (flagContention t) := by
  obtain ht | ht := flagContention_cases t <;> rw [ht]
  · exact h
  · exact h.setUndef

/-- The effect depends on the peer and the keypad only. -/
theorem ClkEffect.of_eq (hp : u.peer = s.peer) (hk : u.keypad = s.keypad) (h : ClkEffect fall rise u t) :
    ClkEffect fall rise s t := by
  obtain ⟨hdisp, hregs, hkeys⟩ := h
  rw [hp] at hdisp hregs hkeys
  rw [hk] at hkeys
  exact ⟨hdisp, hregs, hkeys⟩

end

/-- A change of STB opens or closes a window at most (R57, R67). -/
theorem reactStb_clkEffect {fall rise : Prop} (c : WireChange) (s : State) :
    ClkEffect fall rise s (reactStb c s) := by
  rw [reactStb]
  obtain h | h | h | h := s.peer.onStb_cases c <;> rw [h] <;>
    exact ⟨fun _ => rfl, fun _ => ⟨rfl, rfl, rfl, rfl, rfl⟩, fun _ => ⟨rfl, rfl⟩⟩

theorem shiftIn_clkEffect {fall : Prop} (lay : DataLayout) (d : Option Level) (s : State) (hw : s.peer.win = true)
    (ht : s.peer.tx = false) : ClkEffect fall True s (s.setPeer (s.peer.shiftIn lay d)) := by
  refine ⟨fun hn => ?_, fun hn => ?_, fun _ => ⟨s.peer.shiftIn_key lay d, rfl⟩⟩ <;> rw [State.setPeer_peer]
  · by_cases h7 : s.peer.nbits = 7
    · exact s.peer.shiftIn_disp_of_command lay d (by_contra fun h0 => hn ⟨trivial, hw, ht, h7, h0⟩)
    · obtain ⟨_, _, _, h, -⟩ := s.peer.shiftIn_form lay d h7
      rw [h]
  · obtain ⟨_, _, _, h, -⟩ := s.peer.shiftIn_form lay d fun h7 => hn ⟨trivial, hw, ht, h7⟩
    rw [h]
    exact ⟨rfl, rfl, rfl, rfl, rfl⟩

/-- A rise of CLK while the peer transmits moves the key position and releases DIO, and nothing else (R66). -/
theorem Peer.releaseKey_form (t : Peer) :
    t.releaseKey = { t with drive := none, kbit := t.releaseKey.kbit, kidx := t.releaseKey.kidx } := by
  unfold Peer.releaseKey
  split <;> rfl

theorem reactClk_clkEffect (c : WireChange) (s : State) : ClkEffect (c = .fall) (c = .rise) s (reactClk c s) := by
  have hsame : ClkEffect (c = .fall) (c = .rise) s s := .of_same rfl rfl
  cases c with
  | none => exact hsame
  | blur =>
    dsimp only [reactClk]
    split
    · exact hsame.setUndef
    · exact hsame
  | rise =>
    dsimp only [reactClk]
    split
    · next hw =>
      split
      · rw [s.peer.releaseKey_form]
        exact ⟨fun _ => rfl, fun _ => ⟨rfl, rfl, rfl, rfl, rfl⟩, fun _ => ⟨rfl, rfl⟩⟩
      · next ht => exact (shiftIn_clkEffect _ _ s hw (Bool.eq_false_of_not_eq_true ht)).mono id fun _ => rfl
    · exact hsame.setUndef
  | fall =>
    dsimp only [reactClk]
    split
    · next hw =>
      split
      · next ht =>
        split
        · exact hsame.setUndef
        · exact ⟨fun _ => rfl, fun _ => ⟨rfl, rfl, rfl, rfl, rfl⟩, fun hn => absurd ⟨rfl, hw, ht⟩ hn⟩
      · exact hsame
    · exact hsame.setUndef

theorem performAct_clkEffect (a : BusAction) (s : State) :
    ClkEffect (a = .wr .clk false) (a = .wr .clk true) s (performAct a s) := by
  obtain ⟨hp, hk⟩ | ⟨p, c, u, hact, hp, hk, -, hclk⟩ := performAct_cases a s
  · exact .of_same hp hk
  · rw [hact]
    refine ClkEffect.flagContention (.of_eq hp hk ?_)
    cases p with
    | clk => exact (reactClk_clkEffect c u).mono (hclk rfl).2 (hclk rfl).1
    | dio => exact .of_same rfl rfl
    | stb => exact reactStb_clkEffect c u

/-- Settles O12: the engine's part by the pin that the action sets, the peer's by the edge of CLK that it makes. -/
theorem busActionsChangeNothingElse : Obligations.BusActionsChangeNothingElse := by
  intro a s t h
  rw [exec_action] at h
  cases h
  obtain ⟨hpar, hpending, hreports⟩ := performAct_frame a s
  obtain ⟨hdisp, hregs, hkeys⟩ := performAct_clkEffect a s
  refine ⟨⟨hpar, hpending, hreports, performAct_trace a s⟩, performAct_eng a s, fun p hp => ?_, fun x hx => ?_, hdisp,
    hregs, hkeys⟩
  · obtain ⟨hout, hin, hwr⟩ := hp
    rw [performAct_onEngine]
    refine a.onEngine_pin_other s.eng p fun hset => ?_
    cases a with
    | cfgOut p' => cases hset; exact hout rfl
    | cfgIn p' => cases hset; exact hin rfl
    | wr p' l => cases hset; exact hwr l rfl
    | rd p' => cases hset
    | delay => cases hset
  · by_contra hne
    obtain ⟨-, -, -, -, -, hstore⟩ := performAct_read_ne a s x hne
    exact hx hstore

end Sys2Proof.Machine
end

section
/-! PROOF. The procedures of the transceiver (R100, R101): what WRITE_BYTE and READ_BYTE do to the engine and the trace
from every state, and the frame of the eight procedures. -/

namespace Sys2Proof.Machine

/-! ## WRITE_BYTE and READ_BYTE -/

/-- Settles O27: the engine and the trace from every state, the peer between two bytes of a write window. -/
theorem writeByteDeliversItsByte : Obligations.WriteByteDeliversItsByte := by
  intro v s
  obtain ⟨heng, htrace⟩ := runMicros_writeByteSeq_eng v s
  refine ⟨runMicros (writeByteSeq v) s, rfl, htrace, heng, fun h => ?_⟩
  rw [runMicros_writeByteSeq v s h]
  exact ⟨rfl, rfl, rfl⟩

/-- Settles O28: READ_BYTE with no assignments of a caller. -/
theorem readByteAssemblesItsAnswers : Obligations.ReadByteAssemblesItsAnswers := by
  intro s
  obtain ⟨b, htrace, heng⟩ := runMicros_readByteSeq_eng [] [] s
  refine ⟨runMicros (readByteSeq [] []) s, b, rfl, ?_, heng⟩
  rw [htrace, readByteEvents, ← List.append_assoc, ← List.append_assoc]
  rfl

/-! ## The engine's frame -/

/-- No entry of the list returns the key mask (R129): the procedures leave that to READ_KEYS. -/
def NoReturn (ms : List Micro) : Prop := ∀ m ∈ ms, Assign.returnKeys ∉ m.asg

theorem NoReturn.append {ms ns : List Micro} (h : NoReturn ms) (h' : NoReturn ns) : NoReturn (ms ++ ns) :=
  List.forall_mem_append.2 ⟨h, h'⟩

theorem NoReturn.flatMap {α : Type} {f : α → List Micro} (h : ∀ x, NoReturn (f x)) (l : List α) :
    NoReturn (l.flatMap f) := by
  intro m hm
  obtain ⟨x, -, hx⟩ := List.mem_flatMap.1 hm
  exact h x m hx

theorem noReturn_writeByteSeq (v : Byte) : NoReturn (writeByteSeq v) := by
  refine NoReturn.flatMap (fun i => ?_) _
  by_cases hi : i = 0 <;> simp [NoReturn, writeCycle, emit, hi]

theorem noReturn_readByteSeq (as bs : List Assign) (ha : Assign.returnKeys ∉ as) (hb : Assign.returnKeys ∉ bs) :
    NoReturn (readByteSeq as bs) := by
  have hcycles := NoReturn.flatMap (f := fun _ => readCycle) (fun _ : Nat => by simp [NoReturn, readCycle, emit])
    (List.range 8)
  refine NoReturn.append (ms := [_]) ?_ (hcycles.append ?_)
  · simpa [NoReturn] using ha
  · simpa [NoReturn] using hb

theorem noReturn_strobeLowSeq : NoReturn strobeLowSeq := by
  unfold NoReturn
  decide

theorem noReturn_strobeHighSeq : NoReturn (strobeHighSeq []) := by
  unfold NoReturn
  decide

theorem noReturn_writeCommandSeq (c : Byte) : NoReturn (writeCommandSeq c) :=
  (noReturn_strobeLowSeq.append (noReturn_writeByteSeq c)).append noReturn_strobeHighSeq

theorem noReturn_writeOpSeq (lay : DataLayout) (a : Byte) (d : List Byte) : NoReturn (writeOpSeq lay a d) :=
  (noReturn_writeCommandSeq _).append (((noReturn_strobeLowSeq.append (noReturn_writeByteSeq _)).append
    (NoReturn.flatMap noReturn_writeByteSeq d)).append noReturn_strobeHighSeq)

theorem noReturn_readWindowSeq (lay : DataLayout) : NoReturn (readWindowSeq lay []) := by
  have hread (as : List Assign) (ha : Assign.returnKeys ∉ as) : NoReturn (readByteSeq as [.foldKey]) :=
    noReturn_readByteSeq as _ ha (by decide)
  exact (((((noReturn_strobeLowSeq.append (noReturn_writeByteSeq _)).append (hread _ (by decide))).append
    (hread _ (by decide))).append (hread _ (by decide))).append (hread _ (by decide))).append noReturn_strobeHighSeq

/-- The assignments other than the return of the key mask leave the response alone. -/
theorem Engine.assign_rspKeys (d : Option Level) (as : List Assign) (e : Engine) (h : Assign.returnKeys ∉ as) :
    (e.assign d as).rspKeys = e.rspKeys := by
  unfold Engine.assign
  induction as generalizing e with
  | nil => rfl
  | cons a as ih =>
    rw [List.mem_cons, not_or] at h
    obtain ⟨ha, has⟩ := h
    have hone : (Assign.apply d e a).rspKeys = e.rspKeys := by
      cases a with
      | returnKeys => exact absurd rfl ha
      | sample => cases d <;> rfl
      | _ => rfl
    rw [List.foldl_cons, ih _ has, hone]

theorem runMicros_rspKeys (ms : List Micro) (s : State) (h : NoReturn ms) :
    (runMicros ms s).eng.rspKeys = s.eng.rspKeys := by
  induction ms generalizing s with
  | nil => rfl
  | cons m ms ih =>
    obtain ⟨hm, hms⟩ := List.forall_mem_cons.1 h
    obtain ⟨c, d, b, heng⟩ := performAct_eng m.act s
    rw [runMicros_cons, ih _ hms, performMicro, State.setEng_eng, Engine.assign_rspKeys _ _ _ hm, heng]

/-- Entries that do not return the key mask change the pins and the datapath at most (R30). -/
theorem runMicros_eng_form (ms : List Micro) (s : State) (h : NoReturn ms) :
    ∃ c d b tx n acc kacc k, (runMicros ms s).eng =
      { s.eng with clk := c, dio := d, stb := b, tx := tx, i := n, acc := acc, kacc := kacc, k := k } := by
  obtain ⟨hcfg, hen, hbri, hbusy, hseq, hst⟩ := runMicros_eng ms s
  have hkeys := runMicros_rspKeys ms s h
  generalize (runMicros ms s).eng = e at *
  refine ⟨e.clk, e.dio, e.stb, e.tx, e.i, e.acc, e.kacc, e.k, ?_⟩
  dsimp only
  rw [← hcfg, ← hen, ← hbri, ← hbusy, ← hseq, ← hst, ← hkeys]

/-! ## Display registers through one byte

Eight rises of CLK complete at most one byte: after the first that does, the peer has fewer bits than the rises that are
left could make eight. -/

theorem Peer.shiftIn_nbits_of_last (lay : DataLayout) (d : Level) (t : Peer) (h : t.nbits = 7) :
    (t.shiftIn lay (some d)).nbits = 0 := by
  rw [t.shiftIn_last lay d h, Peer.byteDone_nbits]

/-- What one action off STB does to the byte that the peer is receiving: the display registers and the store address are
kept and at most one bit is counted, at `WR(CLK, 1)`; or that action completes the byte. -/
theorem performAct_byteProgress (a : BusAction) (s : State) (ha : a.setsPin ≠ some .stb) :
    ((performAct a s).peer.disp = s.peer.disp ∧ (performAct a s).peer.storeAddr = s.peer.storeAddr ∧
        (performAct a s).peer.nbits ≤ s.peer.nbits + [a].count (.wr .clk true)) ∨
      (a = .wr .clk true ∧ s.peer.nbits = 7 ∧ (performAct a s).peer.nbits = 0) := by
  obtain ⟨hp, -⟩ | ⟨p, c, u, hact, hp, -, hset, hclk⟩ := performAct_cases a s
  · rw [hp]
    exact .inl ⟨rfl, rfl, Nat.le_add_right _ _⟩
  have hflag : (performAct a s).peer = (reactPin p c u).peer ∨
      (performAct a s).peer = (reactPin p c u).peer.setUndef := hact ▸ flagContention_peer_cases _
  suffices h : ((reactPin p c u).peer.disp = s.peer.disp ∧ (reactPin p c u).peer.storeAddr = s.peer.storeAddr ∧
        (reactPin p c u).peer.nbits ≤ s.peer.nbits + [a].count (.wr .clk true)) ∨
      (a = .wr .clk true ∧ s.peer.nbits = 7 ∧ (reactPin p c u).peer.nbits = 0) by
    obtain hf | hf := hflag <;> rw [hf] <;> exact h
  rw [← hp]
  cases p with
  | dio => exact .inl ⟨rfl, rfl, Nat.le_add_right _ _⟩
  | stb => exact absurd hset ha
  | clk =>
    rw [reactPin]
    obtain h | h | h | ⟨ks, h⟩ | ⟨hrise, -, -, h⟩ := reactClk_peer_cases c u <;> rw [h]
    · exact .inl ⟨rfl, rfl, Nat.le_add_right _ _⟩
    · exact .inl ⟨rfl, rfl, Nat.le_add_right _ _⟩
    · rw [u.peer.releaseKey_form]
      exact .inl ⟨rfl, rfl, Nat.le_add_right _ _⟩
    · exact .inl ⟨rfl, rfl, Nat.le_add_right _ _⟩
    · obtain rfl := (hclk rfl).1 hrise
      by_cases h7 : u.peer.nbits = 7
      · cases hd : level u .dio with
        | none => exact .inl ⟨rfl, rfl, Nat.le_add_right _ _⟩
        | some d => exact .inr ⟨rfl, h7, Peer.shiftIn_nbits_of_last _ d _ h7⟩
      · obtain ⟨sh, n, v, hform, hn⟩ := u.peer.shiftIn_form u.par.layout (level u .dio) h7
        rw [hform]
        exact .inl ⟨rfl, rfl, hn⟩

/-- No action of the list is on STB. -/
def OffStb (as : List BusAction) : Prop := ∀ a ∈ as, a.setsPin ≠ some .stb

theorem count_actionsOf_cons (a : BusAction) (m : Micro) (ms : List Micro) :
    (actionsOf (m :: ms)).count a = [m.act].count a + (actionsOf ms).count a :=
  List.count_append (l₁ := [m.act])

/-- Too few rises to complete the byte that has begun write no display register. -/
theorem runMicros_disp_of_partial (ms : List Micro) (s : State) (hs : OffStb (actionsOf ms))
    (hn : s.peer.nbits + (actionsOf ms).count (.wr .clk true) ≤ 7) : (runMicros ms s).peer.disp = s.peer.disp := by
  induction ms generalizing s with
  | nil => rfl
  | cons m ms ih =>
    obtain ⟨hm, hms⟩ := List.forall_mem_cons.1 hs
    rw [count_actionsOf_cons] at hn
    obtain ⟨hdisp, -, hbits⟩ | ⟨hact, h7, -⟩ := performAct_byteProgress m.act s hm
    · exact (ih (performMicro m s) hms ((Nat.add_le_add_right hbits _).trans (by omega))).trans hdisp
    · rw [hact, List.count_singleton_self] at hn
      omega

/-- Up to eight rises write at most the display register at the store address that the peer has before the first. -/
theorem runMicros_read_of_oneByte (ms : List Micro) (s : State) (x : Nat) (hs : OffStb (actionsOf ms))
    (hn : (actionsOf ms).count (.wr .clk true) ≤ 8) (hx : s.peer.storeAddr ≠ some x) :
    (runMicros ms s).peer.disp.read x = s.peer.disp.read x := by
  induction ms generalizing s with
  | nil => rfl
  | cons m ms ih =>
    obtain ⟨hm, hms⟩ := List.forall_mem_cons.1 hs
    rw [count_actionsOf_cons] at hn
    obtain ⟨hdisp, hstore, -⟩ | ⟨hact, -, h0⟩ := performAct_byteProgress m.act s hm
    · have hrest := ih (performMicro m s) hms (by omega) (hstore ▸ hx)
      exact hrest.trans (congrArg (Memory.read · x) hdisp)
    · rw [hact, List.count_singleton_self] at hn
      have hrest : (runMicros ms (performMicro m s)).peer.disp = (performAct m.act s).peer.disp :=
        runMicros_disp_of_partial ms (performMicro m s) hms (by rw [performMicro, State.setEng_peer, h0]; omega)
      have hread : (performAct m.act s).peer.disp.read x = s.peer.disp.read x := by
        by_contra hne
        obtain ⟨-, -, -, -, -, hstore⟩ := performAct_read_ne m.act s x hne
        exact hx hstore
      exact (congrArg (Memory.read · x) hrest).trans hread

/-! ## The frame of the procedures -/

/-- A procedure runs entries that do not return the key mask. -/
theorem exec_of_procedure (i : Instr) (s : State)
    (h : (∃ v, i = .writeByte v) ∨ i = .readByte ∨ i = .strobeLow ∨ i = .strobeHigh ∨ (∃ c, i = .writeCommand c) ∨
      (∃ a d, i = .writeOp a d) ∨ i = .readWindow ∨ i = .sendCtrl) :
    ∃ ms, NoReturn ms ∧ exec i s = .next (runMicros ms s) := by
  obtain ⟨v, rfl⟩ | rfl | rfl | rfl | ⟨c, rfl⟩ | ⟨a, d, rfl⟩ | rfl | rfl := h
  · exact ⟨_, noReturn_writeByteSeq v, rfl⟩
  · exact ⟨_, noReturn_readByteSeq [] [] (by decide) (by decide), rfl⟩
  · exact ⟨_, noReturn_strobeLowSeq, rfl⟩
  · exact ⟨_, noReturn_strobeHighSeq, rfl⟩
  · exact ⟨_, noReturn_writeCommandSeq c, rfl⟩
  · exact ⟨_, noReturn_writeOpSeq _ a d, rfl⟩
  · exact ⟨_, noReturn_readWindowSeq _, rfl⟩
  · exact ⟨_, noReturn_writeCommandSeq _, rfl⟩

theorem offStb_writeByteActions (v : Byte) : OffStb (Spec.writeByteActions v) := by
  intro a ha
  obtain ⟨i, -, hi⟩ := List.mem_flatMap.1 ha
  simp only [List.mem_cons, List.not_mem_nil, or_false] at hi
  obtain rfl | rfl | rfl | rfl | rfl := hi <;> exact nofun

theorem count_rise_writeByteActions (v : Byte) : (Spec.writeByteActions v).count (.wr .clk true) = 8 := rfl

theorem offStb_readByteActions : OffStb Spec.readByteActions := by
  unfold OffStb
  decide

/-- A byte or a strobe alone writes at most the display register at the peer's store address (R64). -/
theorem exec_read_of_oneByte (i : Instr) (s t : State) (x : Nat)
    (h : (∃ v, i = .writeByte v) ∨ i = .readByte ∨ i = .strobeLow ∨ i = .strobeHigh) (he : exec i s = .next t)
    (hx : s.peer.storeAddr ≠ some x) : t.peer.disp.read x = s.peer.disp.read x := by
  have hstrobe (l : Level) : (doWr .stb l s).peer.disp.read x = s.peer.disp.read x := by
    by_contra hne
    obtain ⟨hact, -⟩ := performAct_read_ne (.wr .stb l) s x hne
    cases hact
  obtain ⟨v, rfl⟩ | rfl | rfl | rfl := h
  · obtain rfl : runMicros (writeByteSeq v) s = t := Host.Outcome.next.inj he
    refine runMicros_read_of_oneByte _ s x ?_ ?_ hx <;> rw [actionsOf_writeByteSeq]
    · exact offStb_writeByteActions v
    · exact (count_rise_writeByteActions v).le
  · obtain rfl : runMicros (readByteSeq [] []) s = t := Host.Outcome.next.inj he
    refine runMicros_read_of_oneByte _ s x ?_ ?_ hx <;> rw [actionsOf_readByteSeq]
    · exact offStb_readByteActions
    · decide
  · obtain rfl : doWr .stb false s = t := Host.Outcome.next.inj he
    exact hstrobe false
  · obtain rfl : doWr .stb true s = t := Host.Outcome.next.inj he
    exact hstrobe true

/-- Settles O35: the frame of a list of entries, and one byte's worth of rises. -/
theorem proceduresLeaveTheRest : Obligations.ProceduresLeaveTheRest := by
  intro i s t hi he
  have hbyte x h hx := exec_read_of_oneByte i s t x h he hx
  obtain ⟨ms, hret, hms⟩ := exec_of_procedure i s hi
  rw [hms] at he
  cases he
  obtain ⟨hpar, hpending, hreports⟩ := runMicros_frame ms s
  exact ⟨hpar, hpending, hreports, runMicros_eng_form ms s hret, fun h x hx => hbyte x h hx⟩

end Sys2Proof.Machine
end

section
/-! PROOF. Safe runs (R102, R103, R106, R132): a request that is accepted on a settled machine, performed to its end,
leaves the machine settled, and performing its entries one step at a time does not change where they lead. -/

namespace Sys2Proof.Machine

/-! ## Actions that make no edge, outside a window (R56) -/

/-- `emit` assigns nothing. -/
theorem performMicro_emit (a : BusAction) (s : State) : performMicro (emit a) s = performAct a s := rfl

/-- The action makes no edge of CLK or STB on an engine with the pins of `e` (R56): `CFG_OUT` and `CFG_IN` come from or
lead to `⊥`, and a `WR` is one on DIO, on a pin that is not `Out`, or to the level that the latch has already. -/
def BusAction.Edgeless (e : Engine) : BusAction → Prop
  | .wr p l => p = .dio ∨ (e.pin p).mode ≠ .out ∨ (e.pin p).latch = some l
  | _ => True

/-- A quiet peer does not notice an edgeless action. -/
theorem performAct_quiet (a : BusAction) (s : State) (hq : PeerQuiet s.peer) (ha : a.Edgeless s.eng) :
    (performAct a s).peer = s.peer := by
  obtain ⟨hw, -, hd⟩ := hq
  cases a with
  | cfgOut p => exact actOnPin_nonEdge_quiet p _ _ s (.inr (wireChange_cfgOut _)) hw hd
  | cfgIn p => exact actOnPin_nonEdge_quiet p _ _ s (.inr (wireChange_to_unknown _)) hw hd
  | wr p l =>
    refine actOnPin_nonEdge_quiet p _ _ s (ha.imp_right fun h => .inr ?_) hw hd
    rw [(s.eng.pin p).driven_setLatch l h, wireChange_self]
  | rd p =>
    obtain ⟨-, -, hpeer, -⟩ := doRd_frame p s
    exact hpeer
  | delay => rfl

/-- Every action of the list is edgeless on the engine that those before it leave. -/
def EdgelessRun : Engine → List BusAction → Prop
  | _, [] => True
  | e, a :: as => a.Edgeless e ∧ EdgelessRun (a.onEngine e) as

/-- A quiet peer sleeps through a list of edgeless actions, which do to the engine what each does. -/
theorem runMicros_edgeless (as : List BusAction) (s : State) (hq : PeerQuiet s.peer) (ha : EdgelessRun s.eng as) :
    (runMicros (as.map emit) s).peer = s.peer ∧
      (runMicros (as.map emit) s).eng = as.foldl BusAction.onEngine s.eng := by
  induction as generalizing s with
  | nil => exact ⟨rfl, rfl⟩
  | cons a as ih =>
    obtain ⟨ha, has⟩ := ha
    have hpeer := performAct_quiet a s hq ha
    have heng := performAct_onEngine a s
    rw [List.map_cons, runMicros_cons, performMicro_emit]
    obtain ⟨hpeer', heng'⟩ := ih (performAct a s) (by rwa [hpeer]) (by rwa [heng])
    exact ⟨hpeer'.trans hpeer, heng'.trans (congrArg (as.foldl BusAction.onEngine ·) heng)⟩

/-! ## Stations of a safe window

At each of these the reference model still knows what the peer does. -/

/-- Ready for a framed transaction (R110, R132). -/
structure SafeReady (s : State) : Prop where
  ready : Ready s
  undef : s.peer.undef = false

/-- In a window, with whole bytes received: the window may be closed (R67, R106). -/
structure SafeInWindow (s : State) : Prop where
  clk   : s.eng.clk = ⟨.out, some true⟩
  dio   : s.eng.dio.mode = .out
  stb   : s.eng.stb = ⟨.out, some false⟩
  win   : s.peer.win = true
  drive : s.peer.drive = none
  nbits : s.peer.nbits = 0
  undef : s.peer.undef = false

/-- In a window after its address command: the next payload byte is stored at `p` and the pointer advances (R64). -/
structure SafeStoring (p : Nat) (s : State) : Prop where
  inWindow : SafeInWindow s
  tx       : s.peer.tx = false
  sh       : s.peer.sh = 0
  nbytes   : s.peer.nbytes ≠ 0
  cmd      : s.peer.cmd = .addr
  rw       : s.peer.rw = some .write
  am       : s.peer.am = some .auto
  ptr      : s.peer.ptr = some p

/-- In a window in which the peer transmits, before key byte `k` (R66, R106). -/
structure SafeTransmitting (k : Nat) (s : State) : Prop where
  inWindow : SafeInWindow s
  tx       : s.peer.tx = true
  kidx     : s.peer.kidx = k
  kbit     : s.peer.kbit = 0

/-- Inside READ_BYTE, before the clock of key bit `n` of the window, eight to a byte (R66, R101). -/
structure SafeKeyClock (n : Nat) (s : State) : Prop where
  clk   : s.eng.clk = ⟨.out, some true⟩
  dio   : s.eng.dio.mode ≠ .out
  stb   : s.eng.stb = ⟨.out, some false⟩
  win   : s.peer.win = true
  drive : s.peer.drive = none
  nbits : s.peer.nbits = 0
  undef : s.peer.undef = false
  tx    : s.peer.tx = true
  kidx  : s.peer.kidx = n / 8
  kbit  : s.peer.kbit = n % 8

theorem SafeInWindow.receiving {s : State} (h : SafeInWindow s) (ht : s.peer.tx = false) (hsh : s.peer.sh = 0) :
    Receiving s :=
  ⟨h.clk, h.dio, h.stb, h.win, ht, h.drive, h.nbits, hsh⟩

/-! ## From station to station -/

/-- A byte that does not set `T.undef` leaves the window open for the next. -/
theorem safeInWindow_writeByte (v : Byte) (s : State) (h : Receiving s)
    (hu : ({ s.peer with sh := v }.byteDone s.par.layout).undef = false) :
    SafeInWindow (runMicros (writeByteSeq v) s) := by
  rw [runMicros_writeByteSeq v s h]
  obtain ⟨hclk, -, hstb, hw, -, hd, -, -⟩ := h
  exact ⟨hclk, rfl, hstb, (Peer.byteDone_win _ _).trans hw, (Peer.byteDone_drive _ _).trans hd, rfl, hu⟩

/-- STROBE_HIGH closes the window, whatever is assigned with it (R67, R108). -/
theorem SafeInWindow.strobeHigh {s : State} (h : SafeInWindow s) (as : List Assign) :
    SafeReady (runMicros (strobeHighSeq as) s) := by
  obtain ⟨-, -, -, hclk, hdio, hstb, -⟩ := Engine.assign_frame { s.eng with stb := ⟨.out, some true⟩ } none as
  rw [runMicros_strobeHigh as s h.stb h.win]
  refine ⟨⟨⟨hclk.trans h.clk, hstb, (congrArg PinState.mode hdio).trans h.dio⟩, rfl, rfl, rfl⟩, ?_⟩
  simp [Peer.closeWindow, h.undef, h.nbits]

/-- A well-formed byte instruction is what its byte is read as. -/
theorem decodeByte_of_encode {lay : DataLayout} {pos : BytePos} {i : Instr} {b : Byte} (hw : i.wf lay = true)
    (hp : i.pos = some pos) (hb : encode lay i = some b) : decodeByte lay pos b = i := by
  have h := map_decodeByte_encode i lay pos hw hp
  rw [hb] at h
  exact Option.some.inj h

/-- The first byte of a window that STROBE_LOW opened gives the peer the effect of the command it encodes (R57, R59). -/
theorem runMicros_openCommand (i : Instr) (c : Byte) (s : State) (h : Ready s) (hw : i.wf s.par.layout = true)
    (hp : i.pos = some .command) (hc : encode s.par.layout i = some c) :
    (runMicros (writeByteSeq c) (runMicros strobeLowSeq s)).peer =
      { { s.peer.openWindow with sh := c }.runByte i with nbytes := 1, nbits := 0, sh := 0 } := by
  rw [runMicros_writeByteSeq c _ (receiving_of_strobeLow s h), runMicros_strobeLow s h,
    ← decodeByte_of_encode hw hp hc]
  rfl

/-- A command that does not set `T.undef`, sent first in a window of its own (R109, R110). -/
theorem SafeReady.openCommand {s : State} (h : SafeReady s) (i : Instr) (c : Byte) (hw : i.wf s.par.layout = true)
    (hp : i.pos = some .command) (hc : encode s.par.layout i = some c)
    (hu : ({ s.peer.openWindow with sh := c }.runByte i).undef = false) :
    SafeInWindow (runMicros (writeByteSeq c) (runMicros strobeLowSeq s)) := by
  have hr := receiving_of_strobeLow s h.ready
  refine safeInWindow_writeByte c _ hr ?_
  have hpeer := runMicros_openCommand i c s h.ready hw hp hc
  rw [runMicros_writeByteSeq c _ hr] at hpeer
  exact (congrArg Peer.undef hpeer).trans hu

/-! ## The display-control command (R118) -/

theorem SafeReady.sendCtrl {s : State} (h : SafeReady s) (e : Engine) : SafeReady (runMicros (sendCtrlSeq e) s) := by
  rw [sendCtrlSeq, writeCommandSeq, runMicros_append, runMicros_append]
  exact (h.openCommand (.ctrl e.en e.bri) _ rfl rfl rfl h.undef).strobeHigh []

/-! ## A display write (R116) -/

/-- The write-mode window, after which the peer is in write mode with auto-increment (R60). -/
theorem SafeReady.writeAuto {s : State} (h : SafeReady s) :
    SafeReady (runMicros (writeCommandSeq (cmdWriteAutoByte s.par.layout)) s) ∧
      (runMicros (writeCommandSeq (cmdWriteAutoByte s.par.layout)) s).peer.rw = some .write ∧
      (runMicros (writeCommandSeq (cmdWriteAutoByte s.par.layout)) s).peer.am = some .auto := by
  rw [writeCommandSeq, runMicros_append, runMicros_append]
  have hw := h.openCommand .cmdWriteAuto _ rfl rfl rfl h.undef
  have hpeer := runMicros_openCommand .cmdWriteAuto _ s h.ready rfl rfl rfl
  refine ⟨hw.strobeHigh [], ?_⟩
  rw [runMicros_strobeHigh [] _ hw.stb hw.win, hpeer]
  exact ⟨rfl, rfl⟩

/-- The address command of a write window (R62). -/
theorem SafeReady.writeAddr {s : State} (h : SafeReady s) (hrw : s.peer.rw = some .write)
    (ham : s.peer.am = some .auto) (a : BitVec 4) :
    SafeStoring a.toNat (runMicros (writeByteSeq (addrByte a)) (runMicros strobeLowSeq s)) := by
  have hw := h.openCommand (.addr a) _ rfl rfl rfl h.undef
  have hpeer := runMicros_openCommand (.addr a) _ s h.ready rfl rfl rfl
  refine ⟨hw, ?_, ?_, ?_, ?_, ?_, ?_, ?_⟩ <;> rw [hpeer]
  exacts [rfl, Nat.one_ne_zero, rfl, hrw, ham, rfl]

/-- A payload byte at a pointer in range is stored there (R64). -/
theorem SafeStoring.writeByte {p : Nat} {s : State} (h : SafeStoring p s) (hp : p ≤ 15) (v : Byte) :
    SafeStoring (p + 1) (runMicros (writeByteSeq v) s) := by
  have hr := h.inWindow.receiving h.tx h.sh
  have hdone := s.peer.byteDone_payload s.par.layout v p h.nbytes h.cmd h.rw h.am h.ptr hp
  have hw := safeInWindow_writeByte v s hr (hdone ▸ h.inWindow.undef)
  refine ⟨hw, ?_, ?_, ?_, ?_, ?_, ?_, ?_⟩ <;> rw [runMicros_writeByteSeq v s hr, hdone]
  exacts [h.tx, Nat.succ_ne_zero _, h.cmd, h.rw, h.am]

/-- So are as many as fit below register 16 (R51, R116). -/
theorem SafeStoring.writeBytes {p : Nat} {s : State} (h : SafeStoring p s) (d : List Byte) (hp : p + d.length ≤ 16) :
    SafeStoring (p + d.length) (runMicros (d.flatMap writeByteSeq) s) := by
  induction d generalizing p s with
  | nil => exact h
  | cons v d ih =>
    rw [List.length_cons] at hp ⊢
    rw [List.flatMap_cons, runMicros_append]
    have h' := ih (h.writeByte (by omega) v) (by omega)
    rwa [Nat.add_assoc, Nat.add_comm 1] at h'

/-- WRITE_OP in its address range (R116). -/
theorem SafeReady.writeOp {s : State} (h : SafeReady s) (a : Byte) (d : List Byte) (hd : a.toNat + d.length ≤ 16) :
    SafeReady (runMicros (writeOpSeq s.par.layout a d) s) := by
  obtain ⟨hready, hrw, ham⟩ := h.writeAuto
  have haddr : (a.extractLsb' 0 4).toNat ≤ a.toNat := by
    rw [BitVec.extractLsb'_toNat]
    exact Nat.mod_le _ _
  rw [writeOpSeq, runMicros_append, runMicros_append, runMicros_append, runMicros_append]
  exact ((hready.writeAddr hrw ham _).writeBytes d (by omega)).inWindow.strobeHigh []

/-! ## A read of the keypad (R117) -/

/-- The read-keys command of a read window: the peer transmits, from key byte 0 (R60). -/
theorem SafeReady.readKeysCommand {s : State} (h : SafeReady s) :
    SafeTransmitting 0 (runMicros (writeByteSeq (cmdReadKeysByte s.par.layout)) (runMicros strobeLowSeq s)) := by
  have hw := h.openCommand .cmdReadKeys _ rfl rfl rfl h.undef
  have hpeer := runMicros_openCommand .cmdReadKeys _ s h.ready rfl rfl rfl
  refine ⟨hw, ?_, ?_, ?_⟩ <;> rw [hpeer] <;> rfl

/-- The bit after a key bit, in its own byte or the first of the next (R66). -/
theorem Peer.releaseKey_position (t : Peer) (n : Nat) (hi : t.kidx = n / 8) (hb : t.kbit = n % 8) :
    t.releaseKey.kidx = (n + 1) / 8 ∧ t.releaseKey.kbit = (n + 1) % 8 := by
  unfold Peer.releaseKey
  split <;> dsimp only <;> omega

/-- One read cycle, whatever the keypad is. -/
theorem SafeKeyClock.next {n : Nat} {s : State} (h : SafeKeyClock n s) (hn : n < 32) :
    SafeKeyClock (n + 1) (runMicros readCycle s) := by
  have hk : s.peer.kidx < 4 := by rw [h.kidx]; omega
  obtain ⟨hidx, hbit⟩ := (s.peer.driveKey s.drawKeys.1).releaseKey_position n h.kidx h.kbit
  rw [runMicros_readCycle s h.clk h.dio h.win h.tx hk _ rfl, Peer.releaseKey_form, hidx, hbit]
  exact ⟨h.clk, h.dio, h.stb, h.win, rfl, h.nbits, h.undef, h.tx, rfl, rfl⟩

theorem SafeKeyClock.advance {n : Nat} {s : State} (h : SafeKeyClock n s) (m : Nat) (hn : n + m ≤ 32) :
    SafeKeyClock (n + m) (runMicros ((List.range m).flatMap fun _ => readCycle) s) := by
  induction m with
  | zero => exact h
  | succ m ih =>
    rw [List.range_succ, List.flatMap_append, List.flatMap_singleton, runMicros_append]
    exact (ih (by omega)).next (by omega)

/-- READ_BYTE, whatever the keypad is: the peer goes on to the next key byte (R66, R101). -/
theorem SafeTransmitting.readByte {k : Nat} {s : State} (h : SafeTransmitting k s) (hk : k < 4) (as bs : List Assign) :
    SafeTransmitting (k + 1) (runMicros (readByteSeq as bs) s) := by
  obtain ⟨hw, htx, hkidx, hkbit⟩ := h
  have hstart : SafeKeyClock (8 * k) (performMicro ⟨.cfgIn .dio, as ++ [.clearAcc]⟩ s) := by
    obtain ⟨-, -, -, hclk, hdio, hstb, -⟩ :=
      Engine.assign_frame { s.eng with dio := ⟨.inp, none⟩ } none (as ++ [.clearAcc])
    rw [performMicro_cfgIn_dio]
    refine ⟨hclk.trans hw.clk, ?_, hstb.trans hw.stb, hw.win, hw.drive, hw.nbits, hw.undef, htx, ?_, ?_⟩
    · rw [State.record_eng, State.setEng_eng, hdio]
      exact PinMode.noConfusion
    · exact hkidx.trans (by omega)
    · exact hkbit.trans (by omega)
  have hend := hstart.advance 8 (by omega)
  rw [readByteSeq, runMicros_cons, runMicros_append]
  generalize runMicros _ _ = u at hend ⊢
  obtain ⟨-, -, -, hclk, hdio, hstb, -⟩ := Engine.assign_frame { u.eng with dio := ⟨.out, u.eng.dio.latch⟩ } none bs
  rw [runMicros_cons, runMicros_nil, performMicro_cfgOut_dio _ _ hend.drive]
  exact
    { inWindow := ⟨hclk.trans hend.clk, congrArg PinState.mode hdio, hstb.trans hend.stb, hend.win, hend.drive,
        hend.nbits, hend.undef⟩
      tx := hend.tx
      kidx := hend.kidx.trans (by omega)
      kbit := hend.kbit.trans (by omega) }

/-- READ_WINDOW, whatever the keypad is (R117). -/
theorem SafeReady.readWindow {s : State} (h : SafeReady s) (after : List Assign) :
    SafeReady (runMicros (readWindowSeq s.par.layout after) s) := by
  simp only [readWindowSeq, runMicros_append]
  have h0 := h.readKeysCommand
  have h1 := h0.readByte (by decide) [.clearKeys] [.foldKey]
  have h2 := h1.readByte (by decide) [] [.foldKey]
  have h3 := h2.readByte (by decide) [] [.foldKey]
  have h4 := h3.readByte (by decide) [] [.foldKey]
  exact h4.inWindow.strobeHigh after

/-! ## The pins at INIT and SHUTDOWN (R121, R122) -/

/-- CLK and STB are each not driven, or driven high. -/
def PinsHighOrOff (e : Engine) : Prop :=
  ∀ p, p ≠ .dio → (e.pin p).mode ≠ .out ∨ (e.pin p).latch = some true

theorem Settled.pinsHighOrOff {s : State} (h : Settled s) : PinsHighOrOff s.eng := by
  obtain ⟨-, -, hidle, hoff⟩ := h
  intro p hp
  cases hcfg : s.eng.cfg with
  | true =>
    obtain ⟨hclk, hstb, -⟩ := hidle hcfg
    cases p with
    | clk => exact .inr (congrArg PinState.latch hclk)
    | dio => exact absurd rfl hp
    | stb => exact .inr (congrArg PinState.latch hstb)
  | false =>
    left
    obtain ⟨hclk, -, hstb⟩ | ⟨hclk, -, hstb⟩ := hoff hcfg
    all_goals
      cases p with
      | clk => rw [Engine.pin_clk, hclk]; decide
      | dio => exact absurd rfl hp
      | stb => rw [Engine.pin_stb, hstb]; decide

/-- INIT presets the levels, configures the pins without an edge, and sends the display-control command (R121). -/
theorem safeReady_init (e : Engine) (s : State) (hp : PinsHighOrOff s.eng) (hq : PeerQuiet s.peer)
    (hu : s.peer.undef = false) : SafeReady (runMicros (initSeq e) s) := by
  have hsilent : EdgelessRun s.eng [.wr .stb true, .wr .clk true, .cfgOut .clk, .cfgOut .dio, .cfgOut .stb] :=
    ⟨.inr (hp .stb (by decide)), .inr (hp .clk (by decide)), trivial, trivial, trivial, trivial⟩
  obtain ⟨hpeer, heng⟩ := runMicros_edgeless _ s hq hsilent
  have hready : SafeReady (runMicros
      (List.map emit [.wr .stb true, .wr .clk true, .cfgOut .clk, .cfgOut .dio, .cfgOut .stb]) s) := by
    refine ⟨⟨?_, ?_⟩, ?_⟩
    · rw [BusIdle, heng]
      exact ⟨rfl, rfl, rfl⟩
    · rw [hpeer]
      exact hq
    · rw [hpeer]
      exact hu
  rw [initSeq, runMicros_append]
  exact hready.sendCtrl e

/-- SHUTDOWN releases the three pins, each then low, and tells the peer nothing (R122). -/
theorem runMicros_shutdownSeq (s : State) (hq : PeerQuiet s.peer) :
    (runMicros shutdownSeq s).peer = s.peer ∧ PinsReleased (runMicros shutdownSeq s).eng := by
  have hin {p : Pin} {l : Level} {e : Engine} (h : (e.pin p).mode = .inp) : (BusAction.wr p l).Edgeless e :=
    .inr (.inl (by rw [h]; decide))
  have hsilent : EdgelessRun s.eng
      [.cfgIn .clk, .wr .clk false, .cfgIn .dio, .wr .dio false, .cfgIn .stb, .wr .stb false] :=
    ⟨trivial, hin rfl, trivial, hin rfl, trivial, hin rfl, trivial⟩
  obtain ⟨hpeer, heng⟩ := runMicros_edgeless _ s hq hsilent
  refine ⟨hpeer, ?_⟩
  rw [PinsReleased, shutdownSeq]
  exact heng ▸ ⟨rfl, rfl, rfl⟩

/-! ## Requests (R119, R120, R132) -/

/-- An accepted request other than INIT and SHUTDOWN, performed on a ready machine, leaves it ready. -/
theorem SafeReady.expansion {s : State} (h : SafeReady s) (q : Request) (e : Engine) (hn : q.needsNoInit = false)
    (hd : q.dropReason = none) : SafeReady (runMicros (q.expansion s.par.layout e) s) := by
  cases q with
  | init on b => cases hn
  | shutdown => cases hn
  | displayOn | displayOff | setBrightness => exact h.sendCtrl e
  | clear => exact h.writeOp _ _ (by decide)
  | writeReg a v =>
    have ha : a ≤ 15 := by simpa [Request.dropReason, regAddrValid] using hd
    refine h.writeOp _ _ ?_
    rw [BitVec.toNat_ofNat, List.length_singleton]
    omega
  | writeBuf a n bytes =>
    have ha : 1 ≤ n ∧ a + n ≤ 16 := by simpa [Request.dropReason, bufRangeValid] using hd
    refine h.writeOp _ _ ?_
    rw [BitVec.toNat_ofNat, bufBytes, List.length_map, List.length_take]
    omega
  | readKeys => exact h.readWindow _

theorem SafeReady.settled {s : State} (h : SafeReady s) (hc : s.eng.cfg = true) : Settled s :=
  ⟨h.undef, h.ready.2, fun _ => h.ready.1, fun h => absurd (hc.symm.trans h) (by decide)⟩

theorem Settled.safeReady {s : State} (h : Settled s) (hc : s.eng.cfg = true) : SafeReady s :=
  have ⟨hu, hq, hidle, _⟩ := h
  ⟨⟨hidle hc, hq⟩, hu⟩

theorem Request.nextCfg_of_needsInit (q : Request) (cfg : Bool) (h : q.needsNoInit = false) : q.nextCfg cfg = cfg := by
  cases q with
  | init on b => cases h
  | shutdown => cases h
  | _ => rfl

theorem drain_acceptRequest (q : Request) (s : State) :
    drain (acceptRequest q s) = runMicros (q.expansion s.par.layout (q.update s.eng)) (acceptRequest q s) := rfl

/-- A request accepted on a settled machine leaves it settled when its actions have been performed (R132). -/
theorem settled_drain_acceptRequest (q : Request) (s : State) (h : Settled s)
    (hn : s.eng.cfg = true ∨ q.needsNoInit = true) (hd : q.dropReason = none) :
    Settled (drain (acceptRequest q s)) := by
  have hcfg : (drain (acceptRequest q s)).eng.cfg = q.nextCfg s.eng.cfg := (runMicros_eng _ _).1
  rw [drain_acceptRequest] at hcfg ⊢
  have ⟨hu, hq, _⟩ := h
  cases hl : q.needsNoInit with
  | false =>
    have hc : s.eng.cfg = true := hn.resolve_right (by rw [hl]; decide)
    rw [q.nextCfg_of_needsInit _ hl, hc] at hcfg
    have hready : SafeReady (acceptRequest q s) := ⟨(h.safeReady hc).ready, hu⟩
    exact (hready.expansion q _ hl hd).settled hcfg
  | true =>
    cases q with
    | init on b =>
      rw [Request.expansion] at hcfg ⊢
      exact (safeReady_init _ (acceptRequest (.init on b) s) h.pinsHighOrOff hq hu).settled hcfg
    | shutdown =>
      rw [Request.expansion] at hcfg ⊢
      obtain ⟨hpeer, hpins⟩ := runMicros_shutdownSeq (acceptRequest .shutdown s) hq
      refine ⟨?_, ?_, fun h => absurd (hcfg.symm.trans h) Bool.false_ne_true, fun _ => .inl hpins⟩
      · rw [hpeer]
        exact hu
      · rw [hpeer]
        exact hq
    | _ => cases hl

/-! ## The step -/

theorem settled_withSeq (q : List Micro) (s : State) : Settled (s.withSeq q) ↔ Settled s := Iff.rfl

theorem drain_withSeq (q : List Micro) (s : State) : drain (s.withSeq q) = (runMicros q s).withSeq q :=
  runMicros_withSeq q q s

/-- The end of a request changes nothing that being settled speaks of. -/
theorem Completed.settled {keys : Option (BitVec 32)} {s t : State} (h : Completed keys s t) (hs : Settled s) :
    Settled t := by
  unfold Completed at h
  rw [h]
  exact hs

/-- An entry in progress takes the machine one entry nearer to where the whole list leads. -/
theorem safeRun_of_entry (m : Micro) (rest : List Micro) (s : State) (hb : s.eng.busy = true)
    (hs : s.eng.seq = m :: rest) (h : Settled (drain s)) : SafeRun (finishMicro m rest (performAct m.act s)) := by
  rw [drain, hs, runMicros_cons] at h
  by_cases hr : rest = []
  · subst hr
    obtain ⟨keys, hc⟩ := completed_finishMicro_last m s
    exact ⟨hc.settled h, by simp [finishMicro_last, completeRequest]⟩
  · obtain ⟨-, -, -, hbusy, -⟩ := performMicro_eng m s
    have hu : finishMicro m rest (performAct m.act s) = (performMicro m s).withSeq rest :=
      finishMicro_performAct m rest s hr
    rw [hu, SafeRun, drain_withSeq, settled_withSeq]
    exact ⟨h, fun _ => hr, fun _ => hbusy.trans hb⟩

/-- No expansion is empty: every accepted request performs an action (R174). -/
theorem Request.expansion_ne_nil (lay : DataLayout) (e : Engine) (q : Request) : q.expansion lay e ≠ [] := by
  cases q <;> exact List.cons_ne_nil _ _

/-- Processing a request on a settled idle machine. -/
theorem safeRun_processRequest (q : Request) (s : State) (hb : s.eng.busy = false) (hs : s.eng.seq = [])
    (h : Settled s) : SafeRun (processRequest q s) := by
  have hidle {t : State} (ht : t.eng.busy = false) (hseq : t.eng.seq = []) (hset : Settled t) : SafeRun t := by
    rw [SafeRun, drain, hseq, ht]
    exact ⟨hset, by decide⟩
  obtain ⟨hb', -⟩ | ⟨-, -, hq⟩ | ⟨-, -, -, -, hq⟩ | ⟨-, -, -, r, -, hq⟩ | ⟨-, -, hn, hd, hq⟩ := processRequest_cases q s
  · exact absurd (hb.symm.trans hb') (by decide)
  · rw [hq]
    exact hidle hb hs h
  · rw [hq]
    exact hidle hb hs h
  · rw [hq]
    exact hidle hb hs h
  · rw [hq]
    exact ⟨settled_drain_acceptRequest q s h hn hd, fun _ => q.expansion_ne_nil _ _, fun _ => rfl⟩

/-- Settles O51: an entry moves the machine along a list that leads to a settled state, and a request loads such a
list. -/
theorem safeRunIsKeptByEveryStep : Obligations.SafeRunIsKeptByEveryStep := by
  intro s t ⟨h, hbusy⟩ hstep
  obtain ⟨m, rest, hb, hs, rfl⟩ | ⟨q, rest, hb, -, rfl⟩ | ⟨hb, -, rfl⟩ := step_cases s t hstep
  · exact safeRun_of_entry m rest s hb hs h
  · have hseq : s.eng.seq = [] := by simpa [hb] using hbusy
    rw [drain, hseq, runMicros_nil] at h
    exact safeRun_processRequest q (s.setPending rest) hb hseq h
  · exact ⟨h, hbusy⟩

end Sys2Proof.Machine
end

section
/-! PROOF. Command framing (R107 to R110, R118): the strobes, the windows that a reader finds in the trace, and a
command byte in a window of its own. -/

namespace Sys2Proof.Machine

/-! ## The strobes -/

/-- Settles O30: each strobe procedure is its one entry, which has no assignments. -/
theorem strobeIsOneAction : Obligations.StrobeIsOneAction := by
  have hwr (l : Level) (s : State) :
      (doWr .stb l s).eng = { s.eng with stb := ⟨s.eng.stb.mode, some l⟩ } ∧
        (doWr .stb l s).trace = s.trace ++ [.wr .stb l] :=
    ⟨actOnPin_eng .stb _ _ s, actOnPin_trace .stb _ _ s⟩
  exact fun s => ⟨⟨doWr .stb false s, rfl, rfl, hwr false s⟩, ⟨doWr .stb true s, rfl, rfl, hwr true s⟩⟩

/-! ## The windows of a trace (R15, R93) -/

/-- Inside a window a reader finds the bytes `bs` in the events, and no part of a further byte. -/
def ReadsBytes (evs : List BusEvent) (bs : List WinByte) : Prop :=
  ∀ c : Scan, c.opened = true → c.bits = [] →
    ∃ last, evs.foldl Scan.event c = { c with last := last, bytes := c.bytes ++ bs }

theorem readsBytes_nil : ReadsBytes [] [] := fun c _ _ => ⟨c.last, by simp⟩

theorem ReadsBytes.append {es fs : List BusEvent} {bs cs : List WinByte} (h : ReadsBytes es bs)
    (h' : ReadsBytes fs cs) : ReadsBytes (es ++ fs) (bs ++ cs) := by
  intro c ho hb
  obtain ⟨last, hes⟩ := h c ho hb
  obtain ⟨last', hfs⟩ := h' { c with last := last, bytes := c.bytes ++ bs } ho hb
  exact ⟨last', by rw [List.foldl_append, hes, hfs, List.append_assoc]⟩

theorem readsBytes_writeByteEvents (v : Byte) : ReadsBytes (writeByteEvents v) [.sent v] :=
  fun c ho hb => ⟨_, scan_writeByteEvents v c ho hb⟩

theorem readsBytes_readByteEvents (v : Byte) : ReadsBytes (readByteEvents v) [.recv v] :=
  fun c ho hb => ⟨_, scan_readByteEvents v c ho hb⟩

theorem readsBytes_flatMap_writeByteEvents (d : List Byte) :
    ReadsBytes (d.flatMap writeByteEvents) (d.map WinByte.sent) := by
  induction d with
  | nil => exact readsBytes_nil
  | cons v d ih => exact (readsBytes_writeByteEvents v).append ih

/-- Between windows, with STB high, a reader finds the windows `ws` in the events and ends between windows again. -/
def ReadsWindows (evs : List BusEvent) (ws : List (List WinByte)) : Prop :=
  ∀ c : Scan, c.opened = false → c.stb = ⟨.out, some true⟩ →
    (evs.foldl Scan.event c).opened = false ∧ (evs.foldl Scan.event c).stb = ⟨.out, some true⟩ ∧
      (evs.foldl Scan.event c).done = c.done ++ ws

theorem ReadsWindows.append {es fs : List BusEvent} {ws xs : List (List WinByte)} (h : ReadsWindows es ws)
    (h' : ReadsWindows fs xs) : ReadsWindows (es ++ fs) (ws ++ xs) := by
  intro c ho hs
  obtain ⟨ho', hs', hd⟩ := h c ho hs
  have ⟨ho'', hs'', hd'⟩ := h' _ ho' hs'
  rw [List.foldl_append]
  exact ⟨ho'', hs'', by rw [hd', hd, List.append_assoc]⟩

/-- The events of a window between its two strobes (R107, R108). -/
def windowEvents (body : List BusEvent) : List BusEvent := [.wr .stb false] ++ body ++ [.wr .stb true]

theorem ReadsBytes.window {body : List BusEvent} {bs : List WinByte} (h : ReadsBytes body bs) :
    ReadsWindows (windowEvents body) [bs] := by
  rintro ⟨stb, opened, last, bits, bytes, done⟩ rfl rfl
  obtain ⟨last', hbody⟩ := h ⟨⟨.out, some false⟩, true, last, [], [], done⟩ rfl rfl
  have hfold : (windowEvents body).foldl Scan.event ⟨⟨.out, some true⟩, false, last, bits, bytes, done⟩ =
      ⟨⟨.out, some true⟩, false, last', [], bs, done ++ [bs]⟩ := by
    rw [windowEvents, List.foldl_append, List.foldl_append]
    exact congrArg (Scan.event · (.wr .stb true)) hbody
  rw [hfold]
  exact ⟨rfl, rfl, rfl⟩

theorem ReadsWindows.windowsOf {evs : List BusEvent} {ws : List (List WinByte)} (h : ReadsWindows evs ws)
    {stb : PinState} (hs : stb = ⟨.out, some true⟩) : windowsOf stb evs = ws :=
  have ⟨_, _, hd⟩ := h ⟨stb, false, (false, false), [], [], []⟩ rfl hs
  hd

/-! ## A command byte in its window -/

/-- The state after STROBE_LOW and the first byte (R57 to R63, R107). -/
theorem runMicros_commandByte (c : Byte) (s : State) (h : Ready s) :
    runMicros (writeByteSeq c) (runMicros strobeLowSeq s) =
      { s with
        eng := { s.eng with dio := ⟨.out, some (c.getLsbD 7)⟩, stb := ⟨.out, some false⟩, tx := c, i := 8 }
        peer := { { s.peer.openWindow with sh := c }.runByte (decodeCommand s.par.layout c) with
          nbytes := 1, nbits := 0, sh := 0 }
        trace := s.trace ++ ([.wr .stb false] ++ writeByteEvents c) } := by
  rw [runMicros_writeByteSeq c _ (receiving_of_strobeLow s h), runMicros_strobeLow s h, ← List.append_assoc]
  rfl

theorem trace_commandByte (c : Byte) (s : State) (h : Ready s) :
    (runMicros (writeByteSeq c) (runMicros strobeLowSeq s)).trace =
      s.trace ++ ([.wr .stb false] ++ writeByteEvents c) := by
  rw [runMicros_commandByte c s h]

theorem keypad_commandByte (c : Byte) (s : State) (h : Ready s) :
    (runMicros (writeByteSeq c) (runMicros strobeLowSeq s)).keypad = s.keypad := by
  rw [runMicros_commandByte c s h]

/-- In a window, between two bytes: what STROBE_HIGH needs (R106). -/
structure InWindow (s : State) : Prop where
  clk   : s.eng.clk = ⟨.out, some true⟩
  dio   : s.eng.dio.mode = .out
  stb   : s.eng.stb = ⟨.out, some false⟩
  win   : s.peer.win = true
  nbits : s.peer.nbits = 0

/-- With no partial byte received, the rise of STB does not set `T.undef` (R67). -/
theorem Peer.closeWindow_of_wholeBytes (t : Peer) (h : t.nbits = 0) :
    t.closeWindow = { t with win := false, tx := false, drive := none } := by
  simp [Peer.closeWindow, h]

/-- STROBE_HIGH between two bytes: the window is closed, and no partial byte sets `T.undef` (R67, R108). -/
theorem InWindow.strobeHigh {s : State} (h : InWindow s) :
    runMicros (strobeHighSeq []) s =
      { s with
        eng := { s.eng with stb := ⟨.out, some true⟩ }
        peer := { s.peer with win := false, tx := false, drive := none }
        trace := s.trace ++ [.wr .stb true] } := by
  rw [runMicros_strobeHigh [] s h.stb h.win, s.peer.closeWindow_of_wholeBytes h.nbits]
  rfl

theorem inWindow_commandByte (c : Byte) (s : State) (h : Ready s) :
    InWindow (runMicros (writeByteSeq c) (runMicros strobeLowSeq s)) := by
  obtain ⟨hwin, -⟩ := Peer.runByte_frame (decodeCommand s.par.layout c) { s.peer.openWindow with sh := c }
  have ⟨⟨hclk, _, _⟩, _⟩ := h
  rw [runMicros_commandByte c s h]
  exact ⟨hclk, rfl, rfl, hwin, rfl⟩

/-- Outside a window the peer neither transmits nor drives DIO, and the fall of STB leaves that so (R57, R132). -/
theorem Peer.openWindow_of_quiet (t : Peer) (h : PeerQuiet t) :
    t.openWindow =
      { t with win := true, nbytes := 0, nbits := 0, sh := 0, cmd := .none, kidx := 0, kbit := 0 } := by
  obtain ⟨-, htx, hdrive⟩ := h
  simp [Peer.openWindow, htx, hdrive]

/-- WRITE_COMMAND as a whole (R109, R110). -/
theorem runMicros_writeCommandSeq (c : Byte) (s : State) (h : Ready s) :
    runMicros (writeCommandSeq c) s =
      { s with
        eng := { s.eng with dio := ⟨.out, some (c.getLsbD 7)⟩, tx := c, i := 8 }
        peer := { { s.peer.openWindow with sh := c }.runByte (decodeCommand s.par.layout c) with
          win := false, nbytes := 1, nbits := 0, sh := 0, tx := false, drive := none }
        trace := s.trace ++ windowEvents (writeByteEvents c) } := by
  rw [writeCommandSeq, runMicros_append, runMicros_append, (inWindow_commandByte c s h).strobeHigh,
    runMicros_commandByte c s h]
  obtain ⟨⟨-, hstb, -⟩, -⟩ := h
  simp only [windowEvents, ← hstb, List.append_assoc]

/-! ## What a framed procedure leaves -/

/-- From `s` to `t` the engine has recorded `evs` and the machine is ready again, with the peer's registers as in `p`
and the keypad input `keys` left. -/
structure SentTo (evs : List BusEvent) (p : Peer) (keys : List KeyBytes) (s t : State) : Prop where
  ready     : Ready t
  trace     : t.trace = s.trace ++ evs
  registers : t.peer.SameRegisters p
  keypad    : t.keypad = keys

/-- STROBE_HIGH after the bytes of a window. -/
theorem InWindow.sentTo {body : List BusEvent} {p : Peer} {keys : List KeyBytes} {s t : State} (h : InWindow t)
    (htrace : t.trace = s.trace ++ ([.wr .stb false] ++ body)) (hreg : t.peer.SameRegisters p)
    (hkeys : t.keypad = keys) : SentTo (windowEvents body) p keys s (runMicros (strobeHighSeq []) t) := by
  rw [h.strobeHigh]
  exact
    { ready := ⟨⟨h.clk, rfl, h.dio⟩, rfl, rfl, rfl⟩
      trace := by rw [htrace, List.append_assoc]; rfl
      registers := ⟨hreg.disp, hreg.rw, hreg.am, hreg.ptr, hreg.on, hreg.bri, hreg.undef⟩
      keypad := hkeys }

/-- The first byte of a window has the effect on the registers that it has from `s`. -/
theorem sameRegisters_commandByte (c : Byte) (s : State) (h : Ready s) :
    (runMicros (writeByteSeq c) (runMicros strobeLowSeq s)).peer.SameRegisters
      (s.peer.runByte (decodeCommand s.par.layout c)) := by
  have hopen : Peer.SameRegisters { s.peer.openWindow with sh := c } s.peer := ⟨rfl, rfl, rfl, rfl, rfl, rfl, rfl⟩
  obtain ⟨hdisp, hrw, ham, hptr, hon, hbri, hundef⟩ := hopen.runByte _ (decodeByte_pos s.par.layout .command c)
  rw [runMicros_commandByte c s h]
  exact ⟨hdisp, hrw, ham, hptr, hon, hbri, hundef⟩

theorem sentTo_writeCommand (c : Byte) (s : State) (h : Ready s) :
    SentTo (windowEvents (writeByteEvents c)) (s.peer.runByte (decodeCommand s.par.layout c)) s.keypad s
      (runMicros (writeCommandSeq c) s) := by
  rw [writeCommandSeq, runMicros_append, runMicros_append]
  exact (inWindow_commandByte c s h).sentTo (trace_commandByte c s h) (sameRegisters_commandByte c s h)
    (keypad_commandByte c s h)

/-! ## The commands that the engine sends (R111 to R114) -/

theorem decodeCommand_ctrlByte (lay : DataLayout) (e : Bool) (b : BitVec 3) :
    decodeCommand lay (ctrlByte e b) = .ctrl e b :=
  decodeByte_of_encode (pos := .command) rfl rfl rfl

theorem decodeCommand_addrByte (lay : DataLayout) (a : BitVec 4) : decodeCommand lay (addrByte a) = .addr a :=
  decodeByte_of_encode (pos := .command) rfl rfl rfl

theorem decodeCommand_cmdWriteAutoByte (lay : DataLayout) : decodeCommand lay (cmdWriteAutoByte lay) = .cmdWriteAuto :=
  decodeByte_of_encode (pos := .command) rfl rfl rfl

theorem decodeCommand_cmdReadKeysByte (lay : DataLayout) : decodeCommand lay (cmdReadKeysByte lay) = .cmdReadKeys :=
  decodeByte_of_encode (pos := .command) rfl rfl rfl

/-! ## WRITE_COMMAND and SEND_CTRL -/

theorem map_event_writeCommandActions (c : Byte) :
    (Spec.writeCommandActions c).map (BusAction.event false) = windowEvents (writeByteEvents c) := rfl

theorem length_writeCommandEvents (c : Byte) : (windowEvents (writeByteEvents c)).length = 42 := rfl

theorem windowsOf_writeCommand (c : Byte) (s : State) (h : Ready s) :
    windowsOf s.eng.stb (windowEvents (writeByteEvents c)) = [[.sent c]] :=
  have ⟨⟨_, hstb, _⟩, _⟩ := h
  (readsBytes_writeByteEvents c).window.windowsOf hstb

/-- Settles O31: the window of WRITE_COMMAND, in which the peer runs the byte as the pseudocode says. -/
theorem writeCommandIsOneWindow : Obligations.WriteCommandIsOneWindow := by
  intro c s h
  refine ⟨_, windowEvents (writeByteEvents c), congrArg Host.Outcome.next (runMicros_writeCommandSeq c s h), rfl, ?_,
    length_writeCommandEvents c, windowsOf_writeCommand c s h, ?_, rfl⟩
  · rw [map_event_writeCommandActions]
  · obtain ⟨-, hquiet⟩ := h
    rw [Peer.runByte_decodeCommand, s.peer.openWindow_of_quiet hquiet]
    rfl

/-- Settles O34: the window of WRITE_COMMAND with the byte of `E.en` and `E.bri`, which the peer decodes. -/
theorem sendCtrlSendsTheEngineState : Obligations.SendCtrlSendsTheEngineState := by
  intro s h
  obtain ⟨hready, htrace, hreg, hkeypad⟩ := sentTo_writeCommand (ctrlByte s.eng.en s.eng.bri) s h
  rw [decodeCommand_ctrlByte] at hreg
  rw [← ctrlByte_eq]
  exact ⟨runMicros (writeCommandSeq (ctrlByte s.eng.en s.eng.bri)) s, _, rfl, htrace,
    (map_event_writeCommandActions _).symm, length_writeCommandEvents _, windowsOf_writeCommand _ s h, hreg.on,
    hreg.bri, hreg.undef, hreg.disp, hreg.rw, hreg.am, hreg.ptr, hkeypad, hready⟩

end Sys2Proof.Machine
end

section
/-! PROOF. WRITE_OP (R116): the write-mode window, then the write window, whose payload bytes go to consecutive
registers. -/

namespace Sys2Proof.Machine

/-! ## Bytes at consecutive addresses -/

/-- The bytes `d`, written one after the other from `a` on. -/
def Memory.writeAll : Memory → Nat → List Byte → Memory
  | m, _, [] => m
  | m, a, v :: d => Memory.writeAll (m.write a v) (a + 1) d

theorem Memory.read_writeAll_outside (m : Memory) (a : Nat) (d : List Byte) (x : Nat)
    (h : x < a ∨ a + d.length ≤ x) : (m.writeAll a d).read x = m.read x := by
  induction d generalizing m a with
  | nil => rfl
  | cons v d ih =>
    rw [List.length_cons] at h
    rw [Memory.writeAll, ih (m.write a v) (a + 1) (by omega), Memory.read_write_other m a x v (by omega)]

theorem Memory.read_writeAll_inside (m : Memory) (a : Nat) (d : List Byte) (j : Nat) (h : j < d.length) :
    (m.writeAll a d).read (a + j) = d[j] := by
  induction d generalizing m a j with
  | nil => cases h
  | cons v d ih =>
    rw [Memory.writeAll]
    cases j with
    | zero => exact ((m.write a v).read_writeAll_outside (a + 1) d a (by omega)).trans (m.read_write_same a v)
    | succ j =>
      have hrest := ih (m.write a v) (a + 1) j (Nat.lt_of_succ_lt_succ h)
      rwa [Nat.add_assoc, Nat.add_comm 1 j] at hrest

/-! ## Payload bytes (R64) -/

/-- In a write window after its address command, whatever `T.undef` is: the next payload byte is stored at `p`. -/
structure Storing (p : Nat) (s : State) : Prop where
  receiving : Receiving s
  nbytes    : s.peer.nbytes ≠ 0
  cmd       : s.peer.cmd = .addr
  rw        : s.peer.rw = some .write
  am        : s.peer.am = some .auto
  ptr       : s.peer.ptr = some p

theorem Storing.inWindow {p : Nat} {s : State} (h : Storing p s) : InWindow s :=
  have ⟨hclk, hdio, hstb, hwin, _, _, hnbits, _⟩ := h.receiving
  ⟨hclk, hdio, hstb, hwin, hnbits⟩

/-- The peer with the payload bytes `d` stored from `p` on (R64). -/
def Peer.storeAll (p : Nat) (d : List Byte) (t : Peer) : Peer :=
  { t with disp := t.disp.writeAll p d, ptr := some (p + d.length), nbytes := t.nbytes + d.length }

theorem Peer.storeAll_cons (p : Nat) (v : Byte) (d : List Byte) (t : Peer) :
    (t.storeAll p [v]).storeAll (p + 1) d = t.storeAll p (v :: d) := by
  simp only [Peer.storeAll, Memory.writeAll, List.length_cons, List.length_nil, Nat.add_assoc, Nat.zero_add,
    Nat.add_comm 1]

theorem Peer.SameRegisters.trans {t u v : Peer} (h : t.SameRegisters u) (h' : u.SameRegisters v) :
    t.SameRegisters v :=
  ⟨h.disp.trans h'.disp, h.rw.trans h'.rw, h.am.trans h'.am, h.ptr.trans h'.ptr, h.on.trans h'.on,
    h.bri.trans h'.bri, h.undef.trans h'.undef⟩

theorem Peer.SameRegisters.storeAll {t u : Peer} (h : t.SameRegisters u) (p : Nat) (d : List Byte) :
    (t.storeAll p d).SameRegisters (u.storeAll p d) :=
  { h with disp := congrArg (Memory.writeAll · p d) h.disp, ptr := rfl }

/-- WRITE_BYTE with the pointer in range, as a whole. -/
theorem Storing.runMicros_writeByteSeq {p : Nat} {s : State} (h : Storing p s) (hp : p ≤ 15) (v : Byte) :
    runMicros (writeByteSeq v) s =
      { s with
        eng := { s.eng with dio := ⟨.out, some (v.getLsbD 7)⟩, tx := v, i := 8 }
        peer := s.peer.storeAll p [v]
        trace := s.trace ++ writeByteEvents v } := by
  have hdone := s.peer.byteDone_payload s.par.layout v p h.nbytes h.cmd h.rw h.am h.ptr hp
  have ⟨_, _, _, _, _, _, hnbits, hsh⟩ := h.receiving
  rw [Machine.runMicros_writeByteSeq v s h.receiving, hdone, ← hnbits, ← hsh]
  rfl

theorem Storing.writeByte {p : Nat} {s : State} (h : Storing p s) (hp : p ≤ 15) (v : Byte) :
    Storing (p + 1) (runMicros (writeByteSeq v) s) := by
  have ⟨hclk, _, hstb, hwin, htx, hdrive, hnbits, hsh⟩ := h.receiving
  rw [h.runMicros_writeByteSeq hp]
  exact ⟨⟨hclk, rfl, hstb, hwin, htx, hdrive, hnbits, hsh⟩, Nat.succ_ne_zero _, h.cmd, h.rw, h.am, rfl⟩

/-- As many payload bytes as fit below register 16 (R51). -/
theorem Storing.writeBytes {p : Nat} {s : State} (h : Storing p s) (d : List Byte) (hp : p + d.length ≤ 16) :
    Storing (p + d.length) (runMicros (d.flatMap writeByteSeq) s) ∧
      (runMicros (d.flatMap writeByteSeq) s).peer = s.peer.storeAll p d ∧
      (runMicros (d.flatMap writeByteSeq) s).trace = s.trace ++ d.flatMap writeByteEvents ∧
      (runMicros (d.flatMap writeByteSeq) s).keypad = s.keypad := by
  induction d generalizing p s with
  | nil =>
    refine ⟨h, ?_, (List.append_nil _).symm, rfl⟩
    rw [Peer.storeAll, List.length_nil, Nat.add_zero, ← h.ptr]
    rfl
  | cons v d ih =>
    rw [List.length_cons] at hp ⊢
    rw [List.flatMap_cons, runMicros_append]
    obtain ⟨hs, hpeer, htrace, hkeypad⟩ := ih (h.writeByte (by omega) v) (by omega)
    rw [h.runMicros_writeByteSeq (by omega)] at hs hpeer htrace hkeypad ⊢
    refine ⟨by rwa [Nat.add_assoc, Nat.add_comm 1] at hs, ?_, ?_, hkeypad⟩
    · rw [hpeer]
      exact s.peer.storeAll_cons p v d
    · rw [htrace, List.flatMap_cons, List.append_assoc]

/-! ## The two windows -/

/-- The write-mode window (R60, R113). -/
theorem sentTo_writeAuto (s : State) (h : Ready s) :
    SentTo (windowEvents (writeByteEvents (cmdWriteAutoByte s.par.layout))) (s.peer.setWrite .auto) s.keypad s
      (runMicros (writeCommandSeq (cmdWriteAutoByte s.par.layout)) s) := by
  have hsent := sentTo_writeCommand (cmdWriteAutoByte s.par.layout) s h
  rwa [decodeCommand_cmdWriteAutoByte] at hsent

/-- The address command of a write window (R62, R112). -/
theorem storing_addrByte (a : BitVec 4) (s : State) (h : Ready s) (hrw : s.peer.rw = some .write)
    (ham : s.peer.am = some .auto) :
    Storing a.toNat (runMicros (writeByteSeq (addrByte a)) (runMicros strobeLowSeq s)) := by
  have ⟨⟨hclk, _, _⟩, _⟩ := h
  rw [runMicros_commandByte _ s h, decodeCommand_addrByte]
  exact ⟨⟨hclk, rfl, rfl, rfl, rfl, rfl, rfl, rfl⟩, Nat.one_ne_zero, rfl, hrw, ham, rfl⟩

/-- The write window (R64, R84). -/
theorem sentTo_writeWindow (a : BitVec 4) (d : List Byte) (s : State) (h : Ready s) (hrw : s.peer.rw = some .write)
    (ham : s.peer.am = some .auto) (hd : a.toNat + d.length ≤ 16) :
    SentTo (windowEvents (writeByteEvents (addrByte a) ++ d.flatMap writeByteEvents))
      ((s.peer.setAddr a).storeAll a.toNat d) s.keypad s
      (runMicros (strobeLowSeq ++ writeByteSeq (addrByte a) ++ d.flatMap writeByteSeq ++ strobeHighSeq []) s) := by
  obtain ⟨hs, hpeer, htrace, hkeypad⟩ := (storing_addrByte a s h hrw ham).writeBytes d hd
  have hreg := sameRegisters_commandByte (addrByte a) s h
  rw [decodeCommand_addrByte] at hreg
  rw [runMicros_append, runMicros_append, runMicros_append]
  refine hs.inWindow.sentTo ?_ ?_ ?_
  · rw [htrace, trace_commandByte _ s h, List.append_assoc, List.append_assoc]
  · rw [hpeer]
    exact hreg.storeAll a.toNat d
  · exact hkeypad.trans (keypad_commandByte _ s h)

/-! ## WRITE_OP -/

/-- The events of WRITE_OP are those of its two windows. -/
theorem map_event_writeOpActions (w : Byte) (a : BitVec 4) (d : List Byte) :
    (Spec.writeOpActions w a d).map (BusAction.event false) =
      windowEvents (writeByteEvents w) ++ windowEvents (writeByteEvents (addrByte a) ++ d.flatMap writeByteEvents) := by
  have hbyte (v : Byte) : (Spec.writeByteActions v).map (BusAction.event false) = writeByteEvents v := rfl
  simp only [Spec.writeOpActions, List.map_append, map_event_writeCommandActions, List.map_flatMap, hbyte, addrByte,
    windowEvents, List.append_assoc]
  rfl

theorem readsWindows_writeOp (w : Byte) (a : BitVec 4) (d : List Byte) :
    ReadsWindows ((Spec.writeOpActions w a d).map (BusAction.event false))
      [[.sent w], .sent (addrByte a) :: d.map WinByte.sent] := by
  rw [map_event_writeOpActions]
  exact (readsBytes_writeByteEvents w).window.append
    ((readsBytes_writeByteEvents (addrByte a)).append (readsBytes_flatMap_writeByteEvents d)).window

/-- WRITE_OP as a whole, in its address range. -/
theorem sentTo_writeOp (a : Byte) (d : List Byte) (s : State) (h : Ready s)
    (hd : (a.setWidth 4).toNat + d.length ≤ 16) :
    SentTo ((Spec.writeOpActions (Spec.writeAuto s.par.layout) (a.setWidth 4) d).map (BusAction.event false))
      (((s.peer.setWrite .auto).setAddr (a.setWidth 4)).storeAll (a.setWidth 4).toNat d) s.keypad s
      (runMicros (writeOpSeq s.par.layout a d) s) := by
  have hlow : a.extractLsb' 0 4 = a.setWidth 4 := (BitVec.setWidth_eq_extractLsb' (by decide)).symm
  rw [map_event_writeOpActions, writeOpSeq, hlow, runMicros_append, ← cmdWriteAutoByte_eq]
  have hmode := sentTo_writeAuto s h
  have hwrite := sentTo_writeWindow (a.setWidth 4) d _ hmode.ready hmode.registers.rw hmode.registers.am hd
  have hreg := (hmode.registers.runByte (.addr (a.setWidth 4)) rfl).storeAll (a.setWidth 4).toNat d
  exact
    { ready := hwrite.ready
      trace := by rw [hwrite.trace, hmode.trace, List.append_assoc]
      registers := hwrite.registers.trans hreg
      keypad := hwrite.keypad.trans hmode.keypad }

/-- Settles O32: the peer's registers after the two windows, with the bytes at consecutive addresses. -/
theorem writeOpStoresItsBytes : Obligations.WriteOpStoresItsBytes := by
  intro a d s h hd ha
  have ⟨⟨_, hstb, _⟩, _⟩ := h
  have hlow : (a.setWidth 4).setWidth 8 = a := by bv_omega
  have haddr : (a.setWidth 4).toNat = a.toNat := by bv_omega
  have hbyte : addrByte (a.setWidth 4) = 0xC0#8 ||| a := by rw [addrByte, hlow]
  have hwin := readsWindows_writeOp (Spec.writeAuto s.par.layout) (a.setWidth 4) d
  obtain ⟨hready, htrace, hreg, hkeypad⟩ := sentTo_writeOp a d s h (haddr ▸ ha)
  rw [hbyte] at hwin
  rw [haddr] at hreg
  refine ⟨runMicros (writeOpSeq s.par.layout a d) s, _, rfl, htrace, rfl, ?_, hwin.windowsOf hstb, fun j hj => ?_,
    fun x hx => ?_, hreg.ptr, hreg.rw, hreg.am, hreg.undef, hreg.on, hreg.bri, hkeypad, hready⟩
  · rw [List.length_map]
    exact (writeOpActions_counts _ _ d).1
  · rw [hreg.disp]
    exact Memory.read_writeAll_inside _ a.toNat d j hj
  · rw [hreg.disp]
    exact Memory.read_writeAll_outside _ a.toNat d x hx

end Sys2Proof.Machine
end

section
/-! PROOF. READ_WINDOW (R117): the four key bytes of one window, and the key mask that the engine folds from them. -/

namespace Sys2Proof.Machine

/-! ## The mask (R45) -/

/-- The key mask when the first `m` of its bits have been read, each from the keypad `ks[n]` of its own clock (R54,
R66). -/
def MaskOf (ks : List KeyBytes) (m : Nat) (mask : BitVec 32) : Prop :=
  ∀ n (h : n < ks.length), mask.getLsbD n = (decide (n < m) && (ks[n].get (n / 8)).getLsbD (n % 8))

theorem maskOf_zero (ks : List KeyBytes) : MaskOf ks 0 0#32 := fun n _ => by simp

theorem getLsbD_byteAt (v : Byte) (k n : Nat) (hn : n < 32) :
    (byteAt v k).getLsbD n = (decide (8 * k ≤ n) && v.getLsbD (n - 8 * k)) := by
  rw [byteAt, BitVec.getLsbD_shiftLeft, BitVec.getLsbD_setWidth]
  by_cases hk : 8 * k ≤ n
  · simp [hn, hk, Nat.not_lt.2 hk, show n - 8 * k < 32 by omega]
  · simp [hk, Nat.lt_of_not_le hk]

/-- Key byte `k`, read bit by bit, extends the mask by eight bits (R117). -/
theorem MaskOf.or_byteAt {ks : List KeyBytes} {k : Nat} {mask : BitVec 32} {v : Byte} (h : MaskOf ks (8 * k) mask)
    (hl : ks.length = 32)
    (hv : ∀ j (hj : 8 * k + j < ks.length), j < 8 → v.getLsbD j = (ks[8 * k + j].get k).getLsbD j) :
    MaskOf ks (8 * (k + 1)) (mask ||| byteAt v k) := by
  intro n hn
  rw [BitVec.getLsbD_or, h n hn, getLsbD_byteAt v k n (by omega)]
  by_cases hlow : n < 8 * k
  · simp [hlow, show ¬ 8 * k ≤ n by omega, show n < 8 * (k + 1) by omega]
  obtain ⟨j, rfl⟩ := Nat.exists_eq_add_of_le (Nat.le_of_not_lt hlow)
  by_cases hj : j < 8
  · have hdiv : (8 * k + j) / 8 = k := by omega
    have hmod : (8 * k + j) % 8 = j := by omega
    simp [hdiv, hmod, hv j hn hj, show 8 * k + j < 8 * (k + 1) by omega]
  · simp [BitVec.getLsbD_of_ge v j (by omega), show ¬ 8 * k + j < 8 * (k + 1) by omega]

/-! ## The four key bytes -/

/-- In a read window before key byte `k`, with the keypads `ks` presented for its 32 clocks. -/
structure ReadingKeys (ks rest : List KeyBytes) (k : Nat) (s : State) : Prop where
  transmitting : Transmitting k s
  nbits        : s.peer.nbits = 0
  keypad       : s.keypad = ks.drop (8 * k) ++ rest
  index        : s.eng.k = k
  mask         : MaskOf ks (8 * k) s.eng.kacc

theorem ReadingKeys.inWindow {ks rest : List KeyBytes} {k : Nat} {s : State} (h : ReadingKeys ks rest k s) :
    InWindow s :=
  have ⟨hclk, hdio, hstb, hwin, _, _, _, _⟩ := h.transmitting
  ⟨hclk, hdio, hstb, hwin, h.nbits⟩

/-- READ_BYTE for key byte `k`, folded into the mask (R117). -/
theorem ReadingKeys.readByte {ks rest : List KeyBytes} {k : Nat} {s : State} (h : ReadingKeys ks rest k s)
    (hk : k < 4) (hl : ks.length = 32) :
    ∃ v : Byte,
      ReadingKeys ks rest (k + 1) (runMicros (readByteSeq [] [.foldKey]) s) ∧
        (runMicros (readByteSeq [] [.foldKey]) s).eng.kacc = s.eng.kacc ||| byteAt v k ∧
        (runMicros (readByteSeq [] [.foldKey]) s).trace = s.trace ++ readByteEvents v ∧
        (runMicros (readByteSeq [] [.foldKey]) s).peer.SameRegisters s.peer := by
  obtain ⟨htrans, hnbits, hkeypad, hindex, hmask⟩ := h
  have hsplit : s.keypad = (ks.drop (8 * k)).take 8 ++ (ks.drop (8 * (k + 1)) ++ rest) := by
    rw [hkeypad, ← List.append_assoc, Nat.mul_succ, ← List.drop_drop, List.take_append_drop]
  have hlen : ((ks.drop (8 * k)).take 8).length = 8 := by
    rw [List.length_take, List.length_drop]
    omega
  obtain ⟨v, key, hbits, hrun⟩ := runMicros_readByteSeq [] [.foldKey] k _ _ s htrans hk hlen hsplit
  have hv (j : Nat) (hj : 8 * k + j < ks.length) (hj8 : j < 8) : v.getLsbD j = (ks[8 * k + j].get k).getLsbD j := by
    have hj' := hbits j (by omega)
    rwa [List.getElem_take, List.getElem_drop] at hj'
  have ⟨hclk, _, hstb, hwin, htx, _, _, _⟩ := htrans
  subst hindex
  rw [hrun]
  exact ⟨v, ⟨⟨hclk, rfl, hstb, hwin, htx, rfl, rfl, rfl⟩, hnbits, rfl, rfl, hmask.or_byteAt hl hv⟩, rfl, rfl,
    ⟨rfl, rfl, rfl, rfl, rfl, rfl, rfl⟩⟩

/-- Four times READ_BYTE, each with its byte folded into the mask (R117). -/
def foldKeyBytesSeq : List Micro :=
  readByteSeq [] [.foldKey] ++ (readByteSeq [] [.foldKey] ++ (readByteSeq [] [.foldKey] ++ readByteSeq [] [.foldKey]))

theorem ReadingKeys.foldKeyBytes {ks rest : List KeyBytes} {s : State} (h : ReadingKeys ks rest 0 s)
    (hl : ks.length = 32) (hz : s.eng.kacc = 0) :
    ∃ b0 b1 b2 b3 : Byte,
      ReadingKeys ks rest 4 (runMicros foldKeyBytesSeq s) ∧
        (runMicros foldKeyBytesSeq s).eng.kacc = keyMask b0 b1 b2 b3 ∧
        (runMicros foldKeyBytesSeq s).trace =
          s.trace ++ (readByteEvents b0 ++ (readByteEvents b1 ++ (readByteEvents b2 ++ readByteEvents b3))) ∧
        (runMicros foldKeyBytesSeq s).peer.SameRegisters s.peer := by
  obtain ⟨b0, h1, hk0, ht0, hr0⟩ := h.readByte (by decide) hl
  obtain ⟨b1, h2, hk1, ht1, hr1⟩ := h1.readByte (by decide) hl
  obtain ⟨b2, h3, hk2, ht2, hr2⟩ := h2.readByte (by decide) hl
  obtain ⟨b3, h4, hk3, ht3, hr3⟩ := h3.readByte (by decide) hl
  simp only [foldKeyBytesSeq, runMicros_append]
  refine ⟨b0, b1, b2, b3, h4, ?_, ?_, hr3.trans (hr2.trans (hr1.trans hr0))⟩
  · rw [hk3, hk2, hk1, hk0, hz]
    simp [byteAt, keyMask]
  · rw [ht3, ht2, ht1, ht0]
    simp only [List.append_assoc]

/-! ## The window -/

/-- The assignments `kacc <- 0` and `k <- 0` before the first key byte (R117). -/
def State.clearKeys (s : State) : State := s.setEng { s.eng with kacc := 0, k := 0 }

@[simp] theorem State.clearKeys_peer (s : State) : s.clearKeys.peer = s.peer := rfl
@[simp] theorem State.clearKeys_trace (s : State) : s.clearKeys.trace = s.trace := rfl

theorem runMicros_readByteSeq_clearKeys (after : List Assign) (s : State) :
    runMicros (readByteSeq [.clearKeys] after) s = runMicros (readByteSeq [] after) s.clearKeys := by
  rw [readByteSeq, readByteSeq, runMicros_cons, runMicros_cons, performMicro_cfgIn_dio, performMicro_cfgIn_dio]
  rfl

theorem runMicros_readWindowSeq (lay : DataLayout) (after : List Assign) (s : State) :
    runMicros (readWindowSeq lay after) s =
      runMicros (strobeHighSeq after) (runMicros foldKeyBytesSeq
        (runMicros (writeByteSeq (cmdReadKeysByte lay)) (runMicros strobeLowSeq s)).clearKeys) := by
  simp only [readWindowSeq, foldKeyBytesSeq, runMicros_append, runMicros_readByteSeq_clearKeys]

/-- After the read-keys command the peer transmits, from key byte 0 (R60). -/
theorem readingKeys_cmdReadKeysByte (ks rest : List KeyBytes) (s : State) (h : Ready s) (hkp : s.keypad = ks ++ rest) :
    ReadingKeys ks rest 0
      (runMicros (writeByteSeq (cmdReadKeysByte s.par.layout)) (runMicros strobeLowSeq s)).clearKeys := by
  have ⟨⟨hclk, _, _⟩, _⟩ := h
  rw [runMicros_commandByte _ s h, decodeCommand_cmdReadKeysByte]
  exact ⟨⟨hclk, rfl, rfl, rfl, rfl, rfl, rfl, rfl⟩, rfl, hkp, rfl, maskOf_zero ks⟩

/-- The events of READ_WINDOW in which the key bytes are `b0` to `b3`. -/
def readWindowEvents (c b0 b1 b2 b3 : Byte) : List BusEvent :=
  windowEvents (writeByteEvents c ++
    (readByteEvents b0 ++ (readByteEvents b1 ++ (readByteEvents b2 ++ readByteEvents b3))))

theorem map_action_readWindowEvents (c b0 b1 b2 b3 : Byte) :
    (readWindowEvents c b0 b1 b2 b3).map BusEvent.action = Spec.readWindowActions c := by
  have hwrite (v : Byte) : (writeByteEvents v).map BusEvent.action = Spec.writeByteActions v := rfl
  have hread (v : Byte) : (readByteEvents v).map BusEvent.action = Spec.readByteActions := rfl
  simp only [readWindowEvents, windowEvents, List.map_append, hwrite, hread, Spec.readWindowActions, List.append_assoc]
  rfl

theorem readsWindows_readWindowEvents (c b0 b1 b2 b3 : Byte) :
    ReadsWindows (readWindowEvents c b0 b1 b2 b3) [[.sent c, .recv b0, .recv b1, .recv b2, .recv b3]] :=
  ((readsBytes_writeByteEvents c).append ((readsBytes_readByteEvents b0).append ((readsBytes_readByteEvents b1).append
    ((readsBytes_readByteEvents b2).append (readsBytes_readByteEvents b3))))).window

/-- READ_WINDOW as a whole, with 32 keypads presented. -/
theorem readWindow_of_keys (ks rest : List KeyBytes) (s : State) (h : Ready s) (hl : ks.length = 32)
    (hkp : s.keypad = ks ++ rest) :
    ∃ b0 b1 b2 b3 : Byte,
      SentTo (readWindowEvents (cmdReadKeysByte s.par.layout) b0 b1 b2 b3) s.peer.setReadKeys rest s
          (runMicros (readWindowSeq s.par.layout []) s) ∧
        (runMicros (readWindowSeq s.par.layout []) s).eng.kacc = keyMask b0 b1 b2 b3 ∧
        MaskOf ks 32 (runMicros (readWindowSeq s.par.layout []) s).eng.kacc := by
  have hreg := sameRegisters_commandByte (cmdReadKeysByte s.par.layout) s h
  have htrace := trace_commandByte (cmdReadKeysByte s.par.layout) s h
  have h0 := readingKeys_cmdReadKeysByte ks rest s h hkp
  rw [decodeCommand_cmdReadKeysByte] at hreg
  rw [runMicros_readWindowSeq]
  generalize runMicros (writeByteSeq (cmdReadKeysByte s.par.layout)) _ = u at hreg htrace h0 ⊢
  obtain ⟨b0, b1, b2, b3, h4, hkacc, htrace4, hreg4⟩ := h0.foldKeyBytes hl rfl
  rw [State.clearKeys_peer] at hreg4
  rw [State.clearKeys_trace, htrace] at htrace4
  generalize runMicros foldKeyBytesSeq u.clearKeys = v at h4 hkacc htrace4 hreg4 ⊢
  refine ⟨b0, b1, b2, b3, h4.inWindow.sentTo ?_ (hreg4.trans hreg) (h4.keypad.trans ?_), ?_, ?_⟩
  · rw [htrace4, List.append_assoc, List.append_assoc]
  · rw [List.drop_of_length_le (by omega), List.nil_append]
  · rw [h4.inWindow.strobeHigh]
    exact hkacc
  · rw [h4.inWindow.strobeHigh]
    exact h4.mask

/-- Settles O33: the window of READ_WINDOW, the mask folded from its bytes, and each bit from its own clock. -/
theorem readWindowAssemblesTheMask : Obligations.ReadWindowAssemblesTheMask := by
  intro ks rest s h hl hkp
  have ⟨⟨_, hstb, _⟩, _⟩ := h
  obtain ⟨b0, b1, b2, b3, ⟨hready, htrace, hreg, hkeypad⟩, hkacc, hmask⟩ := readWindow_of_keys ks rest s h hl hkp
  rw [cmdReadKeysByte_eq] at htrace
  refine ⟨runMicros (readWindowSeq s.par.layout []) s, _, b0, b1, b2, b3, rfl, htrace,
    map_action_readWindowEvents _ b0 b1 b2 b3, ?_, (readsWindows_readWindowEvents _ b0 b1 b2 b3).windowsOf hstb,
    hkacc, fun n hn => ?_, hreg.rw, hreg.am, hreg.undef, hreg.disp, hreg.ptr, hreg.on, hreg.bri, hkeypad, hready,
    runMicros_rspKeys _ s (noReturn_readWindowSeq s.par.layout)⟩
  · rw [← List.length_map (f := BusEvent.action), map_action_readWindowEvents]
    exact (readWindowActions_counts _).1
  · rw [hmask n hn, decide_eq_true (by omega), Bool.true_and]

end Sys2Proof.Machine
end

section
/-! PROOF. Acceptance (R119 to R129): the machine's checks on a request are the spec's, and a request that passes them
loads the spec's actions. -/

namespace Sys2Proof.Machine

/-! ## The machine's checks are the spec's (R88, R135, R138) -/

theorem Request.wellFormed_iff_fits (q : Request) : q.wellFormed = true ↔ Spec.fits q := by
  cases q with
  | init on b => simp [Request.wellFormed, Spec.fits, Nat.lt_succ_iff]
  | setBrightness b => simp [Request.wellFormed, Spec.fits, Nat.lt_succ_iff]
  | writeReg a v => simp [Request.wellFormed, Spec.fits, Nat.lt_succ_iff]
  | writeBuf a n bytes => simp [Request.wellFormed, Spec.fits, Nat.lt_succ_iff, and_assoc]
  | _ => exact iff_of_true rfl trivial

theorem Request.needsNoInit_iff_anyCfg (q : Request) : q.needsNoInit = true ↔ Spec.anyCfg q := by
  cases q <;> simp [Request.needsNoInit, Spec.anyCfg]

theorem Request.dropReason_of_not_dropped (q : Request) (h : ∀ st, ¬Spec.dropped q st) : q.dropReason = none := by
  cases q with
  | setBrightness b =>
    have hb : b ≤ 7 := Nat.le_of_not_lt fun hb => h .invalidBrightness ⟨hb, rfl⟩
    simp [Request.dropReason, brightnessValid, hb]
  | writeReg a v =>
    have ha : a ≤ 15 := Nat.le_of_not_lt fun ha => h .invalidAddress ⟨ha, rfl⟩
    simp [Request.dropReason, regAddrValid, ha]
  | writeBuf a n bytes =>
    have hn : ¬(n = 0 ∨ 16 < a + n) := fun hn => h .invalidAddress ⟨hn, rfl⟩
    have hr : 1 ≤ n ∧ a + n ≤ 16 := by omega
    simp [Request.dropReason, bufRangeValid, hr]
  | _ => rfl

/-- The spec accepts `q` on an idle engine whose `E.cfg` is as given: its operands fit (R88), it is not refused
`NotInitialized` (R138), and it is not dropped (R135). -/
structure Request.AcceptedWith (cfg : Bool) (q : Request) : Prop where
  fits       : Spec.fits q
  configured : cfg = true ∨ Spec.anyCfg q
  notDropped : ∀ st, ¬Spec.dropped q st

/-- A request that the spec accepts is accepted (R119). -/
theorem Request.AcceptedWith.processRequest {q : Request} {s : State} (h : q.AcceptedWith s.eng.cfg)
    (hb : s.eng.busy = false) : processRequest q s = acceptRequest q s := by
  have hw := q.wellFormed_iff_fits.2 h.fits
  have hd := q.dropReason_of_not_dropped h.notDropped
  have hn : (!s.eng.cfg && !q.needsNoInit) = false := by
    obtain hc | hc := h.configured
    · rw [hc]
      rfl
    · rw [q.needsNoInit_iff_anyCfg.2 hc, Bool.not_true, Bool.and_false]
  simp [Machine.processRequest, hb, hw, hn, hd]

/-- Acceptance as a whole: the request's updates, its report and the spec's actions (R119, R120). -/
theorem Request.AcceptedWith.exec {q : Request} {s : State} (h : q.AcceptedWith s.eng.cfg) (hb : s.eng.busy = false) :
    ∃ t, exec q.toInstr s = .next t ∧
      t = { s with
        eng := { q.update s.eng with busy := true, seq := t.eng.seq }, reports := s.reports ++ [.accepted q] } ∧
      actionsOf t.eng.seq = Spec.actions s.par.layout (q.nextEn s.eng.en) (q.nextBri s.eng.bri) q := by
  refine ⟨acceptRequest q s, ?_, rfl, actionsOf_expansion s.par.layout (q.update s.eng) q⟩
  rw [exec_request, h.processRequest hb]

/-! ## Which requests the spec accepts -/

section
variable {cfg : Bool}

theorem acceptedWith_init (on : Bool) {b : Nat} (hb : b ≤ 7) : (Request.init on b).AcceptedWith cfg :=
  ⟨hb, .inr trivial, fun _ => id⟩

theorem acceptedWith_shutdown : Request.shutdown.AcceptedWith cfg := ⟨trivial, .inr trivial, fun _ => id⟩

theorem acceptedWith_displayOn (hc : cfg = true) : Request.displayOn.AcceptedWith cfg :=
  ⟨trivial, .inl hc, fun _ => id⟩

theorem acceptedWith_displayOff (hc : cfg = true) : Request.displayOff.AcceptedWith cfg :=
  ⟨trivial, .inl hc, fun _ => id⟩

theorem acceptedWith_setBrightness (hc : cfg = true) {b : Nat} (hb : b ≤ 7) :
    (Request.setBrightness b).AcceptedWith cfg :=
  ⟨hb.trans (by decide), .inl hc, fun _ ⟨h, _⟩ => absurd hb (Nat.not_le_of_lt h)⟩

theorem acceptedWith_clear (hc : cfg = true) : Request.clear.AcceptedWith cfg := ⟨trivial, .inl hc, fun _ => id⟩

theorem acceptedWith_writeReg (hc : cfg = true) {a v : Nat} (ha : a ≤ 15) (hv : v ≤ 255) :
    (Request.writeReg a v).AcceptedWith cfg :=
  ⟨⟨ha.trans (by decide), hv⟩, .inl hc, fun _ ⟨h, _⟩ => absurd ha (Nat.not_le_of_lt h)⟩

theorem acceptedWith_writeBuf (hc : cfg = true) {a n : Nat} {bytes : List Nat} (hn : 1 ≤ n) (ha : a + n ≤ 16)
    (hbytes : ∀ d ∈ bytes, d ≤ 255) (hl : n ≤ bytes.length) : (Request.writeBuf a n bytes).AcceptedWith cfg :=
  ⟨⟨by omega, by omega, hbytes, hl⟩, .inl hc, fun _ ⟨h, _⟩ => by omega⟩

theorem acceptedWith_readKeys (hc : cfg = true) : Request.readKeys.AcceptedWith cfg :=
  ⟨trivial, .inl hc, fun _ => id⟩

end

/-! ## The statements about acceptance -/

/-- Settles O40: INIT and SHUTDOWN are accepted whatever `E.cfg` is. -/
theorem lifecycleRequestsAreAccepted : Obligations.LifecycleRequestsAreAccepted :=
  fun _ hb => ⟨fun on _ hle => (acceptedWith_init on hle).exec hb, acceptedWith_shutdown.exec hb⟩

/-- Settles O41: each display-control request writes its register, from which the command is built. -/
theorem displayControlIsAccepted : Obligations.DisplayControlIsAccepted :=
  fun _ hb hc => ⟨(acceptedWith_displayOn hc).exec hb, (acceptedWith_displayOff hc).exec hb,
    fun _ hle => (acceptedWith_setBrightness hc hle).exec hb⟩

/-- Settles O42: the transfers write no control register. -/
theorem transfersAreAccepted : Obligations.TransfersAreAccepted :=
  fun _ hb hc => ⟨(acceptedWith_clear hc).exec hb, fun _ _ ha hv => (acceptedWith_writeReg hc ha hv).exec hb,
    fun _ _ _ hn ha hbytes hl => (acceptedWith_writeBuf hc hn ha hbytes hl).exec hb,
    (acceptedWith_readKeys hc).exec hb⟩

/-! ## WRITE_REG and WRITE_BUF of one byte (R131) -/

/-- Requests with the same checks, updates and expansion leave the same engine from every state: they are held, refused,
dropped or accepted alike. -/
theorem processRequest_eng_of_sameChecks (q q' : Request) (s : State) (hw : q'.wellFormed = q.wellFormed)
    (hn : q'.needsNoInit = q.needsNoInit) (hd : q'.dropReason = q.dropReason) (hu : q'.update s.eng = q.update s.eng)
    (he : q'.expansion s.par.layout (q.update s.eng) = q.expansion s.par.layout (q.update s.eng)) :
    (processRequest q s).eng = (processRequest q' s).eng := by
  have haccept : (acceptRequest q s).eng = (acceptRequest q' s).eng := by
    simp only [acceptRequest, State.report_eng, State.setEng_eng, hu, he]
  unfold processRequest
  rw [hw, hn, hd]
  split
  · rfl
  · split
    · rfl
    · split
      · rfl
      · cases q.dropReason with
        | some r => rfl
        | none => exact haccept

/-- Settles O44: the two requests have the same checks, and one byte is the data of both. -/
theorem writeRegEqualsWriteBufOfOne : Obligations.WriteRegEqualsWriteBufOfOne := by
  intro a v s _ _
  obtain ⟨-, hpeer, htrace, -⟩ := processRequest_frame (.writeReg a v) s
  obtain ⟨-, hpeer', htrace', -⟩ := processRequest_frame (.writeBuf a 1 [v]) s
  have hw : (Request.writeBuf a 1 [v]).wellFormed = (Request.writeReg a v).wellFormed := by
    simp [Request.wellFormed]
  have hd : (Request.writeBuf a 1 [v]).dropReason = (Request.writeReg a v).dropReason := by
    simp [Request.dropReason, bufRangeValid, regAddrValid, Nat.lt_succ_iff]
  exact ⟨_, _, exec_request (.writeReg a v) s, exec_request (.writeBuf a 1 [v]) s, by omega,
    processRequest_eng_of_sameChecks _ _ s hw rfl hd rfl rfl, hpeer.trans hpeer'.symm, htrace.trans htrace'.symm⟩

end Sys2Proof.Machine
end

section
/-! PROOF. Requests run to completion (R29, R72, R119, R132): the step that accepts a request and the steps that perform
its actions, as one run. -/

namespace Sys2Proof.Machine

/-! ## Runs of steps -/

theorem runSteps_add (n m : Nat) (s t : State) (h : runSteps n s = .next t) :
    runSteps (n + m) s = runSteps m t := by
  induction n generalizing s with
  | zero =>
    cases h
    rw [Nat.zero_add]
  | succ n ih =>
    rw [runSteps] at h
    cases hs : step s with
    | next u =>
      rw [hs] at h
      rw [Nat.add_right_comm, runSteps_succ (n + m) s u hs]
      exact ih u h
    | fault r =>
      rw [hs] at h
      cases h
    | refused r =>
      rw [hs] at h
      cases h

/-- While entries are left, stepping performs the entries before them (R29, R72). -/
theorem runSteps_entries (ms rest : List Micro) (s : State) (hb : s.eng.busy = true) (hs : s.eng.seq = ms ++ rest)
    (hr : rest ≠ []) : runSteps ms.length s = .next ((runMicros ms s).withSeq rest) := by
  induction ms generalizing s with
  | nil =>
    rw [List.nil_append] at hs
    subst hs
    rfl
  | cons m ms ih =>
    have hne : ms ++ rest ≠ [] := List.append_ne_nil_of_right_ne_nil ms hr
    obtain ⟨-, -, -, hbusy, -⟩ := performMicro_eng m s
    have hu : finishMicro m (ms ++ rest) (performAct m.act s) = (performMicro m s).withSeq (ms ++ rest) :=
      finishMicro_performAct m _ s hne
    have hstep := step_of_busy s m (ms ++ rest) hb hs
    rw [hu] at hstep
    rw [List.length_cons, runSteps_succ ms.length s _ hstep, runMicros_cons,
      ih ((performMicro m s).withSeq (ms ++ rest)) (hbusy.trans hb) rfl, runMicros_withSeq]
    rfl

/-- The key mask in the response of a request whose last entry `m` leaves the state `s` (R90, R129). -/
def Micro.response (m : Micro) (s : State) : Option (BitVec 32) :=
  if Assign.returnKeys ∈ m.asg then some s.eng.rspKeys else none

theorem completed_response (m : Micro) (s : State) :
    Completed (m.response (performMicro m s)) (performMicro m s) (finishMicro m [] (performAct m.act s)) := rfl

/-- Stepping to the end, with the response that the last entry delivers. -/
theorem runSteps_toLast (ms : List Micro) (s : State) (hb : s.eng.busy = true) (hs : s.eng.seq = ms) (hne : ms ≠ []) :
    ∃ t, runSteps ms.length s = .next t ∧
      Completed ((ms.getLast hne).response (runMicros ms s)) (runMicros ms s) t := by
  generalize hm : ms.getLast hne = m
  generalize hi : ms.dropLast = init
  obtain rfl : ms = init ++ [m] := by rw [← hi, ← hm, List.dropLast_append_getLast]
  have hrun := runSteps_entries init [m] s hb hs (List.cons_ne_nil m [])
  obtain ⟨-, -, -, hbusy, -⟩ := runMicros_eng init s
  have hstep := step_of_busy ((runMicros init s).withSeq [m]) m [] (hbusy.trans hb) rfl
  have hend := completed_response m ((runMicros init s).withSeq [m])
  rw [performMicro_withSeq] at hend
  rw [List.length_append, runSteps_add _ _ s _ hrun, List.length_singleton, runSteps_succ 0 _ _ hstep,
    runMicros_append]
  exact ⟨_, rfl, hend⟩

/-! ## A request at the head of the line -/

/-- The machine after the step that takes `q` from the head of the line and accepts it (R119, R140). -/
def State.accepted (s : State) (q : Request) (rest : List Request) : State := acceptRequest q (s.setPending rest)

theorem drain_accepted (q : Request) (rest : List Request) (s : State) :
    drain (s.accepted q rest) = runMicros (q.expansion s.par.layout (q.update s.eng)) (s.accepted q rest) := rfl

section
variable {q : Request} {rest : List Request} {s : State}

theorem Request.AcceptedWith.runSteps_one (h : q.AcceptedWith s.eng.cfg) (hb : s.eng.busy = false)
    (hp : s.pending = q :: rest) : runSteps 1 s = .next (s.accepted q rest) := by
  have hq : Machine.processRequest q (s.setPending rest) = s.accepted q rest :=
    h.processRequest (s := s.setPending rest) hb
  rw [runSteps_succ 0 s _ (step_of_pending s q rest hb hp), runSteps, hq]

/-- A request that fits loads as many entries as R174 counts actions. -/
theorem length_expansion (lay : DataLayout) (e : Engine) (hf : Spec.fits q) :
    (q.expansion lay e).length = Spec.actionCount q := by
  rw [← (actions_counts lay e.en e.bri q hf).1, ← actionsOf_expansion lay e q, actionsOf, List.length_map]

/-- The last entry of a request's expansion on `s`. -/
def Request.lastEntry (q : Request) (s : State) : Micro :=
  (q.expansion s.par.layout (q.update s.eng)).getLast (q.expansion_ne_nil _ _)

/-- `t` is where the run of `q` from the head of the line of `s` ends: the pins, the peer and the trace are those that
performing its actions leaves, and the control registers have its updates (R29, R120). -/
structure RanToEnd (q : Request) (rest : List Request) (s t : State) : Prop where
  busy    : t.eng.busy = false
  pending : t.pending = rest
  cfg     : t.eng.cfg = q.nextCfg s.eng.cfg
  en      : t.eng.en = q.nextEn s.eng.en
  bri     : t.eng.bri = q.nextBri s.eng.bri
  clk     : t.eng.clk = (drain (s.accepted q rest)).eng.clk
  dio     : t.eng.dio = (drain (s.accepted q rest)).eng.dio
  stb     : t.eng.stb = (drain (s.accepted q rest)).eng.stb
  peer    : t.peer = (drain (s.accepted q rest)).peer
  trace   : t.trace = (drain (s.accepted q rest)).trace
  rspKeys : t.eng.rspKeys = (drain (s.accepted q rest)).eng.rspKeys
  reports : t.reports = s.reports ++
    [.accepted q, .completed ((q.lastEntry s).response (drain (s.accepted q rest))) (statusIf s.par .ok)]

theorem Completed.ranToEnd {t : State}
    (h : Completed ((q.lastEntry s).response (drain (s.accepted q rest))) (drain (s.accepted q rest)) t) :
    RanToEnd q rest s t := by
  obtain ⟨hpar, hpending, hreports⟩ := runMicros_frame (s.accepted q rest).eng.seq (s.accepted q rest)
  obtain ⟨hcfg, hen, hbri, -⟩ := runMicros_eng (s.accepted q rest).eng.seq (s.accepted q rest)
  change (drain (s.accepted q rest)).par = s.par at hpar
  change (drain (s.accepted q rest)).reports = s.reports ++ [.accepted q] at hreports
  unfold Completed at h
  rw [h]
  exact
    { busy := rfl, pending := hpending, cfg := hcfg, en := hen, bri := hbri, clk := rfl, dio := rfl, stb := rfl
      peer := rfl, trace := rfl, rspKeys := rfl
      reports := by rw [hpar, hreports, List.append_assoc]; rfl }

/-- A request that the spec accepts completes after the step that accepts it and one for each of its actions. -/
theorem Request.AcceptedWith.runSteps_all (h : q.AcceptedWith s.eng.cfg) (hb : s.eng.busy = false)
    (hp : s.pending = q :: rest) :
    ∃ t, runSteps (1 + Spec.actionCount q) s = .next t ∧ RanToEnd q rest s t := by
  obtain ⟨t, hrun, hend⟩ := runSteps_toLast _ (s.accepted q rest) rfl rfl (q.expansion_ne_nil _ _)
  have hl : (s.accepted q rest).eng.seq.length = Spec.actionCount q := length_expansion s.par.layout _ h.fits
  rw [hl] at hrun
  exact ⟨t, by rw [runSteps_add 1 _ s _ (h.runSteps_one hb hp), hrun], Completed.ranToEnd hend⟩

/-- A run on a settled machine ends settled (R132). -/
theorem RanToEnd.settled {t : State} (h : RanToEnd q rest s t) (hq : q.AcceptedWith s.eng.cfg) (hs : Settled s) :
    Settled t := by
  have hset : Settled (drain (s.accepted q rest)) :=
    settled_drain_acceptRequest q (s.setPending rest) hs (hq.configured.imp_right q.needsNoInit_iff_anyCfg.2)
      (q.dropReason_of_not_dropped hq.notDropped)
  have hcfg : (drain (s.accepted q rest)).eng.cfg = q.nextCfg s.eng.cfg := (runMicros_eng _ _).1
  rwa [Settled, BusIdle, PinsReleased, PinsFresh, h.clk, h.dio, h.stb, h.peer, h.cfg, ← hcfg]

/-- The run of SHUTDOWN tells a quiet peer nothing and releases the pins (R122). -/
theorem RanToEnd.shutdown {t : State} (h : RanToEnd .shutdown rest s t) (hq : PeerQuiet s.peer) :
    t.peer = s.peer ∧ PinsReleased t.eng := by
  obtain ⟨hpeer, hpins⟩ := runMicros_shutdownSeq (s.accepted .shutdown rest) hq
  rw [h.peer, PinsReleased, h.clk, h.dio, h.stb]
  exact ⟨hpeer, hpins⟩

end

/-! ## The bus when a request completes (R132) -/

/-- A request other than SHUTDOWN is accepted on a configured engine or configures it (R21, R138). -/
theorem Request.AcceptedWith.nextCfg {q : Request} {cfg : Bool} (h : q.AcceptedWith cfg) (hq : q ≠ .shutdown) :
    q.nextCfg cfg = true := by
  obtain hc | hany := h.configured
  · subst hc
    cases q with
    | shutdown => exact absurd rfl hq
    | _ => rfl
  · cases q with
    | init on b => rfl
    | shutdown => exact absurd rfl hq
    | _ => exact hany.elim

/-- Settles O50: the run of an accepted request on a settled machine ends settled; SHUTDOWN releases the pins. -/
theorem busIsIdleAfterEveryRequest : Obligations.BusIsIdleAfterEveryRequest := by
  intro q s hs hb hfits hcfg hdrop
  have hq : q.AcceptedWith s.eng.cfg := ⟨hfits, hcfg, hdrop⟩
  obtain ⟨t, hrun, hend⟩ := hq.runSteps_all (s := s.setPending [q]) hb rfl
  obtain ⟨hu, hquiet, hidle, -⟩ := hend.settled hq hs
  refine ⟨t, hrun, hend.busy, fun hne => ?_, ?_, hquiet, hu⟩
  · have hc : t.eng.cfg = true := hend.cfg.trans (hq.nextCfg hne)
    exact ⟨hc, hidle hc⟩
  · rintro rfl
    have ⟨_, hquiet', _⟩ := hs
    exact ⟨hend.cfg, (hend.shutdown hquiet').2⟩

end Sys2Proof.Machine
end

section
/-! PROOF. What the runs of INIT, SHUTDOWN, the display writes and READ_KEYS leave on a settled machine. -/

namespace Sys2Proof.Machine

/-! ## INIT and SHUTDOWN (R121, R122, R160, R162) -/

/-- The actions of INIT before its command make the bus idle and tell a quiet peer nothing (R121). -/
theorem runMicros_initSeq (e : Engine) (s : State) (hp : PinsHighOrOff s.eng) (hq : PeerQuiet s.peer) :
    ∃ u, Ready u ∧ u.peer = s.peer ∧ runMicros (initSeq e) s = runMicros (sendCtrlSeq e) u := by
  have hsilent : EdgelessRun s.eng [.wr .stb true, .wr .clk true, .cfgOut .clk, .cfgOut .dio, .cfgOut .stb] :=
    ⟨.inr (hp .stb (by decide)), .inr (hp .clk (by decide)), trivial, trivial, trivial, trivial⟩
  obtain ⟨hpeer, heng⟩ := runMicros_edgeless _ s hq hsilent
  refine ⟨_, ⟨?_, ?_⟩, hpeer, runMicros_append _ (sendCtrlSeq e) s⟩
  · rw [BusIdle, heng]
    exact ⟨rfl, rfl, rfl⟩
  · rw [hpeer]
    exact hq

/-- SEND_CTRL sets the display control, and no other register, to `E.en` and `E.bri` (R118). -/
theorem sameRegisters_sendCtrl (e : Engine) (s : State) (h : Ready s) :
    (runMicros (sendCtrlSeq e) s).peer.SameRegisters (s.peer.setCtrl e.en e.bri) := by
  have hreg := (sentTo_writeCommand (ctrlByte e.en e.bri) s h).registers
  rwa [decodeCommand_ctrlByte] at hreg

/-- The peer's registers when INIT has completed: the display control is that of its operands (R121, R160). -/
theorem RanToEnd.init {on : Bool} {b : Nat} {rest : List Request} {s t : State} (h : RanToEnd (.init on b) rest s t)
    (hs : Settled s) : t.peer.SameRegisters (s.peer.setCtrl on (BitVec.ofNat 3 b)) := by
  have ⟨_, hquiet, _⟩ := hs
  obtain ⟨u, hu, hpeer, hrun⟩ := runMicros_initSeq ((Request.init on b).update s.eng) (s.accepted (.init on b) rest)
    hs.pinsHighOrOff hquiet
  have hreg := sameRegisters_sendCtrl ((Request.init on b).update s.eng) u hu
  rw [hpeer] at hreg
  rw [h.peer, drain_accepted, Request.expansion, hrun]
  exact hreg

/-- Settles O49: both runs end settled; INIT's command sets the display control, SHUTDOWN tells the peer nothing. -/
theorem lifecycleRunsConfigureAndReleaseThePins : Obligations.LifecycleRunsConfigureAndReleaseThePins := by
  intro rest s hs hb
  constructor
  · intro on b hle hp
    have hq : (Request.init on b).AcceptedWith s.eng.cfg := acceptedWith_init on hle
    obtain ⟨t, hrun, hend⟩ := hq.runSteps_all hb hp
    obtain ⟨hu, hquiet, hidle, -⟩ := hend.settled hq hs
    have hreg := hend.init hs
    exact ⟨t, hrun, hend.busy, hend.cfg, hidle hend.cfg, hquiet, hreg.on, hreg.bri, hu, hreg.disp, hend.pending⟩
  · intro hp
    have hq : Request.shutdown.AcceptedWith s.eng.cfg := acceptedWith_shutdown
    obtain ⟨t, hrun, hend⟩ := hq.runSteps_all hb hp
    have ⟨_, hquiet, _⟩ := hs
    obtain ⟨hpeer, hpins⟩ := hend.shutdown hquiet
    exact ⟨t, hrun, hend.busy, hend.cfg, hpins, hpeer, hend.en, hend.bri, hend.pending⟩

/-! ## Display writes (R126 to R128) -/

/-- `t` is `s` with the bytes `d` written to the display registers from `a` on, in a write-mode window and a write
window (R116). -/
structure WroteDisplay (a : Byte) (d : List Byte) (s t : State) : Prop where
  inside  : ∀ j (h : j < d.length), t.peer.disp.read (a.toNat + j) = d[j]
  outside : ∀ x, (x < a.toNat ∨ a.toNat + d.length ≤ x) → t.peer.disp.read x = s.peer.disp.read x
  ptr     : t.peer.ptr = some (a.toNat + d.length)
  rw      : t.peer.rw = some .write
  am      : t.peer.am = some .auto
  undef   : t.peer.undef = false
  windows : ∃ evs, t.trace = s.trace ++ evs ∧
    windowsOf s.eng.stb evs = [[.sent (Spec.writeAuto s.par.layout)], .sent (0xC0#8 ||| a) :: d.map WinByte.sent]

/-- A request that expands to WRITE_OP, from the head of the line of a settled machine. -/
theorem Request.AcceptedWith.writesDisplay {q : Request} {rest : List Request} {s : State}
    (hq : q.AcceptedWith s.eng.cfg) (hs : Settled s) (hb : s.eng.busy = false) (hc : s.eng.cfg = true)
    (hp : s.pending = q :: rest) (a : Byte) (d : List Byte)
    (he : q.expansion s.par.layout (q.update s.eng) = writeOpSeq s.par.layout a d) (hd : 1 ≤ d.length)
    (ha : a.toNat + d.length ≤ 16) :
    ∃ t, runSteps (1 + Spec.actionCount q) s = .next t ∧ t.eng.busy = false ∧ t.pending = rest ∧
      WroteDisplay a d s t := by
  obtain ⟨t, hrun, hend⟩ := hq.runSteps_all hb hp
  have hready : Ready (s.accepted q rest) := (hs.safeReady hc).ready
  obtain ⟨u, evs, hu, htrace, -, -, hwin, hin, hout, hptr, hrw, ham, hundef, -⟩ :=
    writeOpStoresItsBytes a d (s.accepted q rest) hready hd ha
  have hdrain : drain (s.accepted q rest) = u := by
    rw [drain_accepted, he]
    exact Host.Outcome.next.inj hu
  have hpeer : t.peer = u.peer := hdrain ▸ hend.peer
  have htr : t.trace = u.trace := hdrain ▸ hend.trace
  have ⟨hclear, _⟩ := hs
  refine ⟨t, hrun, hend.busy, hend.pending, ?_⟩
  constructor
  case windows => exact ⟨evs, htr.trans htrace, hwin⟩
  all_goals rw [hpeer]
  exacts [hin, hout, hptr, hrw, ham, hundef.trans hclear]

theorem toNat_address {a : Nat} (h : a ≤ 16) : (BitVec.ofNat 8 a).toNat = a := by
  rw [BitVec.toNat_ofNat]
  omega

/-- Settles O47: each display write is a WRITE_OP; the three differ in its address and data. -/
theorem writeBufRunStoresItsBytes : Obligations.WriteBufRunStoresItsBytes := by
  intro rest s hs hb hc
  refine ⟨fun a n bytes hp hn ha hbytes hl => ?_, fun a v hp ha hv => ?_, fun hp => ?_⟩
  · have haddr := toNat_address (a := a) (by omega)
    have hlen : (bufBytes n bytes).length = n := by rw [bufBytes, List.length_map, List.length_take, Nat.min_eq_left hl]
    obtain ⟨t, hrun, hbusy, hpend, h⟩ := (acceptedWith_writeBuf hc hn ha hbytes hl).writesDisplay hs hb hc hp
      (BitVec.ofNat 8 a) (bufBytes n bytes) rfl (by omega) (by omega)
    obtain ⟨hin, hout, hptr, hrw, ham, hundef, evs, htrace, hwin⟩ := h
    rw [haddr, hlen] at hptr
    simp only [haddr, hlen] at hin hout
    refine ⟨t, evs, hrun, hbusy, hpend, fun j hj hjn => ?_, hout, hptr, hrw, ham, hundef, htrace, ?_⟩
    · rw [hin j hjn]
      simp [bufBytes]
    · rw [hwin, bufBytes, List.map_map]
      rfl
  · have haddr := toNat_address (a := a) (by omega)
    obtain ⟨t, hrun, hbusy, hpend, h⟩ := (acceptedWith_writeReg hc ha hv).writesDisplay hs hb hc hp
      (BitVec.ofNat 8 a) [BitVec.ofNat 8 v] rfl le_rfl (by rw [haddr, List.length_singleton]; omega)
    obtain ⟨hin, hout, hptr, hrw, ham, hundef, evs, htrace, hwin⟩ := h
    rw [haddr] at hptr
    simp only [haddr, List.length_singleton] at hin hout
    exact ⟨t, evs, hrun, hbusy, hpend, hin 0 Nat.zero_lt_one, fun x hx => hout x (by omega), hptr, hrw, ham, hundef,
      htrace, hwin⟩
  · obtain ⟨t, hrun, hbusy, hpend, h⟩ := (acceptedWith_clear hc).writesDisplay hs hb hc hp
      0x00#8 (List.replicate 16 0x00#8) rfl (by decide) (by decide)
    obtain ⟨hin, hout, hptr, hrw, ham, hundef, evs, htrace, hwin⟩ := h
    refine ⟨t, evs, hrun, hbusy, hpend, fun x hx => ?_, fun x hx => hout x (.inr hx), hptr, hrw, ham, hundef, htrace,
      hwin⟩
    have hx' := hin x (by rwa [List.length_replicate])
    rwa [List.getElem_replicate, BitVec.toNat_zero, Nat.zero_add] at hx'

/-! ## READ_KEYS (R129) -/

/-- What is assigned with the rise of STB comes after all that the window does. -/
theorem runMicros_readWindowSeq_after (lay : DataLayout) (after : List Assign) (s : State) :
    runMicros (readWindowSeq lay after) s =
      (runMicros (readWindowSeq lay []) s).setEng ((runMicros (readWindowSeq lay []) s).eng.assign none after) := by
  rw [runMicros_readWindowSeq, runMicros_readWindowSeq]
  generalize runMicros foldKeyBytesSeq _ = u
  have hlast : lastAnswer (performAct (.wr .stb true) u).trace = none := by
    rw [performAct, doWr, actOnPin_trace, lastAnswer_append_cons, lastAnswer_wr]
  have hrise (as : List Assign) : runMicros (strobeHighSeq as) u =
      (performAct (.wr .stb true) u).setEng ((performAct (.wr .stb true) u).eng.assign none as) := by
    rw [strobeHighSeq, runMicros_cons, runMicros_nil, performMicro, hlast]
  rw [hrise, hrise]
  rfl

theorem lastEntry_readKeys (s : State) : Request.readKeys.lastEntry s = ⟨.wr .stb true, [.returnKeys]⟩ := by
  simp [Request.lastEntry, Request.expansion, readKeysSeq, readWindowSeq, strobeHighSeq]

/-- Settles O48: READ_KEYS is a READ_WINDOW, whose mask its last entry makes the response. -/
theorem readKeysRunReturnsTheMask : Obligations.ReadKeysRunReturnsTheMask := by
  intro ks keys rest s hs hb hc hp hl hkp
  obtain ⟨t, hrun, hend⟩ := (acceptedWith_readKeys hc).runSteps_all hb hp
  have hready : Ready (s.accepted .readKeys rest) := (hs.safeReady hc).ready
  obtain ⟨u, -, -, -, -, -, hu, -, -, -, -, -, hmask, hrw, -, hundef, hdisp, -⟩ :=
    readWindowAssemblesTheMask ks keys (s.accepted .readKeys rest) hready hl hkp
  have hwindow : runMicros (readWindowSeq s.par.layout []) (s.accepted .readKeys rest) = u := Host.Outcome.next.inj hu
  have hdrain : drain (s.accepted .readKeys rest) = u.setEng { u.eng with rspKeys := u.eng.kacc } := by
    rw [drain_accepted, Request.expansion, readKeysSeq, runMicros_readWindowSeq_after, hwindow]
    rfl
  have hpeer : t.peer = u.peer := by rw [hend.peer, hdrain, State.setEng_peer]
  have hkeys : t.eng.rspKeys = u.eng.kacc := by rw [hend.rspKeys, hdrain, State.setEng_eng]
  have hreports := hend.reports
  rw [lastEntry_readKeys, hdrain] at hreports
  obtain ⟨hclear, -, hidle, -⟩ := hend.settled (acceptedWith_readKeys hc) hs
  obtain ⟨-, -, hdio⟩ := hidle (hend.cfg.trans hc)
  exact ⟨t, u.eng.kacc, hrun, hend.busy, hend.pending, hkeys, hmask, hreports, by rw [hpeer, hdisp]; rfl, hclear,
    by rw [hpeer, hrw], hend.en, hend.bri, hdio⟩

end Sys2Proof.Machine
end

section
/-! PROOF. DISPLAY_OFF and DISPLAY_ON one after the other (R130), and what a safe state is like (R39, R132). -/

namespace Sys2Proof.Machine

/-! ## The toggle -/

/-- WRITE_COMMAND leaves its actions in the trace, whatever the peer does (R109). -/
theorem runMicros_writeCommandSeq_trace (c : Byte) (s : State) :
    (runMicros (writeCommandSeq c) s).trace =
      s.trace ++ (Spec.writeCommandActions c).map (BusAction.event false) := by
  have hstb (l : Level) (u : State) : (runMicros [emit (.wr .stb l)] u).trace = u.trace ++ [.wr .stb l] :=
    actOnPin_trace .stb _ _ u
  have hlow : strobeLowSeq = [emit (.wr .stb false)] := rfl
  have hhigh : strobeHighSeq [] = [emit (.wr .stb true)] := rfl
  rw [map_event_writeCommandActions, windowEvents, writeCommandSeq, runMicros_append, runMicros_append, hhigh, hstb,
    (runMicros_writeByteSeq_eng c _).2, hlow, hstb]
  simp only [List.append_assoc]

/-- A request that turns the display on or off, from the head of the line of an idle configured machine: its one command
carries the new flag and the old brightness (R123, R124). -/
theorem runSteps_toggle (q : Request) (rest : List Request) (s : State) (hb : s.eng.busy = false)
    (hc : s.eng.cfg = true) (hp : s.pending = q :: rest) (hq : q = .displayOff ∨ q = .displayOn) :
    runSteps 1 s = .next (s.accepted q rest) ∧
      actionsOf (s.accepted q rest).eng.seq =
        Spec.writeCommandActions (Spec.ctrl (decide (q = .displayOn)) s.eng.bri) ∧
      ∃ t, runSteps (1 + 42) s = .next t ∧ t.eng.busy = false ∧ t.eng.cfg = true ∧ t.pending = rest ∧
        t.eng.en = decide (q = .displayOn) ∧ t.eng.bri = s.eng.bri ∧
        t.trace = s.trace ++
          (Spec.writeCommandActions (Spec.ctrl (decide (q = .displayOn)) s.eng.bri)).map (BusAction.event false) := by
  have hupdate : q.AcceptedWith s.eng.cfg ∧ Spec.actionCount q = 42 ∧
      q.update s.eng = { s.eng with en := decide (q = .displayOn) } ∧
      ∀ lay e, q.expansion lay e = sendCtrlSeq e := by
    obtain rfl | rfl := hq
    · exact ⟨acceptedWith_displayOff hc, rfl, rfl, fun _ _ => rfl⟩
    · exact ⟨acceptedWith_displayOn hc, rfl, rfl, fun _ _ => rfl⟩
  obtain ⟨haccept, hcount, hu, he⟩ := hupdate
  obtain ⟨t, hrun, hend⟩ := haccept.runSteps_all hb hp
  rw [hcount] at hrun
  have hseq : (s.accepted q rest).eng.seq = sendCtrlSeq { s.eng with en := decide (q = .displayOn) } := by
    rw [← hu, ← he s.par.layout]
    rfl
  have hen : t.eng.en = decide (q = .displayOn) := hend.en.trans (congrArg Engine.en hu)
  have hbri : t.eng.bri = s.eng.bri := hend.bri.trans (congrArg Engine.bri hu)
  have hcfg : t.eng.cfg = true := (hend.cfg.trans (congrArg Engine.cfg hu)).trans hc
  refine ⟨haccept.runSteps_one hb hp, ?_, t, hrun, hend.busy, hcfg, hend.pending, hen, hbri, ?_⟩
  · rw [hseq, actionsOf_sendCtrlSeq]
  · rw [hend.trace, drain, hseq, sendCtrlSeq, runMicros_writeCommandSeq_trace, ctrlByte_eq]
    rfl

/-- Settles O45: two toggles in a row, each with the brightness that it found. -/
theorem brightnessSurvivesTheToggle : Obligations.BrightnessSurvivesTheToggle := by
  intro s q q' hb hc horder hp
  have hfirst : q = .displayOff ∨ q = .displayOn := horder.imp And.left And.left
  have hsecond : q' = .displayOff ∨ q' = .displayOn := (horder.imp And.right And.right).symm
  obtain ⟨hrun1, hseq1, v, hrun, hvb, hvc, hvp, -, hvbri, hvtrace⟩ := runSteps_toggle q [q'] s hb hc hp hfirst
  obtain ⟨hrun2, hseq2, w, hrun', hwb, -, hwp, hwen, hwbri, hwtrace⟩ := runSteps_toggle q' [] v hvb hvc hvp hsecond
  have hu : runSteps (1 + 42 + 1) s = .next (v.accepted q' []) := (runSteps_add _ 1 s v hrun).trans hrun2
  have hw : runSteps (1 + 42 + 1 + 42) s = .next w := (runSteps_add (1 + 42) (1 + 42) s v hrun).trans hrun'
  rw [hvbri] at hseq2 hwbri hwtrace
  refine ⟨_, _, w, hrun1, hu, hw, ?_, ?_, hwbri, hseq1, hseq2, hwb, hwen, hwp, ?_, fun hstb => ?_⟩
  · obtain rfl | rfl := hfirst <;> rfl
  · obtain rfl | rfl := hsecond <;> exact hvbri
  · rw [hwtrace, hvtrace, List.append_assoc, List.map_append]
  · rw [List.map_append, map_event_writeCommandActions, map_event_writeCommandActions]
    exact ((readsBytes_writeByteEvents _).window.append (readsBytes_writeByteEvents _).window).windowsOf hstb

/-! ## A safe state -/

/-- Settles O53: what is left of the request in progress could not clear `T.undef`, and between requests nothing is
left. -/
theorem safeRunKeepsUndefClear : Obligations.SafeRunKeepsUndefClear := by
  intro s ⟨hset, hbusy⟩
  have ⟨hclear, _⟩ := hset
  have hkeeps : s.peer.Keeps (drain s).peer := runMicros_keeps s.eng.seq s
  refine ⟨Bool.eq_false_of_not_eq_true fun hu => ?_, fun hb => ?_⟩
  · exact Bool.false_ne_true (hclear.symm.trans (hkeeps.undef hu))
  · have hseq : s.eng.seq = [] := by simpa [hb] using hbusy
    rw [drain, hseq, runMicros_nil] at hset
    exact hset.2

end Sys2Proof.Machine
end

section
/-! PROOF. The outcomes that take the place of exceptions (R134): a request is held, refused or dropped, and no
instruction stops the machine. -/

namespace Sys2Proof.Machine

/-! ## Held requests (R140) -/

theorem processRequest_of_busy (q : Request) (s : State) (hb : s.eng.busy = true) :
    processRequest q s = holdRequest q s := by
  simp [processRequest, hb]

@[simp] theorem finishMicro_pending (m : Micro) (rest : List Micro) (s : State) :
    (finishMicro m rest s).pending = s.pending := by
  obtain ⟨_, _, _, _, _, _, _, _, _, h⟩ := finishMicro_spec m rest s
  rw [h]

/-- While a request is in progress no step takes a request from the line. -/
theorem step_pending_of_busy (s t : State) (hb : s.eng.busy = true) (h : step s = .next t) : t.pending = s.pending := by
  obtain ⟨m, rest, -, -, rfl⟩ | ⟨q, rest, hb', -⟩ | ⟨hb', -⟩ := step_cases s t h
  · obtain ⟨-, hpending, -⟩ := performAct_frame m.act s
    rw [finishMicro_pending, hpending]
  · exact absurd (hb.symm.trans hb') (by decide)
  · exact absurd (hb.symm.trans hb') (by decide)

/-- Settles O36: while busy the engine holds a request and leaves the line alone; when idle a step processes the oldest,
which is to execute it. -/
theorem busyRequestsAreHeld : Obligations.BusyRequestsAreHeld := by
  intro q s
  refine ⟨fun hb => ⟨?_, fun t => step_pending_of_busy s t hb⟩, fun rest hb hp => ?_⟩
  · rw [exec_request, processRequest_of_busy q s hb]
    rfl
  · rw [step_of_pending s q rest hb hp]
    exact (exec_request q _).symm

/-! ## Refused requests (R138, R139) -/

theorem processRequest_of_malformed (q : Request) (s : State) (hb : s.eng.busy = false) (hw : q.wellFormed = false) :
    processRequest q s = refuseRequest q .malformed s := by
  simp [processRequest, hb, hw]

theorem processRequest_of_notInitialized (q : Request) (s : State) (hb : s.eng.busy = false)
    (hw : q.wellFormed = true) (hn : q.needsNoInit = false) (hc : s.eng.cfg = false) :
    processRequest q s = refuseRequest q .notInitialized s := by
  simp [processRequest, hb, hw, hn, hc]

/-- Settles O37: the two refusals come before the drop condition is looked at, and the spec's checks decide them. -/
theorem refusalsChangeNothing : Obligations.RefusalsChangeNothing := by
  intro q s hb
  refine ⟨fun hf => ?_, fun hf ha hc => ?_⟩
  · have hw : q.wellFormed = false := Bool.eq_false_of_not_eq_true (mt q.wellFormed_iff_fits.1 hf)
    rw [exec_request, processRequest_of_malformed q s hb hw]
    rfl
  · have hn : q.needsNoInit = false := Bool.eq_false_of_not_eq_true (mt q.needsNoInit_iff_anyCfg.1 ha)
    rw [exec_request, processRequest_of_notInitialized q s hb (q.wellFormed_iff_fits.2 hf) hn hc]
    rfl

/-! ## Dropped requests (R135 to R137) -/

/-- Under a drop condition of the spec the machine has a reason, with the spec's status (R135). -/
theorem Request.dropReason_of_dropped (q : Request) (st : Status) (h : Spec.dropped q st) :
    ∃ r, q.dropReason = some r ∧ r.status = st := by
  cases q with
  | setBrightness b =>
    obtain ⟨hb, rfl⟩ := h
    have hv : brightnessValid b = false := decide_eq_false (Nat.not_le_of_lt hb)
    exact ⟨.invalidBrightness, by simp [Request.dropReason, hv], rfl⟩
  | writeReg a v =>
    obtain ⟨ha, rfl⟩ := h
    have hv : regAddrValid a = false := decide_eq_false (Nat.not_le_of_lt ha)
    exact ⟨.invalidAddress, by simp [Request.dropReason, hv], rfl⟩
  | writeBuf a n bytes =>
    obtain ⟨hn, rfl⟩ := h
    have hv : ¬bufRangeValid a n = true := by
      simp only [bufRangeValid, Bool.and_eq_true, decide_eq_true_eq]
      omega
    exact ⟨.invalidAddress, by simp [Request.dropReason, hv], rfl⟩
  | _ => exact h.elim

/-- The requests that are processed whatever `E.cfg` is have no drop condition (R135, R138). -/
theorem not_anyCfg_of_dropped (q : Request) (st : Status) (h : Spec.dropped q st) : ¬Spec.anyCfg q := by
  cases q with
  | init | shutdown => exact h.elim
  | _ => exact id

/-- Settles O38: a request with a drop condition is one that needs `E.cfg = 1`, which is dropped; without one it is
accepted. -/
theorem dropsChangeNothing : Obligations.DropsChangeNothing := by
  intro q s hb hf hc
  refine ⟨fun st hst => ?_, fun hno => ?_⟩
  · have hcfg : s.eng.cfg = true := hc.resolve_right (not_anyCfg_of_dropped q st hst)
    obtain ⟨r, hr, rfl⟩ := q.dropReason_of_dropped st hst
    obtain ⟨-, hdrop⟩ := processRequest_of_configured q s hb hcfg (q.wellFormed_iff_fits.2 hf)
    exact ⟨dropRequest q r s, r, by rw [exec_request, hdrop r hr], rfl, rfl⟩
  · have haccepted : q.AcceptedWith s.eng.cfg := ⟨hf, hc, hno⟩
    exact ⟨acceptRequest q s, by rw [exec_request, haccepted.processRequest hb], rfl⟩

/-! ## No instruction stops the machine (R134) -/

/-- Settles O25, by the four kinds of instruction: an action, a request, a byte, a procedure. -/
theorem everyInstructionCompletes : Obligations.EveryInstructionCompletes := by
  intro i s
  obtain ⟨a, rfl⟩ | ⟨q, rfl⟩ | hbyte | ⟨ms, hms⟩ := exec_kind_cases i s
  · exact ⟨_, exec_action a s⟩
  · exact ⟨_, exec_request q s⟩
  · exact ⟨_, exec_byte i s hbyte⟩
  · exact ⟨_, hms⟩

end Sys2Proof.Machine
end

section
/-! PROOF. Reset (R155 to R158): an undriven bus, an idle engine and a blank peer, from which a safe run begins. -/

namespace Sys2Proof.Machine

/-! ## The wires of a bus that nobody drives (R26) -/

/-- A wire carries no level where the engine does not drive it and the peer does not drive DIO. -/
theorem level_of_undriven (s : State) (p : Pin) (hp : (s.eng.pin p).driven = none) (hd : s.peer.drive = none) :
    level s p = none := by
  cases p with
  | clk => exact (level_clk s).trans hp
  | dio => exact (level_dio_of_not_driven s hd).trans hp
  | stb => exact (level_stb s).trans hp

/-! ## The engine at its creation and the peer at its power-on (R156, R157) -/

@[simp] theorem Engine.reset_pin (p : Pin) : Engine.reset.pin p = ⟨.unconf, none⟩ := by
  cases p <;> rfl

theorem peerQuiet_powerOn : PeerQuiet Peer.powerOn := ⟨rfl, rfl, rfl⟩

/-- At reset the pins are as at creation (R156), which is how a machine that is not configured may stand. -/
theorem settled_reset : Settled State.reset :=
  ⟨rfl, peerQuiet_powerOn, fun hc => absurd hc Bool.false_ne_true, fun _ => .inr ⟨rfl, rfl, rfl⟩⟩

/-- Settles O5: `Unconf` pins drive nothing, and neither does the peer, so no wire has a level. -/
theorem resetLeavesTheEngineIdle : Obligations.ResetLeavesTheEngineIdle := by
  have hpin (p : Pin) : State.reset.eng.pin p = ⟨.unconf, none⟩ := Engine.reset_pin p
  refine ⟨rfl, rfl, rfl, hpin, fun p => level_of_undriven _ p ?_ rfl⟩
  rw [hpin, PinState.driven_unconf]

/-- Settles O6: no register has been written, so each reads as its power-on byte. -/
theorem powerOnLeavesThePeerBlank : Obligations.PowerOnLeavesThePeerBlank :=
  ⟨Memory.reset_read, rfl, rfl, rfl, peerQuiet_powerOn, rfl⟩

/-! ## The start of a safe run (R27, R132) -/

/-- With no request in progress nothing is left to perform, so a settled machine is safe. -/
theorem safeRun_of_idle (s : State) (hb : s.eng.busy = false) (hseq : s.eng.seq = []) (h : Settled s) : SafeRun s := by
  rw [SafeRun, drain, hseq, runMicros_nil, hb]
  exact ⟨h, fun hbusy => absurd hbusy Bool.false_ne_true, fun hne => absurd rfl hne⟩

/-- Settles O52: the machine is idle and settled at reset. -/
theorem resetIsASafeRun : Obligations.ResetIsASafeRun :=
  safeRun_of_idle State.reset rfl rfl settled_reset

end Sys2Proof.Machine
end
